-- ==== Sys2Proof/Word.lean ====
section
/-!
DEFINITION. The bit-vector types of the core, by width (00_scope.md R9).
-/

namespace Sys2Proof

/-- A DataSpace byte, a register's contents, half a Flash word. -/
abbrev Byte := BitVec 8

/-- An instruction word, a DataSpace address, a pointer value, the stack pointer. -/
abbrev Word := BitVec 16

/-- A program-counter value: a word address in Flash (10_state.md R35). -/
abbrev PcWord := BitVec 22

/-- A register number, r0 to r31 (10_state.md R30). -/
abbrev Reg := BitVec 5

end Sys2Proof
end

