-- ==== Sys2Proof/Syntax.lean ====
section
/-!
DEFINITION. The instructions: one constructor per row of spec/opcode_table.json, in the table's order.
-/

namespace Sys2Proof

/-- The admitted instructions (00_scope.md R5). A register operand is a register NUMBER 0..31; where the encoding
holds only r16..r31 (format RK), `WellFormed` says so. Displacements and immediates are the encoded fields
(30_encoding.md R104 to R109). -/
inductive Instr where
  -- format RR
  | add (d r : Reg)
  | adc (d r : Reg)
  | sub (d r : Reg)
  | sbc (d r : Reg)
  | cp (d r : Reg)
  | cpc (d r : Reg)
  | and (d r : Reg)
  | or (d r : Reg)
  | eor (d r : Reg)
  | cpse (d r : Reg)
  -- format RK
  | subi (d : Reg) (k : Byte)
  | sbci (d : Reg) (k : Byte)
  | cpi (d : Reg) (k : Byte)
  | ori (d : Reg) (k : Byte)
  | ldi (d : Reg) (k : Byte)
  -- one register, displacements, absolute addresses
  | com (d : Reg)
  | rjmp (k : BitVec 12)
  | brbs (b : BitVec 3) (k : BitVec 7)
  | brbc (b : BitVec 3) (k : BitVec 7)
  | jmp (k : PcWord)
  | call (k : PcWord)
  | ret
  | push (r : Reg)
  | pop (d : Reg)
  | lds (d : Reg) (k : Word)
  | sts (k : Word) (r : Reg)
  -- indirect loads
  | ldX (d : Reg)
  | ldXInc (d : Reg)
  | ldDecX (d : Reg)
  | ldY (d : Reg)
  | ldYInc (d : Reg)
  | ldDecY (d : Reg)
  | ldZ (d : Reg)
  | ldZInc (d : Reg)
  | ldDecZ (d : Reg)
  -- indirect stores
  | stX (r : Reg)
  | stXInc (r : Reg)
  | stDecX (r : Reg)
  | stY (r : Reg)
  | stYInc (r : Reg)
  | stDecY (r : Reg)
  | stZ (r : Reg)
  | stZInc (r : Reg)
  | stDecZ (r : Reg)
  -- program memory
  | lpmZ (d : Reg)
  | lpmZInc (d : Reg)
  | elpmZ (d : Reg)
  | elpmZInc (d : Reg)
  -- I/O
  | inIo (d : Reg) (a : BitVec 6)
  | outIo (a : BitVec 6) (r : Reg)
deriving DecidableEq, Repr

end Sys2Proof
end

