-- ==== Sys2Proof/WellFormed.lean ====
section
/-!
DEFINITION. Which instructions the encoding can hold: the one check the types do not make.
-/

namespace Sys2Proof

/-- A register that field d4 can name: r16 to r31 (30_encoding.md R106). -/
def upperReg (d : Reg) : Bool := decide (16 ≤ d.toNat)

/-- The instruction has an encoding. SUBI, SBCI, CPI, ORI and LDI name only r16..r31 (30_encoding.md R106); every
other operand is exactly as wide as its field (R104, R105, R107 to R109). -/
def WellFormed (i : Instr) : Bool :=
  match i with
  | .subi d _ => upperReg d
  | .sbci d _ => upperReg d
  | .cpi d _ => upperReg d
  | .ori d _ => upperReg d
  | .ldi d _ => upperReg d
  | .add _ _ => true
  | .adc _ _ => true
  | .sub _ _ => true
  | .sbc _ _ => true
  | .cp _ _ => true
  | .cpc _ _ => true
  | .and _ _ => true
  | .or _ _ => true
  | .eor _ _ => true
  | .cpse _ _ => true
  | .com _ => true
  | .rjmp _ => true
  | .brbs _ _ => true
  | .brbc _ _ => true
  | .jmp _ => true
  | .call _ => true
  | .ret => true
  | .push _ => true
  | .pop _ => true
  | .lds _ _ => true
  | .sts _ _ => true
  | .ldX _ => true
  | .ldXInc _ => true
  | .ldDecX _ => true
  | .ldY _ => true
  | .ldYInc _ => true
  | .ldDecY _ => true
  | .ldZ _ => true
  | .ldZInc _ => true
  | .ldDecZ _ => true
  | .stX _ => true
  | .stXInc _ => true
  | .stDecX _ => true
  | .stY _ => true
  | .stYInc _ => true
  | .stDecY _ => true
  | .stZ _ => true
  | .stZInc _ => true
  | .stDecZ _ => true
  | .lpmZ _ => true
  | .lpmZInc _ => true
  | .elpmZ _ => true
  | .elpmZInc _ => true
  | .inIo _ _ => true
  | .outIo _ _ => true

end Sys2Proof
end

