-- ==== Sys2Proof/Decode.lean ====
section
/-!
DEFINITION. The opcode dispatcher (30_encoding.md R110 to R118), the two-word predicate (R115), and the encoder,
written from the format table of R103.
-/

namespace Sys2Proof

/-- Why bytes are no instruction. -/
inductive DecodeError where
  /-- The word reaches the unsupported-opcode terminal (30_encoding.md R116). -/
  | illegalInstruction (op : Word)
  /-- The byte list ends inside the instruction; raised by `decodeBytes` only, for fetch asks Flash for whole words. -/
  | truncated
deriving DecidableEq, Repr

/-! ### Fields (30_encoding.md R104 to R109) -/

/-- Field d5, op[8:4] (R104). -/
def fieldD5 (op : Word) : Reg := op.extractLsb' 4 5

/-- Field r5, op[9] : op[3:0] (R105). -/
def fieldR5 (op : Word) : Reg := op.extractLsb' 9 1 ++ op.extractLsb' 0 4

/-- Field d4, 16 + op[7:4] (R106). -/
def fieldD4 (op : Word) : Reg := 1#1 ++ op.extractLsb' 4 4

/-- Field K8, op[11:8] : op[3:0] (R107). -/
def fieldK8 (op : Word) : Byte := op.extractLsb' 8 4 ++ op.extractLsb' 0 4

/-- Field A6, op[10:9] : op[3:0] (R108). -/
def fieldA6 (op : Word) : BitVec 6 := op.extractLsb' 9 2 ++ op.extractLsb' 0 4

/-- Field k12, op[11:0] (R109). -/
def fieldK12 (op : Word) : BitVec 12 := op.extractLsb' 0 12

/-- Field k7, op[9:3] (R109). -/
def fieldK7 (op : Word) : BitVec 7 := op.extractLsb' 3 7

/-- Field s3, op[2:0] (R109). -/
def fieldS3 (op : Word) : BitVec 3 := op.extractLsb' 0 3

/-- Field k22, op[8:4] : op[0] : w2 (R109). -/
def fieldK22 (op w2 : Word) : PcWord := op.extractLsb' 4 5 ++ op.extractLsb' 0 1 ++ w2

/-- The level-1 key, op[15:10] (R110). -/
def bucketOf (op : Word) : Nat := (op.extractLsb' 10 6).toNat

/-- TwoWord, on any 16-bit word, admitted or not (R115). -/
def twoWord (op : Word) : Bool :=
  (op &&& 0xFC0F#16) == 0x9000#16 || (op &&& 0xFE0C#16) == 0x940C#16

/-! ### The dispatcher -/

/-- An entry of the level-1 table (R111). -/
inductive Entry where
  | illegal
  | cpc | sbc | add | cpse | cp | sub | adc | and | eor | or
  | cpi | sbci | subi | ori | inIo | outIo | rjmp | ldi | brbs | brbc
  | l2x20 | l2x24 | l2x25
deriving DecidableEq, Repr

/-- The level-1 table (R111). -/
def level1 (bucket : Nat) : Entry :=
  match bucket with
  | 0x01 => .cpc
  | 0x02 => .sbc
  | 0x03 => .add
  | 0x04 => .cpse
  | 0x05 => .cp
  | 0x06 => .sub
  | 0x07 => .adc
  | 0x08 => .and
  | 0x09 => .eor
  | 0x0A => .or
  | 0x0C => .cpi
  | 0x0D => .cpi
  | 0x0E => .cpi
  | 0x0F => .cpi
  | 0x10 => .sbci
  | 0x11 => .sbci
  | 0x12 => .sbci
  | 0x13 => .sbci
  | 0x14 => .subi
  | 0x15 => .subi
  | 0x16 => .subi
  | 0x17 => .subi
  | 0x18 => .ori
  | 0x19 => .ori
  | 0x1A => .ori
  | 0x1B => .ori
  | 0x20 => .l2x20
  | 0x24 => .l2x24
  | 0x25 => .l2x25
  | 0x2C => .inIo
  | 0x2D => .inIo
  | 0x2E => .outIo
  | 0x2F => .outIo
  | 0x30 => .rjmp
  | 0x31 => .rjmp
  | 0x32 => .rjmp
  | 0x33 => .rjmp
  | 0x38 => .ldi
  | 0x39 => .ldi
  | 0x3A => .ldi
  | 0x3B => .ldi
  | 0x3C => .brbs
  | 0x3D => .brbc
  | _ => .illegal

/-- Disambiguator L2-20 (R112). -/
def decodeL2x20 (op : Word) : Except DecodeError Instr :=
  match (op &&& 0xFE0F#16).toNat with
  | 0x8000 => .ok (.ldZ (fieldD5 op))
  | 0x8008 => .ok (.ldY (fieldD5 op))
  | 0x8200 => .ok (.stZ (fieldD5 op))
  | 0x8208 => .ok (.stY (fieldD5 op))
  | _ => .error (.illegalInstruction op)

/-- Disambiguator L2-24 (R113). -/
def decodeL2x24 (op w2 : Word) : Except DecodeError Instr :=
  match (op &&& 0xFE0F#16).toNat with
  | 0x9000 => .ok (.lds (fieldD5 op) w2)
  | 0x9001 => .ok (.ldZInc (fieldD5 op))
  | 0x9002 => .ok (.ldDecZ (fieldD5 op))
  | 0x9004 => .ok (.lpmZ (fieldD5 op))
  | 0x9005 => .ok (.lpmZInc (fieldD5 op))
  | 0x9006 => .ok (.elpmZ (fieldD5 op))
  | 0x9007 => .ok (.elpmZInc (fieldD5 op))
  | 0x9009 => .ok (.ldYInc (fieldD5 op))
  | 0x900A => .ok (.ldDecY (fieldD5 op))
  | 0x900C => .ok (.ldX (fieldD5 op))
  | 0x900D => .ok (.ldXInc (fieldD5 op))
  | 0x900E => .ok (.ldDecX (fieldD5 op))
  | 0x900F => .ok (.pop (fieldD5 op))
  | 0x9200 => .ok (.sts w2 (fieldD5 op))
  | 0x9201 => .ok (.stZInc (fieldD5 op))
  | 0x9202 => .ok (.stDecZ (fieldD5 op))
  | 0x9209 => .ok (.stYInc (fieldD5 op))
  | 0x920A => .ok (.stDecY (fieldD5 op))
  | 0x920C => .ok (.stX (fieldD5 op))
  | 0x920D => .ok (.stXInc (fieldD5 op))
  | 0x920E => .ok (.stDecX (fieldD5 op))
  | 0x920F => .ok (.push (fieldD5 op))
  | _ => .error (.illegalInstruction op)

/-- Disambiguator L2-25, tested in the order of R114. -/
def decodeL2x25 (op w2 : Word) : Except DecodeError Instr :=
  if op = 0x9508#16 then .ok .ret
  else if op &&& 0xFE0F#16 = 0x9400#16 then .ok (.com (fieldD5 op))
  else if op &&& 0xFE0E#16 = 0x940C#16 then .ok (.jmp (fieldK22 op w2))
  else if op &&& 0xFE0E#16 = 0x940E#16 then .ok (.call (fieldK22 op w2))
  else .error (.illegalInstruction op)

/-- The instruction whose first word is `op` and whose second word, where it has one, is `w2`; the outcome's kind is
settled by `op` alone (R110, R118). -/
def decode (op w2 : Word) : Except DecodeError Instr :=
  match level1 (bucketOf op) with
  | .illegal => .error (.illegalInstruction op)
  | .cpc => .ok (.cpc (fieldD5 op) (fieldR5 op))
  | .sbc => .ok (.sbc (fieldD5 op) (fieldR5 op))
  | .add => .ok (.add (fieldD5 op) (fieldR5 op))
  | .cpse => .ok (.cpse (fieldD5 op) (fieldR5 op))
  | .cp => .ok (.cp (fieldD5 op) (fieldR5 op))
  | .sub => .ok (.sub (fieldD5 op) (fieldR5 op))
  | .adc => .ok (.adc (fieldD5 op) (fieldR5 op))
  | .and => .ok (.and (fieldD5 op) (fieldR5 op))
  | .eor => .ok (.eor (fieldD5 op) (fieldR5 op))
  | .or => .ok (.or (fieldD5 op) (fieldR5 op))
  | .cpi => .ok (.cpi (fieldD4 op) (fieldK8 op))
  | .sbci => .ok (.sbci (fieldD4 op) (fieldK8 op))
  | .subi => .ok (.subi (fieldD4 op) (fieldK8 op))
  | .ori => .ok (.ori (fieldD4 op) (fieldK8 op))
  | .inIo => .ok (.inIo (fieldD5 op) (fieldA6 op))
  | .outIo => .ok (.outIo (fieldA6 op) (fieldD5 op))
  | .rjmp => .ok (.rjmp (fieldK12 op))
  | .ldi => .ok (.ldi (fieldD4 op) (fieldK8 op))
  | .brbs => .ok (.brbs (fieldS3 op) (fieldK7 op))
  | .brbc => .ok (.brbc (fieldS3 op) (fieldK7 op))
  | .l2x20 => decodeL2x20 op
  | .l2x24 => decodeL2x24 op w2
  | .l2x25 => decodeL2x25 op w2

/-- The decoder on a stream of bytes as Flash holds them, low byte of a word first (20_memory.md R74); it answers
the rest of the stream too. -/
def decodeBytes (bytes : List Byte) : Except DecodeError (Instr × List Byte) :=
  match bytes with
  | lo :: hi :: rest =>
    let op : Word := hi ++ lo
    if twoWord op then
      match rest with
      | lo2 :: hi2 :: rest2 =>
        match decode op (hi2 ++ lo2) with
        | .ok i => .ok (i, rest2)
        | .error e => .error e
      | _ => .error .truncated
    else
      match decode op 0 with
      | .ok i => .ok (i, rest)
      | .error e => .error e
  | _ => .error .truncated

/-- The bytes, as Flash holds them, of the 32-bit number that spec/opcode_table.json's bit numbering makes of two
words: bits above `nbits` are 0. -/
def tableBytes (nbits w : Nat) : List Byte :=
  let v := w % 2 ^ nbits
  [BitVec.ofNat 8 v, BitVec.ofNat 8 (v / 0x100), BitVec.ofNat 8 (v / 0x10000), BitVec.ofNat 8 (v / 0x1000000)]

/-- The instruction the decoder reads from the bits `w`, numbered as spec/opcode_table.json numbers them. -/
def decodeTableWord (nbits w : Nat) : Option Instr :=
  match decodeBytes (tableBytes nbits w) with
  | .ok (i, _) => some i
  | .error _ => none

/-! ### The encoder, format by format (30_encoding.md R103) -/

/-- Format RR: `oooo oord dddd rrrr`. -/
def encodeRR (o : BitVec 6) (d r : Reg) : Word := o ++ r.extractLsb' 4 1 ++ d ++ r.extractLsb' 0 4

/-- Format RK: `oooo KKKK dddd KKKK`, d4 being the low four bits of the register number. -/
def encodeRK (o : BitVec 4) (d : Reg) (k : Byte) : Word :=
  o ++ k.extractLsb' 4 4 ++ d.extractLsb' 0 4 ++ k.extractLsb' 0 4

/-- Formats R1, RQ0 and RD, one 5-bit register: seven fixed bits, the register, four fixed bits. -/
def encodeR1 (o : BitVec 7) (d : Reg) (low : BitVec 4) : Word := o ++ d ++ low

/-- Format IO: `1011 oAAd dddd AAAA`. -/
def encodeIO (o : BitVec 5) (d : Reg) (a : BitVec 6) : Word := o ++ a.extractLsb' 4 2 ++ d ++ a.extractLsb' 0 4

/-- Format BR: `1111 0okk kkkk ksss`. -/
def encodeBR (o : BitVec 6) (b : BitVec 3) (k : BitVec 7) : Word := o ++ k ++ b

/-- Format K22, both words: `1001 010k kkkk 11ok`, then the low 16 address bits. -/
def encodeK22 (o : BitVec 3) (k : PcWord) : List Word :=
  [0b1001010#7 ++ k.extractLsb' 17 5 ++ o ++ k.extractLsb' 16 1, k.extractLsb' 0 16]

/-- The words of a well-formed instruction, from spec/opcode_table.json's encodings. -/
def encode (i : Instr) : List Word :=
  match i with
  | .add d r => [encodeRR 0b000011#6 d r]
  | .adc d r => [encodeRR 0b000111#6 d r]
  | .sub d r => [encodeRR 0b000110#6 d r]
  | .sbc d r => [encodeRR 0b000010#6 d r]
  | .cp d r => [encodeRR 0b000101#6 d r]
  | .cpc d r => [encodeRR 0b000001#6 d r]
  | .and d r => [encodeRR 0b001000#6 d r]
  | .or d r => [encodeRR 0b001010#6 d r]
  | .eor d r => [encodeRR 0b001001#6 d r]
  | .cpse d r => [encodeRR 0b000100#6 d r]
  | .subi d k => [encodeRK 0b0101#4 d k]
  | .sbci d k => [encodeRK 0b0100#4 d k]
  | .cpi d k => [encodeRK 0b0011#4 d k]
  | .ori d k => [encodeRK 0b0110#4 d k]
  | .ldi d k => [encodeRK 0b1110#4 d k]
  | .com d => [encodeR1 0b1001010#7 d 0b0000#4]
  | .rjmp k => [0b1100#4 ++ k]
  | .brbs b k => [encodeBR 0b111100#6 b k]
  | .brbc b k => [encodeBR 0b111101#6 b k]
  | .jmp k => encodeK22 0b110#3 k
  | .call k => encodeK22 0b111#3 k
  | .ret => [0b1001010100001000#16]
  | .push r => [encodeR1 0b1001001#7 r 0b1111#4]
  | .pop d => [encodeR1 0b1001000#7 d 0b1111#4]
  | .lds d k => [encodeR1 0b1001000#7 d 0b0000#4, k]
  | .sts k r => [encodeR1 0b1001001#7 r 0b0000#4, k]
  | .ldX d => [encodeR1 0b1001000#7 d 0b1100#4]
  | .ldXInc d => [encodeR1 0b1001000#7 d 0b1101#4]
  | .ldDecX d => [encodeR1 0b1001000#7 d 0b1110#4]
  | .ldY d => [encodeR1 0b1000000#7 d 0b1000#4]
  | .ldYInc d => [encodeR1 0b1001000#7 d 0b1001#4]
  | .ldDecY d => [encodeR1 0b1001000#7 d 0b1010#4]
  | .ldZ d => [encodeR1 0b1000000#7 d 0b0000#4]
  | .ldZInc d => [encodeR1 0b1001000#7 d 0b0001#4]
  | .ldDecZ d => [encodeR1 0b1001000#7 d 0b0010#4]
  | .stX r => [encodeR1 0b1001001#7 r 0b1100#4]
  | .stXInc r => [encodeR1 0b1001001#7 r 0b1101#4]
  | .stDecX r => [encodeR1 0b1001001#7 r 0b1110#4]
  | .stY r => [encodeR1 0b1000001#7 r 0b1000#4]
  | .stYInc r => [encodeR1 0b1001001#7 r 0b1001#4]
  | .stDecY r => [encodeR1 0b1001001#7 r 0b1010#4]
  | .stZ r => [encodeR1 0b1000001#7 r 0b0000#4]
  | .stZInc r => [encodeR1 0b1001001#7 r 0b0001#4]
  | .stDecZ r => [encodeR1 0b1001001#7 r 0b0010#4]
  | .lpmZ d => [encodeR1 0b1001000#7 d 0b0100#4]
  | .lpmZInc d => [encodeR1 0b1001000#7 d 0b0101#4]
  | .elpmZ d => [encodeR1 0b1001000#7 d 0b0110#4]
  | .elpmZInc d => [encodeR1 0b1001000#7 d 0b0111#4]
  | .inIo d a => [encodeIO 0b10110#5 d a]
  | .outIo a r => [encodeIO 0b10111#5 r a]

/-- The bytes Flash holds for words, low byte first (20_memory.md R74). -/
def wordBytes (ws : List Word) : List Byte :=
  match ws with
  | [] => []
  | w :: rest => w.extractLsb' 0 8 :: w.extractLsb' 8 8 :: wordBytes rest

end Sys2Proof
end

