-- ==== Sys2Proof/Config.lean ====
section
/-!
DEFINITION. What is fixed for one machine and chosen by no instruction: the parameters of 00_scope.md section 3,
and the free values, which the spec leaves open (00_scope.md R19, `draw()`).
-/

namespace Sys2Proof

/-- Parameter S_RULE: what the Sign flag is (00_scope.md R10, 41_alu.md R141). -/
inductive SRule where
  /-- S = H xor V, the default and normative value. -/
  | hXorV
  /-- S = N xor V, the alternative. -/
  | nXorV
deriving DecidableEq, Repr

/-- The parameters of the model (00_scope.md R25). No instruction reads `cycles`. -/
structure Params where
  /-- FLASH_WORDS, the Flash capacity in 16-bit words (00_scope.md R7). -/
  flashWords : Nat
  /-- DS_SIZE, the DataSpace capacity in bytes (00_scope.md R8). -/
  dsSize : Nat
  /-- S_RULE (00_scope.md R10). -/
  sRule : SRule
  /-- CYCLES (00_scope.md R11): the counts, in the order `Sys2Proof.Machine.cycleRow` numbers them. -/
  cycles : List Nat
deriving DecidableEq, Repr

/-- The ranges of the parameters: 1 <= FLASH_WORDS <= 2^22 (00_scope.md R7), 0x60 < DS_SIZE <= 0x10000 (R8), and
every count at least 1 (60_exceptions.md R311). -/
def Params.wf (p : Params) : Bool :=
  decide (1 ≤ p.flashWords) && decide (p.flashWords ≤ 2 ^ 22) &&
  decide (0x60 < p.dsSize) && decide (p.dsSize ≤ 0x10000) && p.cycles.all (fun n => decide (1 ≤ n))

namespace Config

/-- FREE VALUE. After the `n`-th load (the 0-th: before any), the byte at Flash byte address `b` where none is placed
(10_state.md R60, 60_exceptions.md R315, 93_implementation_defined.md U13 and U14). Log 2, log 23. -/
opaque flashByte : Nat → Nat → Byte

/-- FREE VALUE. The `n`-th byte drawn by an instruction whose result the spec leaves unspecified
(43_load_store_io.md R244). Log 5. -/
opaque freeByte : Nat → Byte

/-- FREE VALUE. The pc after a fault, for the `n`-th value drawn (60_exceptions.md R328). Log 4. -/
opaque pcAfterFault : Nat → PcWord

end Config
end Sys2Proof
end

