-- ==== Sys2Proof/Machine/Defaults.lean ====
section
/-!
DEFINITION. The values the open parameters have in State.reset (log 1 and log 11). No statement rests on the two
capacities or on the counts.
-/

namespace Sys2Proof.Machine

/-- The informative cycle table of 70_reset_and_hazards.md R362, in the order of `cycleRow`: the opcode table's 50
rows (CPSE's being its not-equal case, BRBS's and BRBC's their not-taken case), then BRBS taken and BRBC taken. -/
def defaultCycles : List Nat :=
  -- ADD ADC SUB SBC CP CPC AND OR EOR CPSE
  [1, 1, 1, 1, 1, 1, 1, 1, 1, 1] ++
  -- SUBI SBCI CPI ORI LDI COM
  [1, 1, 1, 1, 1, 1] ++
  -- RJMP BRBS BRBC JMP CALL RET PUSH POP LDS STS
  [2, 1, 1, 3, 5, 5, 2, 2, 2, 2] ++
  -- LD, nine forms
  [2, 2, 2, 2, 2, 2, 2, 2, 2] ++
  -- ST, nine forms
  [2, 2, 2, 2, 2, 2, 2, 2, 2] ++
  -- LPM, ELPM, IN, OUT
  [3, 3, 3, 3, 1, 1] ++
  -- BRBS taken, BRBC taken
  [2, 2]

/-- DESIGN CHOICE (log 1): the capacities of 95_test_vectors.md section 0; S_RULE and CYCLES are the spec's defaults
(00_scope.md R10, R11). -/
def defaultParams : Params :=
  { flashWords := 0x400, dsSize := 0x900, sRule := .hXorV, cycles := defaultCycles }

end Sys2Proof.Machine
end

