-- ==== Sys2Proof/Machine/State.lean ====
section
/-!
DEFINITION. The state of the core as plain data (10_state.md R54), the reasons a step can stop, and the state after
reset (10_state.md R62).
-/

namespace Sys2Proof.Machine

/-- Bytes by address: strictly rising addresses, and no entry equal to what an unlisted address reads as
(`Memory.wf`). -/
abbrev Memory := List Host.Cell

/-- The fault kinds (00_scope.md R23; codes 1 to 5 of 60_exceptions.md R300, in this order). -/
inductive FaultKind where
  | illegalInstruction
  | pcRange
  | dataRange
  | stackRange
  | flashRange
deriving DecidableEq, Repr

/-- The fault record (10_state.md R52). -/
structure FaultRecord where
  /-- The kind. -/
  kind : FaultKind
  /-- `a`: the word address of the faulting instruction's first word. -/
  addr : PcWord
  /-- `op`: the word fetched there, absent when the first fetch itself was out of range. -/
  op : Option Word
  /-- `x`: the info of the `raise`. -/
  info : Nat
deriving DecidableEq, Repr

/-- The machine. The registers, SREG, SP and RAMPZ are views of `ds` (10_state.md R31, R34, R39, R42). -/
structure State where
  /-- The parameters (00_scope.md R25); no operation writes them. -/
  cfg : Params
  /-- Flash, by byte address 2w + select (20_memory.md R74). -/
  flash : Memory
  /-- DataSpace (10_state.md R55). -/
  ds : Memory
  /-- The program counter, a word address (10_state.md R35). -/
  pc : PcWord
  /-- The fault record (10_state.md R52). -/
  fault : Option FaultRecord
  /-- CallStack, newest entry last (10_state.md R48). -/
  callStack : List PcWord
  /-- BreakpointSet, strictly rising (10_state.md R49). -/
  breakpoints : List PcWord
  /-- The executed-instruction count (60_exceptions.md R320). -/
  instrCount : Nat
  /-- The carry of `simulate` (60_exceptions.md R312). -/
  delayedCycles : Int
  /-- The model's own: how many loads Flash has had, which numbers its free bytes (log 23). -/
  loads : Nat
  /-- The model's own: how many free values have been drawn (log 5). -/
  draws : Nat
deriving DecidableEq, Repr

/-- Why a step stops. -/
inductive Fault where
  /-- Raised by `step` alone, on a Faulted core: `step()` does nothing until the host resets (60_exceptions.md R306).
  Safe: nothing is claimed of a machine that takes no step. -/
  | halted (r : FaultRecord)
deriving DecidableEq, Repr

/-- Why the model gives an instruction no meaning. -/
inductive Refusal where
  /-- Raised by an arm of `exec` whose instruction has no meaning yet. Safe: the model stops. -/
  | notModelled (mnemonic : String)
deriving DecidableEq, Repr

/-- The outcome of executing one instruction. -/
abbrev Result := Host.Outcome State Fault Refusal

/-- The machine right after the first reset of a newly constructed core (10_state.md R62 and R63): every DataSpace
byte 0, pc 0, no fault, CallStack empty; BreakpointSet empty and counters 0 from construction. Flash holds nothing a
load has placed (log 2). -/
def State.reset : State :=
  { cfg := defaultParams, flash := [], ds := [], pc := 0, fault := none, callStack := [], breakpoints := [],
    instrCount := 0, delayedCycles := 0, loads := 0, draws := 0 }

end Sys2Proof.Machine
end

