-- ==== Sys2Proof/Machine/Memory.lean ====
section
/-!
DEFINITION. Memory as a list of cells in one canonical form: reading, writing, and the form itself.
-/

namespace Sys2Proof.Machine

/-- The byte listed at `a`. -/
def Memory.get (m : Memory) (a : Nat) : Option Byte :=
  match m with
  | [] => none
  | c :: rest => if c.1 = a then some c.2 else Memory.get rest a

/-- The list with `v` at `a`: the entry replaced, or put in its place by address. -/
def Memory.put (m : Memory) (a : Nat) (v : Byte) : Memory :=
  match m with
  | [] => [(a, v)]
  | c :: rest =>
    if a < c.1 then (a, v) :: c :: rest
    else if a = c.1 then (a, v) :: rest
    else c :: Memory.put rest a v

/-- The list without any entry at `a`. -/
def Memory.erase (m : Memory) (a : Nat) : Memory :=
  match m with
  | [] => []
  | c :: rest => if c.1 = a then Memory.erase rest a else c :: Memory.erase rest a

/-- What an unlisted DataSpace byte reads as: reset zeroes DataSpace (70_reset_and_hazards.md R350). -/
def dsBlank : Byte := 0

/-- Reading a DataSpace byte. -/
def Memory.readDs (m : Memory) (a : Nat) : Byte := (Memory.get m a).getD dsBlank

/-- Writing a DataSpace byte; writing what an unlisted byte reads as removes the entry. -/
def Memory.writeDs (m : Memory) (a : Nat) (v : Byte) : Memory :=
  if v = dsBlank then Memory.erase m a else Memory.put m a v

/-- The list with only the entries whose address `keep` holds of. -/
def Memory.restrict (m : Memory) (keep : Nat → Bool) : Memory := m.filter (fun c => keep c.1)

/-- Reading a Flash byte after the `loads`-th load: a byte that is not placed is unspecified, a free value (10_state.md
R60, log 2). -/
def Memory.readFlash (m : Memory) (loads b : Nat) : Byte := (Memory.get m b).getD (Config.flashByte loads b)

/-- Strictly rising addresses. -/
def Memory.rising (m : Memory) : Bool :=
  match m with
  | [] => true
  | [_] => true
  | c :: d :: rest => decide (c.1 < d.1) && Memory.rising (d :: rest)

/-- The canonical form: strictly rising addresses below `size`, and no entry equal to `blank`, which is what an
unlisted address reads as (`none` for Flash, where it is no particular byte). -/
def Memory.wf (blank : Option Byte) (size : Nat) (m : Memory) : Bool :=
  Memory.rising m && m.all (fun c => decide (c.1 < size) && decide (some c.2 ≠ blank))

end Sys2Proof.Machine
end

