-- ==== Sys2Proof/Machine/Ops.lean ====
section
/-!
DEFINITION. The named operations over registers and memory (10_state.md, 20_memory.md), free values, and taking a
fault (60_exceptions.md R300).
-/

namespace Sys2Proof.Machine

/-! ### Fixed addresses (00_scope.md R12, 10_state.md R33; log 21) -/

/-- SREG_ADDR (10_state.md R34). -/
def sregAddr : Nat := 0x5F

/-- SPL_ADDR (10_state.md R39). -/
def splAddr : Nat := 0x5D

/-- SPH_ADDR (10_state.md R39). -/
def sphAddr : Nat := 0x5E

/-- RAMPZ_ADDR (10_state.md R42). -/
def rampzAddr : Nat := 0x5B

/-- The first byte of the I/O window (20_memory.md R71). -/
def ioBase : Nat := 0x20

/-- The first byte of SRAM (10_state.md R55). -/
def sramBase : Nat := 0x60

/-! ### Bytes and 16-bit values -/

/-- `hi : lo` (00_scope.md R13). -/
def joinBytes (hi lo : Byte) : Word := hi ++ lo

/-- `v[7:0]`. -/
def lowByte (v : Word) : Byte := v.extractLsb' 0 8

/-- `v[15:8]`. -/
def highByte (v : Word) : Byte := v.extractLsb' 8 8

/-! ### Plain updates -/

/-- The state with this pc. -/
def State.setPc (s : State) (p : PcWord) : State := { s with pc := p }

/-- `DS[a]`, with no check (00_scope.md R15). -/
def State.byteAt (s : State) (a : Nat) : Byte := Memory.readDs s.ds a

/-- `DS[a] <- v`, with no check. -/
def State.putByte (s : State) (a : Nat) (v : Byte) : State := { s with ds := Memory.writeDs s.ds a v }

/-- CallStack.append (42_control_flow.md R206). -/
def State.pushCall (s : State) (ra : PcWord) : State := { s with callStack := s.callStack ++ [ra] }

/-- CallStack.removeLast, which leaves an empty CallStack empty (10_state.md R48). -/
def State.popCall (s : State) : State := { s with callStack := s.callStack.dropLast }

/-- The state after `n` free values have been drawn (log 5). -/
def State.tick (s : State) (n : Nat) : State := { s with draws := s.draws + n }

/-- One more completed instruction (60_exceptions.md R311). -/
def State.count (s : State) : State := { s with instrCount := s.instrCount + 1 }

/-! ### Views of DataSpace -/

/-- `R[n]` (00_scope.md R14, 10_state.md R31). -/
def State.reg (s : State) (n : Reg) : Byte := s.byteAt n.toNat

/-- `R[n] <- v`. -/
def State.setReg (s : State) (n : Reg) (v : Byte) : State := s.putByte n.toNat v

/-- SREG (10_state.md R34). -/
def State.sreg (s : State) : Byte := s.byteAt sregAddr

/-- `SREG <- v`. -/
def State.setSreg (s : State) (v : Byte) : State := s.putByte sregAddr v

/-- SP (10_state.md R39). -/
def State.sp (s : State) : Word := joinBytes (s.byteAt sphAddr) (s.byteAt splAddr)

/-- `SP <- v` (10_state.md R39). -/
def State.setSp (s : State) (v : Word) : State :=
  (s.putByte splAddr (lowByte v)).putByte sphAddr (highByte v)

/-- RAMPZ (10_state.md R42). -/
def State.rampz (s : State) : Byte := s.byteAt rampzAddr

/-- `RAMPZ <- v`. -/
def State.setRampz (s : State) (v : Byte) : State := s.putByte rampzAddr v

/-! ### Raising a fault -/

/-- `raise Fault(kind, info)` (00_scope.md R19). -/
structure Raise where
  kind : FaultKind
  info : Nat
deriving DecidableEq, Repr

/-- TAKING A FAULT (60_exceptions.md R300, R326, R328): from the state before the instruction, nothing is committed,
the record is written with the pc of the first word and the word fetched there, and the pc becomes unspecified, a free
value (log 4). -/
def State.takeFault (s : State) (op : Option Word) (r : Raise) : State :=
  { s with
    fault := some { kind := r.kind, addr := s.pc, op := op, info := r.info }
    pc := Config.pcAfterFault s.draws
    draws := s.draws + 1 }

/-- LEAVING THE FAULTED STATE: the only way is the host's `reset()` (60_exceptions.md R327, 70_reset_and_hazards.md
R350). DataSpace is zeroed, pc is 0, the record and CallStack are emptied; Flash, BreakpointSet and the counters
stay. -/
def State.hostReset (s : State) : State := { s with ds := [], pc := 0, fault := none, callStack := [] }

/-! ### Flash -/

/-- `Flash[w]` (20_memory.md R74). -/
def State.flashWord (s : State) (w : Nat) : Word :=
  joinBytes (Memory.readFlash s.flash s.loads (2 * w + 1)) (Memory.readFlash s.flash s.loads (2 * w))

/-- `FlashFetch(w)` for a 22-bit word address (20_memory.md R79). -/
def State.flashFetch (s : State) (w : PcWord) : Except Raise Word :=
  if s.cfg.flashWords ≤ w.toNat then .error { kind := .pcRange, info := w.toNat } else .ok (s.flashWord w.toNat)

/-- `FlashByte(b)` (20_memory.md R80): the low byte of word b div 2 when b is even, the high byte when b is odd. -/
def State.flashByte (s : State) (b : Nat) : Except Raise Byte :=
  if 2 * s.cfg.flashWords ≤ b then .error { kind := .flashRange, info := b }
  else if b % 2 = 0 then .ok (lowByte (s.flashWord (b / 2)))
  else .ok (highByte (s.flashWord (b / 2)))

/-- Placing one byte in Flash at byte address `b`: the host's load only (60_exceptions.md R315). -/
def State.placeFlashByte (s : State) (b : Nat) (v : Byte) : State := { s with flash := Memory.put s.flash b v }

/-- The start of a load whose records cover the words `covered` holds of: every other word becomes unspecified, its bytes
free values of this load, and of a word that is covered each placed byte stays (60_exceptions.md R315; log 23). -/
def State.beginLoad (s : State) (covered : Nat → Bool) : State :=
  { s with flash := Memory.restrict s.flash (fun b => covered (b / 2)), loads := s.loads + 1 }

/-- Placing a word in Flash at word address `w`, low byte at the even byte address (20_memory.md R74). -/
def State.placeFlashWord (s : State) (w : Nat) (v : Word) : State :=
  (s.placeFlashByte (2 * w) (lowByte v)).placeFlashByte (2 * w + 1) (highByte v)

/-! ### DataSpace accesses -/

/-- `MemRead(a, 1)` (20_memory.md R76). -/
def State.memRead (s : State) (a : Word) : Except Raise Byte :=
  if s.cfg.dsSize ≤ a.toNat then .error { kind := .dataRange, info := a.toNat } else .ok (s.byteAt a.toNat)

/-- `MemWrite(a, 1, v)` (20_memory.md R77). -/
def State.memWrite (s : State) (a : Word) (v : Byte) : Except Raise State :=
  if s.cfg.dsSize ≤ a.toNat then .error { kind := .dataRange, info := a.toNat } else .ok (s.putByte a.toNat v)

/-- A stack byte address is in SRAM (20_memory.md R78). -/
def State.inSram (s : State) (a : Word) : Bool := decide (sramBase ≤ a.toNat) && decide (a.toNat < s.cfg.dsSize)

/-- `StackRead(a)` (20_memory.md R78). -/
def State.stackRead (s : State) (a : Word) : Except Raise Byte :=
  if s.inSram a then .ok (s.byteAt a.toNat) else .error { kind := .stackRange, info := a.toNat }

/-- `StackWrite(a, v)` (20_memory.md R78). -/
def State.stackWrite (s : State) (a : Word) (v : Byte) : Except Raise State :=
  if s.inSram a then .ok (s.putByte a.toNat v) else .error { kind := .stackRange, info := a.toNat }

/-! ### Ending an instruction -/

/-- The outcome of an instruction that began in `s`: its writes together, or the fault it met first with none of them
(00_scope.md R21, 60_exceptions.md R300, R309). The recorded word is the one at the pc, which is where fetch read it
(log 8). -/
def State.finish (s : State) (e : Except Raise State) : Result :=
  match e with
  | .ok t => .next t
  | .error r => .next (s.takeFault (some (s.flashWord s.pc.toNat)) r)

/-- The pc of the next instruction in sequence, `n` words on, modulo 2^22 (10_state.md R36, R38). -/
def State.advance (s : State) (n : PcWord) : State := s.setPc (s.pc + n)

end Sys2Proof.Machine
end

