-- ==== Sys2Proof/Machine/Flags.lean ====
section
/-!
DEFINITION. The flag logic (41_alu.md R140 to R144): results and flags of the additive, subtractive and logical
instructions.
-/

namespace Sys2Proof.Machine

/-- The six flags (10_state.md R34). -/
structure Flags where
  c : Bool
  z : Bool
  n : Bool
  v : Bool
  s : Bool
  h : Bool
deriving DecidableEq, Repr

/-- SREG.C. -/
def State.flagC (s : State) : Bool := s.sreg.getLsbD 0

/-- SREG.Z. -/
def State.flagZ (s : State) : Bool := s.sreg.getLsbD 1

/-- SREG.N. -/
def State.flagN (s : State) : Bool := s.sreg.getLsbD 2

/-- SREG.V. -/
def State.flagV (s : State) : Bool := s.sreg.getLsbD 3

/-- SREG.S. -/
def State.flagS (s : State) : Bool := s.sreg.getLsbD 4

/-- SREG.H. -/
def State.flagH (s : State) : Bool := s.sreg.getLsbD 5

/-- SREG[b], any of the eight bits (42_control_flow.md R210). -/
def State.sregBit (s : State) (b : BitVec 3) : Bool := s.sreg.getLsbD b.toNat

/-- The SREG byte with these six flags and bits 7 and 6 of `old` (10_state.md R44, R45). -/
def packFlags (old : Byte) (f : Flags) : Byte :=
  old.extractLsb' 6 2 ++ BitVec.ofBool f.h ++ BitVec.ofBool f.s ++ BitVec.ofBool f.v ++ BitVec.ofBool f.n ++
    BitVec.ofBool f.z ++ BitVec.ofBool f.c

/-- SREG with these flags; bits 6 and 7 stay. -/
def State.setFlags (s : State) (f : Flags) : State := s.setSreg (packFlags s.sreg f)

/-- Sflag(N, V, H) (41_alu.md R141). -/
def signFlag (rule : SRule) (n v h : Bool) : Bool :=
  match rule with
  | .hXorV => h ^^ v
  | .nXorV => n ^^ v

/-- A carry in, as a byte. -/
def carryByte (cin : Bool) : Byte := (BitVec.ofBool cin).zeroExtend 8

/-- The result of an addition (R142). -/
def addResult (d r : Byte) (cin : Bool) : Byte := d + r + carryByte cin

/-- AddFlags(d, r, cin) (R142). -/
def addFlags (rule : SRule) (d r : Byte) (cin : Bool) : Flags :=
  let res := addResult d r cin
  let d3 := d.getLsbD 3
  let r3 := r.getLsbD 3
  let R3 := res.getLsbD 3
  let d7 := d.getLsbD 7
  let r7 := r.getLsbD 7
  let R7 := res.getLsbD 7
  let h := (d3 && r3) || (r3 && !R3) || (!R3 && d3)
  let v := (d7 && r7 && !R7) || (!d7 && !r7 && R7)
  { c := (d7 && r7) || (r7 && !R7) || (!R7 && d7)
    z := res == 0
    n := R7
    v := v
    s := signFlag rule R7 v h
    h := h }

/-- The result of a subtraction (R143). -/
def subResult (d r : Byte) (cin : Bool) : Byte := d - r - carryByte cin

/-- SubFlags(d, r, cin, chain) (R143): `zKeep` is what the zero condition is ANDed with, `true` when Z is not chained
and Zold when it is. -/
def subFlags (rule : SRule) (d r : Byte) (cin zKeep : Bool) : Flags :=
  let res := subResult d r cin
  let d3 := d.getLsbD 3
  let r3 := r.getLsbD 3
  let R3 := res.getLsbD 3
  let d7 := d.getLsbD 7
  let r7 := r.getLsbD 7
  let R7 := res.getLsbD 7
  let h := (!d3 && r3) || (r3 && R3) || (R3 && !d3)
  let v := (d7 && !r7 && !R7) || (!d7 && r7 && R7)
  { c := (!d7 && r7) || (r7 && R7) || (R7 && !d7)
    z := (res == 0) && zKeep
    n := R7
    v := v
    s := signFlag rule R7 v h
    h := h }

/-- LogicFlags(res) (R144): S, N and Z written, V and H as SREG holds them, and C as `c` says, which is the old C for
AND, OR, EOR and ORI (R144) and 1 for COM (R159). -/
def logicFlags (rule : SRule) (s : State) (res : Byte) (c : Bool) : Flags :=
  { c := c
    z := res == 0
    n := res.getLsbD 7
    v := s.flagV
    s := signFlag rule (res.getLsbD 7) s.flagV s.flagH
    h := s.flagH }

end Sys2Proof.Machine
end

