-- ==== Sys2Proof/Machine/Alu.lean ====
section
/-!
DEFINITION. The ALU instructions (41_alu.md R146 to R159).
-/

namespace Sys2Proof.Machine

/-- An ALU instruction's end: Rd, the flags, pc = a+1 (41_alu.md R140). -/
def State.aluWrite (s : State) (d : Reg) (res : Byte) (f : Flags) : State :=
  ((s.setReg d res).setFlags f).advance 1

/-- A compare's end: the flags and pc = a+1, no register (41_alu.md R152). -/
def State.aluCompare (s : State) (f : Flags) : State := (s.setFlags f).advance 1

/-- ADD and ADC over AddFlags (R142). -/
def State.additive (s : State) (d : Reg) (r : Byte) (cin : Bool) : State :=
  s.aluWrite d (addResult (s.reg d) r cin) (addFlags s.cfg.sRule (s.reg d) r cin)

/-- SUB, SBC, SUBI and SBCI over SubFlags (R143). -/
def State.subtractive (s : State) (d : Reg) (r : Byte) (cin zKeep : Bool) : State :=
  s.aluWrite d (subResult (s.reg d) r cin) (subFlags s.cfg.sRule (s.reg d) r cin zKeep)

/-- CP, CPC and CPI over SubFlags (R143), the result discarded. -/
def State.compare (s : State) (d : Reg) (r : Byte) (cin zKeep : Bool) : State :=
  s.aluCompare (subFlags s.cfg.sRule (s.reg d) r cin zKeep)

/-- AND, OR, EOR, ORI and COM over LogicFlags (R144); `c` is what C ends as. -/
def State.logical (s : State) (d : Reg) (res : Byte) (c : Bool) : State :=
  s.aluWrite d res (logicFlags s.cfg.sRule s res c)

/-- ADD (R146). -/
def execAdd (d r : Reg) (s : State) : Result := .next (s.additive d (s.reg r) false)

/-- ADC (R147). -/
def execAdc (d r : Reg) (s : State) : Result := .next (s.additive d (s.reg r) s.flagC)

/-- SUB (R148). -/
def execSub (d r : Reg) (s : State) : Result := .next (s.subtractive d (s.reg r) false true)

/-- SBC (R149): Z chained. -/
def execSbc (d r : Reg) (s : State) : Result := .next (s.subtractive d (s.reg r) s.flagC s.flagZ)

/-- SUBI (R150). -/
def execSubi (d : Reg) (k : Byte) (s : State) : Result := .next (s.subtractive d k false true)

/-- SBCI (R151): Z chained. -/
def execSbci (d : Reg) (k : Byte) (s : State) : Result := .next (s.subtractive d k s.flagC s.flagZ)

/-- CP (R152). -/
def execCp (d r : Reg) (s : State) : Result := .next (s.compare d (s.reg r) false true)

/-- CPC (R153): Z chained. -/
def execCpc (d r : Reg) (s : State) : Result := .next (s.compare d (s.reg r) s.flagC s.flagZ)

/-- CPI (R154): Z not chained. -/
def execCpi (d : Reg) (k : Byte) (s : State) : Result := .next (s.compare d k false true)

/-- AND (R155). -/
def execAnd (d r : Reg) (s : State) : Result := .next (s.logical d (s.reg d &&& s.reg r) s.flagC)

/-- OR (R156). -/
def execOr (d r : Reg) (s : State) : Result := .next (s.logical d (s.reg d ||| s.reg r) s.flagC)

/-- EOR (R157). -/
def execEor (d r : Reg) (s : State) : Result := .next (s.logical d (s.reg d ^^^ s.reg r) s.flagC)

/-- ORI (R158). -/
def execOri (d : Reg) (k : Byte) (s : State) : Result := .next (s.logical d (s.reg d ||| k) s.flagC)

/-- COM (R159): C set to 1. -/
def execCom (d : Reg) (s : State) : Result := .next (s.logical d (0xFF - s.reg d) true)

end Sys2Proof.Machine
end

