-- ==== Sys2Proof/Machine/Operands.lean ====
section
/-!
DEFINITION. Operand forms: the pointer registers and their modes (43_load_store_io.md R243, R244), I/O addresses,
relative targets, skip widths.
-/

namespace Sys2Proof.Machine

/-- The pointer registers (10_state.md R33). -/
inductive Ptr where
  | x
  | y
  | z
deriving DecidableEq, Repr

/-- The pointer addressing modes (43_load_store_io.md R243). -/
inductive PtrMode where
  | plain
  | postInc
  | preDec
deriving DecidableEq, Repr

/-- The register that holds a pointer's low byte: r26, r28, r30 (10_state.md R33). -/
def ptrLow (p : Ptr) : Reg :=
  match p with
  | .x => 26
  | .y => 28
  | .z => 30

/-- The register that holds a pointer's high byte: r27, r29, r31 (10_state.md R33). -/
def ptrHigh (p : Ptr) : Reg :=
  match p with
  | .x => 27
  | .y => 29
  | .z => 31

/-- A register is one of the pointer's two. -/
def ptrHas (p : Ptr) (n : Reg) : Bool := n == ptrLow p || n == ptrHigh p

/-- An address is that of one of the pointer's two registers. -/
def ptrHasAddr (p : Ptr) (a : Word) : Bool := a.toNat == (ptrLow p).toNat || a.toNat == (ptrHigh p).toNat

/-- The pointer's value (10_state.md R33). -/
def State.ptr (s : State) (p : Ptr) : Word := joinBytes (s.reg (ptrHigh p)) (s.reg (ptrLow p))

/-- `P <- v` (10_state.md R33). -/
def State.setPtr (s : State) (p : Ptr) (v : Word) : State :=
  (s.setReg (ptrLow p) (lowByte v)).setReg (ptrHigh p) (highByte v)

/-- Both registers of the pointer end with free values (43_load_store_io.md R244, log 5). -/
def State.drawPtr (s : State) (p : Ptr) : State :=
  ((s.setReg (ptrLow p) (Config.freeByte s.draws)).setReg (ptrHigh p) (Config.freeByte (s.draws + 1))).tick 2

/-- The effective address, from the pointer's old value (R243). -/
def effAddr (m : PtrMode) (p : Word) : Word :=
  match m with
  | .plain => p
  | .postInc => p
  | .preDec => p - 1

/-- The value written back, from the pointer's old value, modulo 2^16 (R243); the plain mode writes none back. -/
def nextPtr (m : PtrMode) (p : Word) : Word :=
  match m with
  | .plain => p
  | .postInc => p + 1
  | .preDec => p - 1

/-- The mode writes the pointer back (R243). -/
def writesBack (m : PtrMode) : Bool :=
  match m with
  | .plain => false
  | .postInc => true
  | .preDec => true

/-- The DataSpace address of I/O address `a` (20_memory.md R71). -/
def ioAddr (a : BitVec 6) : Nat := ioBase + a.toNat

/-- The target of a relative transfer at the pc, for a displacement field of `n` bits (42_control_flow.md R201). -/
def relTarget {n : Nat} (s : State) (k : BitVec n) : PcWord := s.pc + 1 + k.signExtend 22

/-- SkipWords (42_control_flow.md R208), on a raw word. -/
def skipWords (w : Word) : PcWord := if twoWord w then 2 else 1

/-- The ELPM byte address RAMPZ:Z, 24 bits (43_load_store_io.md R265). -/
def State.rampzZ (s : State) : BitVec 24 := s.rampz ++ s.ptr .z

end Sys2Proof.Machine
end

