-- ==== Sys2Proof/Machine/Control.lean ====
section
/-!
DEFINITION. Control flow and stack instructions (42_control_flow.md R200 to R213).
-/

namespace Sys2Proof.Machine

/-- RJMP (R202). -/
def execRjmp (k : BitVec 12) (s : State) : Result := .next (s.setPc (relTarget s k))

/-- JMP (R203). -/
def execJmp (k : PcWord) (s : State) : Result := .next (s.setPc k)

/-- The call frame (R204): the three bytes of a return address, low byte first, downward from SP; then SP - 3. -/
def State.pushFrame (s : State) (ra : PcWord) : Except Raise State :=
  match s.stackWrite s.sp (ra.extractLsb' 0 8) with
  | .error r => .error r
  | .ok s1 =>
    match s1.stackWrite (s.sp - 1) (ra.extractLsb' 8 8) with
    | .error r => .error r
    | .ok s2 =>
      match s2.stackWrite (s.sp - 2) ((ra.extractLsb' 16 6).zeroExtend 8) with
      | .error r => .error r
      | .ok s3 => .ok (s3.setSp (s.sp - 3))

/-- The call frame read back (R207): the popped address, bits 7:6 of the high byte discarded. -/
def State.readFrame (s : State) : Except Raise PcWord :=
  match s.stackRead (s.sp + 1) with
  | .error r => .error r
  | .ok hi =>
    match s.stackRead (s.sp + 2) with
    | .error r => .error r
    | .ok mid =>
      match s.stackRead (s.sp + 3) with
      | .error r => .error r
      | .ok lo => .ok (hi.extractLsb' 0 6 ++ mid ++ lo)

/-- CALL's effect (R206); the return address is a+2. -/
def State.callTo (s : State) (k : PcWord) : Except Raise State :=
  match s.pushFrame (s.pc + 2) with
  | .error r => .error r
  | .ok t => .ok ((t.pushCall (s.pc + 2)).setPc k)

/-- CALL (R206). -/
def execCall (k : PcWord) (s : State) : Result := s.finish (s.callTo k)

/-- RET's effect (R207). -/
def State.returnFrom (s : State) : Except Raise State :=
  match s.readFrame with
  | .error r => .error r
  | .ok target => .ok (((s.setSp (s.sp + 3)).popCall).setPc target)

/-- RET (R207). -/
def execRet (s : State) : Result := s.finish s.returnFrom

/-- CPSE's effect (R209): the next word, at the incremented pc, is read only when the registers are equal. -/
def State.skipIfEqual (s : State) (d r : Reg) : Except Raise State :=
  if s.reg d = s.reg r then
    match s.flashFetch (s.pc + 1) with
    | .error e => .error e
    | .ok w => .ok (s.setPc (s.pc + 1 + skipWords w))
  else .ok (s.advance 1)

/-- CPSE (R209). -/
def execCpse (d r : Reg) (s : State) : Result := s.finish (s.skipIfEqual d r)

/-- A conditional branch (R201): to the target when `taken`, else a+1. -/
def State.branchIf (s : State) (taken : Bool) (k : BitVec 7) : State :=
  if taken then s.setPc (relTarget s k) else s.advance 1

/-- BRBS (R210). -/
def execBrbs (b : BitVec 3) (k : BitVec 7) (s : State) : Result := .next (s.branchIf (s.sregBit b) k)

/-- BRBC (R211). -/
def execBrbc (b : BitVec 3) (k : BitVec 7) (s : State) : Result := .next (s.branchIf (!s.sregBit b) k)

/-- PUSH's effect (R212): store at SP, then SP - 1. -/
def State.pushByte (s : State) (v : Byte) : Except Raise State :=
  match s.stackWrite s.sp v with
  | .error r => .error r
  | .ok t => .ok ((t.setSp (s.sp - 1)).advance 1)

/-- PUSH (R212). -/
def execPush (r : Reg) (s : State) : Result := s.finish (s.pushByte (s.reg r))

/-- POP's effect (R213): read at SP + 1, then SP + 1. -/
def State.popByte (s : State) (d : Reg) : Except Raise State :=
  match s.stackRead (s.sp + 1) with
  | .error r => .error r
  | .ok b => .ok (((s.setReg d b).setSp (s.sp + 1)).advance 1)

/-- POP (R213). -/
def execPop (d : Reg) (s : State) : Result := s.finish (s.popByte d)

end Sys2Proof.Machine
end

