-- ==== Sys2Proof/Machine/InOut.lean ====
section
/-!
DEFINITION. I/O instructions (43_load_store_io.md R267, R268). Both are always in range, so neither checks.
-/

namespace Sys2Proof.Machine

/-- IN (R267). -/
def execIn (d : Reg) (a : BitVec 6) (s : State) : Result := .next ((s.setReg d (s.byteAt (ioAddr a))).advance 1)

/-- OUT (R268): a write to the SREG address replaces the whole byte. -/
def execOut (a : BitVec 6) (r : Reg) (s : State) : Result := .next ((s.putByte (ioAddr a) (s.reg r)).advance 1)

end Sys2Proof.Machine
end

