-- ==== Sys2Proof/Machine/LoadStore.lean ====
section
/-!
DEFINITION. Register load and data memory instructions (43_load_store_io.md R240 to R262).
-/

namespace Sys2Proof.Machine

/-- LDI (R240). -/
def execLdi (d : Reg) (k : Byte) (s : State) : Result := .next ((s.setReg d k).advance 1)

/-- LDS's effect (R241). -/
def State.loadDirect (s : State) (d : Reg) (k : Word) : Except Raise State :=
  match s.memRead k with
  | .error r => .error r
  | .ok b => .ok ((s.setReg d b).advance 2)

/-- LDS (R241). -/
def execLds (d : Reg) (k : Word) (s : State) : Result := s.finish (s.loadDirect d k)

/-- STS's effect (R242). -/
def State.storeDirect (s : State) (k : Word) (r : Reg) : Except Raise State :=
  match s.memWrite k (s.reg r) with
  | .error e => .error e
  | .ok t => .ok (t.advance 2)

/-- STS (R242). -/
def execSts (k : Word) (r : Reg) (s : State) : Result := s.finish (s.storeDirect k r)

/-- LD's effect in every mode (R243): the access at EA with the old pointer, then the write-back. In a write-back mode
with Rd one of the pointer's registers both registers end with free values (R244). -/
def State.loadIndirect (s : State) (p : Ptr) (m : PtrMode) (d : Reg) : Except Raise State :=
  match s.memRead (effAddr m (s.ptr p)) with
  | .error r => .error r
  | .ok b =>
    if writesBack m then
      if ptrHas p d then .ok ((s.drawPtr p).advance 1)
      else .ok (((s.setReg d b).setPtr p (nextPtr m (s.ptr p))).advance 1)
    else .ok ((s.setReg d b).advance 1)

/-- The byte ST stores, and the state that has drawn it: a free value in a write-back mode with Rr one of the pointer's
registers (R244), else Rr's. -/
def State.storedByte (s : State) (p : Ptr) (m : PtrMode) (r : Reg) : Byte × State :=
  if writesBack m && ptrHas p r then (Config.freeByte s.draws, s.tick 1) else (s.reg r, s)

/-- ST's effect in every mode (R243). In a write-back mode with EA the address of one of the pointer's registers both
registers end with free values (R244). -/
def State.storeIndirect (s : State) (p : Ptr) (m : PtrMode) (r : Reg) : Except Raise State :=
  let ea := effAddr m (s.ptr p)
  match (s.storedByte p m r).2.memWrite ea (s.storedByte p m r).1 with
  | .error e => .error e
  | .ok t =>
    if writesBack m then
      if ptrHasAddr p ea then .ok ((t.drawPtr p).advance 1)
      else .ok ((t.setPtr p (nextPtr m (s.ptr p))).advance 1)
    else .ok (t.advance 1)

/-- LD Rd, X (R245). -/
def execLdX (d : Reg) (s : State) : Result := s.finish (s.loadIndirect .x .plain d)

/-- LD Rd, X+ (R246). -/
def execLdXInc (d : Reg) (s : State) : Result := s.finish (s.loadIndirect .x .postInc d)

/-- LD Rd, -X (R247). -/
def execLdDecX (d : Reg) (s : State) : Result := s.finish (s.loadIndirect .x .preDec d)

/-- LD Rd, Y (R248). -/
def execLdY (d : Reg) (s : State) : Result := s.finish (s.loadIndirect .y .plain d)

/-- LD Rd, Y+ (R249). -/
def execLdYInc (d : Reg) (s : State) : Result := s.finish (s.loadIndirect .y .postInc d)

/-- LD Rd, -Y (R250). -/
def execLdDecY (d : Reg) (s : State) : Result := s.finish (s.loadIndirect .y .preDec d)

/-- LD Rd, Z (R251). -/
def execLdZ (d : Reg) (s : State) : Result := s.finish (s.loadIndirect .z .plain d)

/-- LD Rd, Z+ (R252). -/
def execLdZInc (d : Reg) (s : State) : Result := s.finish (s.loadIndirect .z .postInc d)

/-- LD Rd, -Z (R253). -/
def execLdDecZ (d : Reg) (s : State) : Result := s.finish (s.loadIndirect .z .preDec d)

/-- ST X, Rr (R254). -/
def execStX (r : Reg) (s : State) : Result := s.finish (s.storeIndirect .x .plain r)

/-- ST X+, Rr (R255). -/
def execStXInc (r : Reg) (s : State) : Result := s.finish (s.storeIndirect .x .postInc r)

/-- ST -X, Rr (R256). -/
def execStDecX (r : Reg) (s : State) : Result := s.finish (s.storeIndirect .x .preDec r)

/-- ST Y, Rr (R257). -/
def execStY (r : Reg) (s : State) : Result := s.finish (s.storeIndirect .y .plain r)

/-- ST Y+, Rr (R258). -/
def execStYInc (r : Reg) (s : State) : Result := s.finish (s.storeIndirect .y .postInc r)

/-- ST -Y, Rr (R259). -/
def execStDecY (r : Reg) (s : State) : Result := s.finish (s.storeIndirect .y .preDec r)

/-- ST Z, Rr (R260). -/
def execStZ (r : Reg) (s : State) : Result := s.finish (s.storeIndirect .z .plain r)

/-- ST Z+, Rr (R261). -/
def execStZInc (r : Reg) (s : State) : Result := s.finish (s.storeIndirect .z .postInc r)

/-- ST -Z, Rr (R262). -/
def execStDecZ (r : Reg) (s : State) : Result := s.finish (s.storeIndirect .z .preDec r)

end Sys2Proof.Machine
end

