-- ==== Sys2Proof/Machine/ProgramMemory.lean ====
section
/-!
DEFINITION. Program-memory reads (43_load_store_io.md R263 to R266).
-/

namespace Sys2Proof.Machine

/-- LPM's effect (R263, R264): the Flash byte at Z; RAMPZ is not used. With write-back, Z + 1 modulo 2^16, or free
values in both registers of Z when Rd is one of them (R244). -/
def State.loadProgram (s : State) (inc : Bool) (d : Reg) : Except Raise State :=
  match s.flashByte (s.ptr .z).toNat with
  | .error r => .error r
  | .ok b =>
    if inc then
      if ptrHas .z d then .ok ((s.drawPtr .z).advance 1)
      else .ok (((s.setReg d b).setPtr .z (s.ptr .z + 1)).advance 1)
    else .ok ((s.setReg d b).advance 1)

/-- `RAMPZ <- v[23:16]; Z <- v[15:0]` (R266). -/
def State.setRampzZ (s : State) (v : BitVec 24) : State :=
  (s.setRampz (v.extractLsb' 16 8)).setPtr .z (v.extractLsb' 0 16)

/-- Both registers of Z, and RAMPZ, end with free values (R244). -/
def State.drawRampzZ (s : State) : State :=
  ((s.drawPtr .z).setRampz (Config.freeByte (s.draws + 2))).tick 1

/-- ELPM's effect (R265, R266): the Flash byte at RAMPZ:Z. With write-back, RAMPZ:Z + 1 modulo 2^24, or free values in
RAMPZ and both registers of Z when Rd is one of them (R244). -/
def State.loadProgramExt (s : State) (inc : Bool) (d : Reg) : Except Raise State :=
  match s.flashByte s.rampzZ.toNat with
  | .error r => .error r
  | .ok b =>
    if inc then
      if ptrHas .z d then .ok (s.drawRampzZ.advance 1)
      else .ok (((s.setReg d b).setRampzZ (s.rampzZ + 1)).advance 1)
    else .ok ((s.setReg d b).advance 1)

/-- LPM Rd, Z (R263). -/
def execLpmZ (d : Reg) (s : State) : Result := s.finish (s.loadProgram false d)

/-- LPM Rd, Z+ (R264). -/
def execLpmZInc (d : Reg) (s : State) : Result := s.finish (s.loadProgram true d)

/-- ELPM Rd, Z (R265). -/
def execElpmZ (d : Reg) (s : State) : Result := s.finish (s.loadProgramExt false d)

/-- ELPM Rd, Z+ (R266). -/
def execElpmZInc (d : Reg) (s : State) : Result := s.finish (s.loadProgramExt true d)

end Sys2Proof.Machine
end

