-- ==== Sys2Proof/Machine/Dispatch.lean ====
section
/-!
DEFINITION. Each instruction to its meaning, one arm per constructor of Instr. In an arm's state the pc is the address
of the instruction's first word; the meaning itself moves it past the instruction's words (10_state.md R36, log 9).
-/

namespace Sys2Proof.Machine

/-- Executing one instruction at the pc (the part of 20_memory.md R81 after fetch and dispatch). -/
def exec (i : Instr) (s : State) : Host.Outcome State Fault Refusal :=
  match i with
  | .add d r => Sys2Proof.Machine.execAdd d r s
  | .adc d r => Sys2Proof.Machine.execAdc d r s
  | .sub d r => Sys2Proof.Machine.execSub d r s
  | .sbc d r => Sys2Proof.Machine.execSbc d r s
  | .cp d r => Sys2Proof.Machine.execCp d r s
  | .cpc d r => Sys2Proof.Machine.execCpc d r s
  | .and d r => Sys2Proof.Machine.execAnd d r s
  | .or d r => Sys2Proof.Machine.execOr d r s
  | .eor d r => Sys2Proof.Machine.execEor d r s
  | .cpse d r => Sys2Proof.Machine.execCpse d r s
  | .subi d k => Sys2Proof.Machine.execSubi d k s
  | .sbci d k => Sys2Proof.Machine.execSbci d k s
  | .cpi d k => Sys2Proof.Machine.execCpi d k s
  | .ori d k => Sys2Proof.Machine.execOri d k s
  | .ldi d k => Sys2Proof.Machine.execLdi d k s
  | .com d => Sys2Proof.Machine.execCom d s
  | .rjmp k => Sys2Proof.Machine.execRjmp k s
  | .brbs b k => Sys2Proof.Machine.execBrbs b k s
  | .brbc b k => Sys2Proof.Machine.execBrbc b k s
  | .jmp k => Sys2Proof.Machine.execJmp k s
  | .call k => Sys2Proof.Machine.execCall k s
  | .ret => Sys2Proof.Machine.execRet s
  | .push r => Sys2Proof.Machine.execPush r s
  | .pop d => Sys2Proof.Machine.execPop d s
  | .lds d k => Sys2Proof.Machine.execLds d k s
  | .sts k r => Sys2Proof.Machine.execSts k r s
  | .ldX d => Sys2Proof.Machine.execLdX d s
  | .ldXInc d => Sys2Proof.Machine.execLdXInc d s
  | .ldDecX d => Sys2Proof.Machine.execLdDecX d s
  | .ldY d => Sys2Proof.Machine.execLdY d s
  | .ldYInc d => Sys2Proof.Machine.execLdYInc d s
  | .ldDecY d => Sys2Proof.Machine.execLdDecY d s
  | .ldZ d => Sys2Proof.Machine.execLdZ d s
  | .ldZInc d => Sys2Proof.Machine.execLdZInc d s
  | .ldDecZ d => Sys2Proof.Machine.execLdDecZ d s
  | .stX r => Sys2Proof.Machine.execStX r s
  | .stXInc r => Sys2Proof.Machine.execStXInc r s
  | .stDecX r => Sys2Proof.Machine.execStDecX r s
  | .stY r => Sys2Proof.Machine.execStY r s
  | .stYInc r => Sys2Proof.Machine.execStYInc r s
  | .stDecY r => Sys2Proof.Machine.execStDecY r s
  | .stZ r => Sys2Proof.Machine.execStZ r s
  | .stZInc r => Sys2Proof.Machine.execStZInc r s
  | .stDecZ r => Sys2Proof.Machine.execStDecZ r s
  | .lpmZ d => Sys2Proof.Machine.execLpmZ d s
  | .lpmZInc d => Sys2Proof.Machine.execLpmZInc d s
  | .elpmZ d => Sys2Proof.Machine.execElpmZ d s
  | .elpmZInc d => Sys2Proof.Machine.execElpmZInc d s
  | .inIo d a => Sys2Proof.Machine.execIn d a s
  | .outIo a r => Sys2Proof.Machine.execOut a r s

end Sys2Proof.Machine
end

