-- ==== Sys2Proof/Machine/Fetch.lean ====
section
/-!
DEFINITION. Instruction fetch (20_memory.md R81), and placing an instruction where the next fetch reads it.
-/

namespace Sys2Proof.Machine

/-- What fetch meets when it yields no instruction: the word read at the pc, absent when that fetch itself was out of
range (10_state.md R52), and the fault. -/
structure FetchFault where
  op : Option Word
  raise : Raise
deriving DecidableEq, Repr

/-- The dispatcher's answer as fetch takes it: a word with no entry raises IllegalInstruction, its info the opcode
(60_exceptions.md R301). -/
def dispatchWords (op w2 : Word) : Except FetchFault Instr :=
  match decode op w2 with
  | .ok i => .ok i
  | .error _ => .error { op := some op, raise := { kind := .illegalInstruction, info := op.toNat } }

/-- Fetch and dispatch at the pc (R81), the faults in the order of 60_exceptions.md R309. The second word is read only
where TwoWord holds, which no illegal word does (30_encoding.md R115), at the incremented pc, modulo 2^22 (10_state.md
R36, R38). -/
def fetch (s : State) : Except FetchFault Instr :=
  match s.flashFetch s.pc with
  | .error r => .error { op := none, raise := r }
  | .ok op =>
    if twoWord op then
      match s.flashFetch (s.pc + 1) with
      | .error r => .error { op := some op, raise := r }
      | .ok w2 => dispatchWords op w2
    else dispatchWords op 0

/-- After an instruction: the instruction counter counts it unless it faulted (60_exceptions.md R311). -/
def State.retire (s : State) : State := if s.fault.isSome then s else s.count

/-- The count after an outcome; a stop passes through. -/
def retireOutcome (o : Result) : Result :=
  match o with
  | .next t => .next t.retire
  | .fault r => .fault r
  | .refused r => .refused r

/-- One step of a core that is not Faulted: fetch, then execute, or take the fault fetch met. -/
def runOne (s : State) : Result :=
  match fetch s with
  | .ok i => retireOutcome (exec i s)
  | .error f => .next (s.takeFault f.op f.raise)

/-- The state with the two words of the bits `w` (bit 0 the least significant bit of the first word, bits from `nbits`
up 0) in Flash at the pc and after it, and no fault record, so that the next step runs them (log 17). -/
def placeAtPc (s : State) (nbits w : Nat) : State :=
  let v := w % 2 ^ nbits
  let t := s.placeFlashWord s.pc.toNat (BitVec.ofNat 16 v)
  { t.placeFlashWord (s.pc + 1).toNat (BitVec.ofNat 16 (v / 0x10000)) with fault := none }

end Sys2Proof.Machine
end

