-- ==== Sys2Proof/Machine/Step.lean ====
section
/-!
DEFINITION. One step of the machine (60_exceptions.md R306, R311; 20_memory.md R81).
-/

namespace Sys2Proof.Machine

/-- A Faulted core takes no step (60_exceptions.md R306); any other fetches and executes one instruction. -/
def step (s : State) : Host.Outcome State Fault Refusal :=
  match s.fault with
  | some r => .fault (.halted r)
  | none => runOne s

/-- `s` with an instruction, numbered as spec/opcode_table.json numbers its bits, where `step` fetches next. -/
def State.withFetchWord (s : State) (nbits w : Nat) : State := placeAtPc s nbits w

end Sys2Proof.Machine
end

