-- ==== Sys2Proof/Machine/Hex.lean ====
section
/-!
DEFINITION. The host's program load: the Intel-HEX records and their effect on Flash (60_exceptions.md R315 to R319;
log 15, log 16).
-/

namespace Sys2Proof.Machine

/-- Why a load fails (60_exceptions.md R317, R319). -/
inductive LoadError where
  /-- The file is missing or empty. -/
  | emptyFile
  /-- A record is not of the form of R316 and R318. -/
  | malformed
  /-- A record type other than 0x00 and 0x01 (R317). -/
  | unsupportedType (tt : Nat)
  /-- A data byte outside what the load can reach: past 16 bits of address (R316), or past Flash (R317). -/
  | beyondCapacity (b : Nat)
deriving DecidableEq, Repr

/-- A data record: the byte address of its first byte, and its bytes. -/
structure DataRecord where
  addr : Nat
  bytes : List Byte
deriving DecidableEq, Repr

/-- The value of a hex digit; capital letters only (log 15). -/
def hexDigit (c : Char) : Option Nat :=
  if '0' ≤ c ∧ c ≤ '9' then some (c.toNat - '0'.toNat)
  else if 'A' ≤ c ∧ c ≤ 'F' then some (c.toNat - 'A'.toNat + 10)
  else none

/-- One byte of two hex digits at the cursor, and the text after it. -/
def hexByte (text : List Char) : Option (Nat × List Char) :=
  match text with
  | c1 :: c2 :: rest =>
    match hexDigit c1, hexDigit c2 with
    | some h, some l => some (16 * h + l, rest)
    | _, _ => none
  | _ => none

/-- `n` bytes at the cursor, and the text after them. -/
def hexBytes (n : Nat) (text : List Char) : Option (List Nat × List Char) :=
  match n with
  | 0 => some ([], text)
  | k + 1 =>
    match hexByte text with
    | none => none
    | some (v, rest) =>
      match hexBytes k rest with
      | none => none
      | some (vs, rest2) => some (v :: vs, rest2)

/-- One record, its fields as R316 lists them. -/
structure RawRecord where
  addr : Nat
  kind : Nat
  payload : List Nat
deriving DecidableEq, Repr

/-- The record at the cursor, `:LLAAAATT[DD..]CC` and CR LF, and the text after it, 2 x LL + 13 characters on (R316,
R318). The checksum's value is not looked at (R316). -/
def parseRecord (text : List Char) : Option (RawRecord × List Char) :=
  match text with
  | ':' :: t0 =>
    match hexBytes 4 t0 with
    | some ([ll, ah, al, tt], t1) =>
      match hexBytes ll t1 with
      | some (payload, t2) =>
        match hexByte t2 with
        | some (_, '\r' :: '\n' :: t3) => some ({ addr := 256 * ah + al, kind := tt, payload := payload }, t3)
        | _ => none
      | none => none
    | _ => none
  | _ => none

/-- The data records up to the end-of-file record (R317); text after it is not read. The fuel bounds the number of
records, and the text's length is enough of it, since a record takes at least 13 characters. -/
def parseRecords (fuel : Nat) (text : List Char) : Except LoadError (List DataRecord) :=
  match fuel with
  | 0 => .error .malformed
  | k + 1 =>
    match parseRecord text with
    | none => .error .malformed
    | some (r, rest) =>
      if r.kind = 0x01 then .ok []
      else if r.kind = 0x00 then
        match parseRecords k rest with
        | .error e => .error e
        | .ok rs => .ok ({ addr := r.addr, bytes := r.payload.map (BitVec.ofNat 8) } :: rs)
      else .error (.unsupportedType r.kind)

/-- The bytes of a record in Flash, from byte address `b` up (R315). -/
def placeBytes (s : State) (b : Nat) (bytes : List Byte) : Except LoadError State :=
  match bytes with
  | [] => .ok s
  | v :: rest =>
    if b < 2 * s.cfg.flashWords ∧ b < 0x10000 then placeBytes (s.placeFlashByte b v) (b + 1) rest
    else .error (.beyondCapacity b)

/-- A record places a byte in word `w`. -/
def recordCovers (r : DataRecord) (w : Nat) : Bool :=
  decide (r.bytes ≠ []) && decide (r.addr < 2 * w + 2) && decide (2 * w < r.addr + r.bytes.length)

/-- The records in Flash, in order. -/
def placeRecords (s : State) (rs : List DataRecord) : Except LoadError State :=
  match rs with
  | [] => .ok s
  | r :: rest =>
    match placeBytes s r.addr r.bytes with
    | .error e => .error e
    | .ok t => placeRecords t rest

/-- `loadProgram(image)` (R310, R315, R319): true with the state whose Flash the image has been placed in, or false,
after which Flash is unspecified and no launch may follow, so there is no state (log 16). -/
def hostLoadProgram (s : State) (image : List Char) : Except LoadError State :=
  if image = [] then .error .emptyFile
  else
    match parseRecords image.length image with
    | .error e => .error e
    | .ok rs => placeRecords (s.beginLoad (fun w => rs.any (fun r => recordCovers r w))) rs

end Sys2Proof.Machine
end

