-- ==== Sys2Proof/Machine/Timing.lean ====
section
/-!
DEFINITION. The cycle count `step()` returns (00_scope.md R11, 42_control_flow.md R209, 70_reset_and_hazards.md R361 to
R364): a number for the host; no instruction reads it.
-/

namespace Sys2Proof.Machine

/-- The place of an instruction's count in `Params.cycles`: its row in spec/opcode_table.json, from 0. -/
def cycleRow (i : Instr) : Nat :=
  match i with
  | .add _ _ => 0
  | .adc _ _ => 1
  | .sub _ _ => 2
  | .sbc _ _ => 3
  | .cp _ _ => 4
  | .cpc _ _ => 5
  | .and _ _ => 6
  | .or _ _ => 7
  | .eor _ _ => 8
  | .cpse _ _ => 9
  | .subi _ _ => 10
  | .sbci _ _ => 11
  | .cpi _ _ => 12
  | .ori _ _ => 13
  | .ldi _ _ => 14
  | .com _ => 15
  | .rjmp _ => 16
  | .brbs _ _ => 17
  | .brbc _ _ => 18
  | .jmp _ => 19
  | .call _ => 20
  | .ret => 21
  | .push _ => 22
  | .pop _ => 23
  | .lds _ _ => 24
  | .sts _ _ => 25
  | .ldX _ => 26
  | .ldXInc _ => 27
  | .ldDecX _ => 28
  | .ldY _ => 29
  | .ldYInc _ => 30
  | .ldDecY _ => 31
  | .ldZ _ => 32
  | .ldZInc _ => 33
  | .ldDecZ _ => 34
  | .stX _ => 35
  | .stXInc _ => 36
  | .stDecX _ => 37
  | .stY _ => 38
  | .stYInc _ => 39
  | .stDecY _ => 40
  | .stZ _ => 41
  | .stZInc _ => 42
  | .stDecZ _ => 43
  | .lpmZ _ => 44
  | .lpmZInc _ => 45
  | .elpmZ _ => 46
  | .elpmZInc _ => 47
  | .inIo _ _ => 48
  | .outIo _ _ => 49

/-- The place of BRBS's count when it is taken. -/
def brbsTakenRow : Nat := 50

/-- The place of BRBC's count when it is taken. -/
def brbcTakenRow : Nat := 51

/-- A count of the parameter CYCLES; a place the list does not reach counts 1, the least R311 allows (log 11). -/
def countAt (s : State) (row : Nat) : Nat := s.cfg.cycles.getD row 1

/-- CYCLES(instruction, outcome) for an instruction that completes from `s`. CPSE with equal registers takes what
70_reset_and_hazards.md R363 fixes: 2 cycles over one word, 3 over two. -/
def cycleCount (i : Instr) (s : State) : Nat :=
  match i with
  | .cpse d r =>
    if s.reg d = s.reg r then
      if twoWord (s.flashWord (s.pc + 1).toNat) then 3 else 2
    else countAt s (cycleRow i)
  | .brbs b _ => countAt s (if s.sregBit b then brbsTakenRow else cycleRow i)
  | .brbc b _ => countAt s (if s.sregBit b then cycleRow i else brbcTakenRow)
  | _ => countAt s (cycleRow i)

end Sys2Proof.Machine
end

