-- ==== Sys2Proof/Machine/Session.lean ====
section
/-!
DEFINITION. The host's operations on the core (60_exceptions.md R310 to R314, R322; 10_state.md R63), all between steps.
`reset()` is `State.hostReset` (Machine/Ops.lean) and `loadProgram` is `hostLoadProgram` (Machine/Hex.lean).
-/

namespace Sys2Proof.Machine

/-- A core at construction, before the first reset (10_state.md R63): pc 0, no fault, BreakpointSet and CallStack
empty, counters 0; what Flash and DataSpace hold is not specified, so both are arguments (log 20). -/
def construct (cfg : Params) (flash ds : Memory) : State :=
  { cfg := cfg, flash := flash, ds := ds, pc := 0, fault := none, callStack := [], breakpoints := [], instrCount := 0,
    delayedCycles := 0, loads := 0, draws := 0 }

/-- The cycles of an instruction that completes from `s`: what fetch yields there. -/
def cyclesHere (s : State) : Nat :=
  match fetch s with
  | .ok i => cycleCount i s
  | .error _ => 0

/-- `step()` (60_exceptions.md R311): the state after it and the cycles it returns, 0 for a failure. On a Faulted core
it changes nothing and returns 0 (R306). -/
def hostStep (s : State) : State × Nat :=
  match step s with
  | .next t => (t, if t.fault.isSome then 0 else cyclesHere s)
  | .fault _ => (s, 0)
  | .refused _ => (s, 0)

/-- `run()` (R313), at most `fuel` steps of it: `none` when it has not returned by then, as a run that meets neither a
breakpoint nor a fault never does (R329, log 14). -/
def hostRun (fuel : Nat) (s : State) (total : Nat) : Option (State × Nat) :=
  match fuel with
  | 0 => none
  | k + 1 =>
    let r := hostStep s
    if r.2 = 0 then some (r.1, total)
    else if r.1.pc ∈ r.1.breakpoints then some (r.1, total + r.2)
    else hostRun k r.1 (total + r.2)

/-- The loop of `simulate` (R312). A step that returns at all takes at least one cycle, so as many turns as the budget
has cycles are enough. -/
def simulateLoop (fuel : Nat) (s : State) (budget : Int) : State × Bool :=
  if budget ≤ 0 then ({ s with delayedCycles := budget }, true)
  else
    match fuel with
    | 0 => ({ s with delayedCycles := budget }, true)
    | k + 1 =>
      let r := hostStep s
      if r.2 = 0 then ({ r.1 with delayedCycles := 0 }, false)
      else simulateLoop k r.1 (budget - r.2)

/-- `simulate(cycles)` (R312, log 18). -/
def hostSimulate (s : State) (cycles : Nat) : State × Bool :=
  simulateLoop ((cycles : Int) + s.delayedCycles).toNat s ((cycles : Int) + s.delayedCycles)

/-- A value put in its place in a rising list, or the list as it is when it holds the value. -/
def insertRising (p : PcWord) (bs : List PcWord) : List PcWord :=
  match bs with
  | [] => [p]
  | b :: rest => if p < b then p :: b :: rest else if p = b then b :: rest else b :: insertRising p rest

/-- `setBreakpoint(p)` (R314). -/
def hostSetBreakpoint (s : State) (p : PcWord) : State := { s with breakpoints := insertRising p s.breakpoints }

/-- `removeBreakpoint(p)` (R314). -/
def hostRemoveBreakpoint (s : State) (p : PcWord) : State := { s with breakpoints := s.breakpoints.filter (· ≠ p) }

/-- The addresses of [first, last] clamped to [0, size) (R322): those of the range that exist. The model's choice (log 22):
a range wholly outside gives none, not the last address, and so does one whose ends are in the wrong order. -/
def clampRange (size first last : Nat) : List Nat := (List.range size).filter (fun a => first ≤ a ∧ a ≤ last)

/-- What `showMemory(first, last)` reports (R322). -/
def showMemory (s : State) (first last : Nat) : List (Nat × Byte) :=
  (clampRange s.cfg.dsSize first last).map (fun a => (a, s.byteAt a))

/-- What `showAssembly(first, last)` reports, as decoded instructions rather than text, none for an illegal word
(R322; log 22). A two-word instruction's second word is the word after it, modulo 2^22 as fetch has it. -/
def showAssembly (s : State) (first last : Nat) : List (Nat × Option Instr) :=
  (clampRange s.cfg.flashWords first last).map (fun w =>
    (w, match decode (s.flashWord w) (s.flashWord ((w + 1) % 2 ^ 22)) with
      | .ok i => some i
      | .error _ => none))

/-- What `showExecutionStatus()` reports: pc and instrCount (R322). -/
def showExecutionStatus (s : State) : PcWord × Nat := (s.pc, s.instrCount)

end Sys2Proof.Machine
end

