-- ==== Sys2Proof/Safety.lean ====
section
/-!
DEFINITION. What statements are made of: the invariant of the machine, what an instruction leaves alone, what it is to
have taken a fault, and the spec's own tables that statements compare the machine with.
-/

namespace Sys2Proof.Safety

open Sys2Proof.Machine

/-! ### The invariant -/

/-- Strictly rising, so without repeats: a set of pc values. -/
def risingPcs (bs : List PcWord) : Bool :=
  match bs with
  | [] => true
  | [_] => true
  | b :: c :: rest => decide (b < c) && risingPcs (c :: rest)

/-- The invariant: parameters in their ranges (00_scope.md R7, R8), DataSpace and Flash canonical and inside their
capacities (10_state.md R55, R60), BreakpointSet a set (R49), the carry at most 0 (60_exceptions.md R312). -/
def MachineInv (s : State) : Prop :=
  s.cfg.wf = true ∧ Memory.wf (some dsBlank) s.cfg.dsSize s.ds = true ∧
  Memory.wf none (2 * s.cfg.flashWords) s.flash = true ∧ risingPcs s.breakpoints = true ∧ s.delayedCycles ≤ 0

/-- A state that takes steps: no fault is recorded. -/
def Running (s : State) : Prop := s.fault = none

/-! ### Frames -/

/-- What no instruction writes (00_scope.md R25, 10_state.md R49, R61; 60_exceptions.md R320): the parameters, Flash
(its placed bytes and what numbers its free ones), BreakpointSet and the carry of `simulate`. -/
structure HostPartKept (s t : State) : Prop where
  cfg : t.cfg = s.cfg
  flash : t.flash = s.flash
  loads : t.loads = s.loads
  breakpoints : t.breakpoints = s.breakpoints
  delayedCycles : t.delayedCycles = s.delayedCycles

/-- An instruction completed and left alone every DataSpace byte whose address is not in `written`, everything of
`HostPartKept`, the fault record and the instruction counter (`step` counts, not the instruction); CallStack is
`calls`. Registers, SREG, SP and RAMPZ are DataSpace bytes, so this is the frame of all of them. It does not speak of
the pc, nor of the model's own count of free values. -/
structure FrameCalls (s t : State) (written : List Nat) (calls : List PcWord) : Prop where
  bytes : ∀ a : Nat, a ∉ written → t.byteAt a = s.byteAt a
  host : HostPartKept s t
  fault : t.fault = s.fault
  instrCount : t.instrCount = s.instrCount
  callStack : t.callStack = calls

/-- As `FrameCalls`, CallStack left alone. -/
def Frame (s t : State) (written : List Nat) : Prop := FrameCalls s t written s.callStack

/-- `t` is `s` after taking the fault of kind `k` with info `x`, having fetched `op` (60_exceptions.md R300, R326,
R328): the record, and nothing of the instruction. It does not speak of the pc, which is unspecified. -/
structure Faulted (s t : State) (k : FaultKind) (op : Option Word) (x : Nat) : Prop where
  record : t.fault = some { kind := k, addr := s.pc, op := op, info := x }
  ds : t.ds = s.ds
  host : HostPartKept s t
  callStack : t.callStack = s.callStack
  instrCount : t.instrCount = s.instrCount

/-- The word fetch reads at the pc. -/
def fetchedWord (s : State) : Word := s.flashWord s.pc.toNat

/-- Executing `i` completes in a state that `P` holds of. -/
def Completes (i : Instr) (s : State) (P : State → Prop) : Prop := ∃ t, exec i s = .next t ∧ P t

/-- Executing `i` takes the fault of kind `k` with info `x`. -/
def Traps (i : Instr) (s : State) (k : FaultKind) (x : Nat) : Prop :=
  ∃ t, exec i s = .next t ∧ Faulted s t k (some (fetchedWord s)) x

/-- Executing instructions one after another, each where the last one left the pc. -/
def execAll (is : List Instr) (s : State) : Result :=
  match is with
  | [] => .next s
  | i :: rest =>
    match exec i s with
    | .next t => execAll rest t
    | .fault f => .fault f
    | .refused r => .refused r

/-- PUSH and POP pairs of one register each, one after another and inside one another (42_control_flow.md R214). -/
inductive Nesting where
  /-- Nothing. -/
  | empty
  /-- PUSH r, then `inner`, then POP r, then `rest`. -/
  | pair (r : Reg) (inner rest : Nesting)
deriving DecidableEq, Repr

/-- The instructions of a nesting. -/
def Nesting.code (n : Nesting) : List Instr :=
  match n with
  | .empty => []
  | .pair r inner rest => Instr.push r :: (inner.code ++ Instr.pop r :: rest.code)

/-- How many bytes of stack a nesting uses. -/
def Nesting.depth (n : Nesting) : Nat :=
  match n with
  | .empty => 0
  | .pair _ inner rest => max (inner.depth + 1) rest.depth

/-- The register the last PUSH that stores `k` bytes below the first stack byte pushes, if one stores there. -/
def Nesting.lastPushed (n : Nesting) (k : Nat) : Option Reg :=
  match n with
  | .empty => none
  | .pair r inner rest =>
    match rest.lastPushed k with
    | some q => some q
    | none =>
      match k with
      | 0 => some r
      | j + 1 => inner.lastPushed j

/-- The byte an image's data records put at byte address `b`: that of the last record that has one there
(60_exceptions.md R315). -/
def imageByte (rs : List DataRecord) (b : Nat) : Option Byte :=
  match rs with
  | [] => none
  | r :: rest =>
    match imageByte rest b with
    | some v => some v
    | none => if r.addr ≤ b then r.bytes[b - r.addr]? else none

/-- `k` completing steps of the host one after another (60_exceptions.md R311): where they end, and the cycles they
return in total; nothing where one of them returns 0. -/
def hostSteps (k : Nat) (s : State) : Option (State × Nat) :=
  match k with
  | 0 => some (s, 0)
  | j + 1 =>
    if (hostStep s).2 = 0 then none
    else
      match hostSteps j (hostStep s).1 with
      | none => none
      | some r => some (r.1, (hostStep s).2 + r.2)

/-- The byte of Flash at byte address `b`: the low byte of word b div 2 when b is even, the high byte when b is odd
(20_memory.md R74). -/
def flashByteAt (s : State) (b : Nat) : Nat :=
  if b % 2 = 0 then (s.flashWord (b / 2)).toNat % 256 else (s.flashWord (b / 2)).toNat / 256

/-! ### Encodings -/

/-- Field d5: op[8:4] (30_encoding.md R104). -/
def atD5 (d : Reg) (op : Word) : Bool := decide (d.toNat = op.toNat / 16 % 32)

/-- Field r5: op[9] : op[3:0] (R105). -/
def atR5 (r : Reg) (op : Word) : Bool := decide (r.toNat = op.toNat / 512 % 2 * 16 + op.toNat % 16)

/-- Field d4: 16 + op[7:4] (R106). -/
def atD4 (d : Reg) (op : Word) : Bool := decide (d.toNat = 16 + op.toNat / 16 % 16)

/-- Field K8: op[11:8] : op[3:0] (R107). -/
def atK8 (k : Byte) (op : Word) : Bool := decide (k.toNat = op.toNat / 256 % 16 * 16 + op.toNat % 16)

/-- Field A6: op[10:9] : op[3:0] (R108). -/
def atA6 (a : BitVec 6) (op : Word) : Bool := decide (a.toNat = op.toNat / 512 % 4 * 16 + op.toNat % 16)

/-- Fields s3, op[2:0], and k7, op[9:3] (R109). -/
def atBR (b : BitVec 3) (k : BitVec 7) (op : Word) : Bool :=
  decide (b.toNat = op.toNat % 8) && decide (k.toNat = op.toNat / 8 % 128)

/-- Field k22: op[8:4] : op[0] : w2 (R109). -/
def atK22 (k : PcWord) (op w2 : Word) : Bool :=
  decide (k.toNat = op.toNat / 16 % 32 * 0x20000 + op.toNat % 2 * 0x10000 + w2.toNat)

/-- Each operand of `i` is the field of the words `op`, `w2` that 30_encoding.md R104 to R109 name for it. -/
def operandsAt (i : Instr) (op w2 : Word) : Bool :=
  match i with
  | .add d r => atD5 d op && atR5 r op
  | .adc d r => atD5 d op && atR5 r op
  | .sub d r => atD5 d op && atR5 r op
  | .sbc d r => atD5 d op && atR5 r op
  | .cp d r => atD5 d op && atR5 r op
  | .cpc d r => atD5 d op && atR5 r op
  | .and d r => atD5 d op && atR5 r op
  | .or d r => atD5 d op && atR5 r op
  | .eor d r => atD5 d op && atR5 r op
  | .cpse d r => atD5 d op && atR5 r op
  | .subi d k => atD4 d op && atK8 k op
  | .sbci d k => atD4 d op && atK8 k op
  | .cpi d k => atD4 d op && atK8 k op
  | .ori d k => atD4 d op && atK8 k op
  | .ldi d k => atD4 d op && atK8 k op
  | .com d => atD5 d op
  | .rjmp k => decide (k.toNat = op.toNat % 0x1000)
  | .brbs b k => atBR b k op
  | .brbc b k => atBR b k op
  | .jmp k => atK22 k op w2
  | .call k => atK22 k op w2
  | .ret => true
  | .push d => atD5 d op
  | .pop d => atD5 d op
  | .lds d k => atD5 d op && decide (k = w2)
  | .sts k r => atD5 r op && decide (k = w2)
  | .ldX d => atD5 d op
  | .ldXInc d => atD5 d op
  | .ldDecX d => atD5 d op
  | .ldY d => atD5 d op
  | .ldYInc d => atD5 d op
  | .ldDecY d => atD5 d op
  | .ldZ d => atD5 d op
  | .ldZInc d => atD5 d op
  | .ldDecZ d => atD5 d op
  | .stX d => atD5 d op
  | .stXInc d => atD5 d op
  | .stDecX d => atD5 d op
  | .stY d => atD5 d op
  | .stYInc d => atD5 d op
  | .stDecY d => atD5 d op
  | .stZ d => atD5 d op
  | .stZInc d => atD5 d op
  | .stDecZ d => atD5 d op
  | .lpmZ d => atD5 d op
  | .lpmZInc d => atD5 d op
  | .elpmZ d => atD5 d op
  | .elpmZInc d => atD5 d op
  | .inIo d a => atD5 d op && atA6 a op
  | .outIo a r => atD5 r op && atA6 a op

/-- `i` has the encoding of one row of the opcode table: `n` words, the first with `pat` under `mask`, two words just
when TwoWord says so, every operand in its field, and these words decode to `i`. -/
structure HasRow (i : Instr) (mask pat : Word) (n : Nat) : Prop where
  length : (encode i).length = n
  fixed : (encode i).getD 0 0 &&& mask = pat
  two : twoWord ((encode i).getD 0 0) = decide (n = 2)
  operands : operandsAt i ((encode i).getD 0 0) ((encode i).getD 1 0) = true
  read : decode ((encode i).getD 0 0) ((encode i).getD 1 0) = .ok i

/-- A first word with `pat` under `mask` whose second word lies outside Flash raises PcRange at that word's fetch, its
info the address a+1, a pc and so modulo 2^22 (20_memory.md R79, R81, 60_exceptions.md R302, 10_state.md R38). -/
def SecondWordTraps (mask pat : Word) : Prop :=
  ∀ s : State, Running s → s.pc.toNat < s.cfg.flashWords → s.cfg.flashWords ≤ (s.pc + 1).toNat →
    fetchedWord s &&& mask = pat →
    ∃ t, step s = .next t ∧ Faulted s t .pcRange (some (fetchedWord s)) (s.pc + 1).toNat

/-- (mask, match) of the 50 rows of spec/opcode_table.json, in its order. -/
def tableRows : List (Word × Word) :=
  [(0xFC00, 0x0C00), (0xFC00, 0x1C00), (0xFC00, 0x1800), (0xFC00, 0x0800), (0xFC00, 0x1400), (0xFC00, 0x0400),
   (0xFC00, 0x2000), (0xFC00, 0x2800), (0xFC00, 0x2400), (0xFC00, 0x1000)] ++
  [(0xF000, 0x5000), (0xF000, 0x4000), (0xF000, 0x3000), (0xF000, 0x6000), (0xF000, 0xE000), (0xFE0F, 0x9400),
   (0xF000, 0xC000), (0xFC00, 0xF000), (0xFC00, 0xF400), (0xFE0E, 0x940C), (0xFE0E, 0x940E), (0xFFFF, 0x9508)] ++
  [(0xFE0F, 0x920F), (0xFE0F, 0x900F), (0xFE0F, 0x9000), (0xFE0F, 0x9200)] ++
  [(0xFE0F, 0x900C), (0xFE0F, 0x900D), (0xFE0F, 0x900E), (0xFE0F, 0x8008), (0xFE0F, 0x9009), (0xFE0F, 0x900A),
   (0xFE0F, 0x8000), (0xFE0F, 0x9001), (0xFE0F, 0x9002)] ++
  [(0xFE0F, 0x920C), (0xFE0F, 0x920D), (0xFE0F, 0x920E), (0xFE0F, 0x8208), (0xFE0F, 0x9209), (0xFE0F, 0x920A),
   (0xFE0F, 0x8200), (0xFE0F, 0x9201), (0xFE0F, 0x9202)] ++
  [(0xFE0F, 0x9004), (0xFE0F, 0x9005), (0xFE0F, 0x9006), (0xFE0F, 0x9007), (0xF800, 0xB000), (0xF800, 0xB800)]

/-- A word has a row's fixed bits. -/
def rowMatches (op : Word) (row : Word × Word) : Bool := op &&& row.1 == row.2

/-- The nine LD forms (43_load_store_io.md R245 to R253), by pointer and mode. -/
def ldForm (p : Ptr) (m : PtrMode) (d : Reg) : Instr :=
  match p, m with
  | .x, .plain => .ldX d
  | .x, .postInc => .ldXInc d
  | .x, .preDec => .ldDecX d
  | .y, .plain => .ldY d
  | .y, .postInc => .ldYInc d
  | .y, .preDec => .ldDecY d
  | .z, .plain => .ldZ d
  | .z, .postInc => .ldZInc d
  | .z, .preDec => .ldDecZ d

/-- The nine ST forms (43_load_store_io.md R254 to R262), by pointer and mode. -/
def stForm (p : Ptr) (m : PtrMode) (r : Reg) : Instr :=
  match p, m with
  | .x, .plain => .stX r
  | .x, .postInc => .stXInc r
  | .x, .preDec => .stDecX r
  | .y, .plain => .stY r
  | .y, .postInc => .stYInc r
  | .y, .preDec => .stDecY r
  | .z, .plain => .stZ r
  | .z, .postInc => .stZInc r
  | .z, .preDec => .stDecZ r

/-- The match patterns of the nine LD rows, all under mask 0xFE0F (30_encoding.md R112, R113). -/
def ldPattern (p : Ptr) (m : PtrMode) : Word :=
  match p, m with
  | .x, .plain => 0x900C
  | .x, .postInc => 0x900D
  | .x, .preDec => 0x900E
  | .y, .plain => 0x8008
  | .y, .postInc => 0x9009
  | .y, .preDec => 0x900A
  | .z, .plain => 0x8000
  | .z, .postInc => 0x9001
  | .z, .preDec => 0x9002

/-- The match patterns of the nine ST rows, all under mask 0xFE0F (30_encoding.md R112, R113). -/
def stPattern (p : Ptr) (m : PtrMode) : Word :=
  match p, m with
  | .x, .plain => 0x920C
  | .x, .postInc => 0x920D
  | .x, .preDec => 0x920E
  | .y, .plain => 0x8208
  | .y, .postInc => 0x9209
  | .y, .preDec => 0x920A
  | .z, .plain => 0x8200
  | .z, .postInc => 0x9201
  | .z, .preDec => 0x9202

/-- The addresses of a pointer's two registers (10_state.md R33). -/
def ptrAddrs (p : Ptr) : List Nat :=
  match p with
  | .x => [26, 27]
  | .y => [28, 29]
  | .z => [30, 31]

/-! ### Flags -/

/-- A bit as a byte: 0 or 1. -/
def bitByte (b : Bool) : Byte := if b then 1 else 0

/-- S is what S_RULE makes of the N, V and H that SREG holds after the instruction (41_alu.md R141), and SREG bits 6 and
7 are as before (10_state.md R44, R45). -/
structure SignAndUpper (s t : State) : Prop where
  sign : t.flagS = match s.cfg.sRule with
    | .hXorV => t.flagH ^^ t.flagV
    | .nXorV => t.flagN ^^ t.flagV
  bit6 : t.sreg.getLsbD 6 = s.sreg.getLsbD 6
  bit7 : t.sreg.getLsbD 7 = s.sreg.getLsbD 7

/-- The flags AddFlags gives for operands `d`, `r` and result `res` (41_alu.md R142). -/
structure AddFlagsSet (s t : State) (d r res : Byte) : Prop where
  h : t.flagH = ((d.getLsbD 3 && r.getLsbD 3) || (r.getLsbD 3 && !res.getLsbD 3) || (!res.getLsbD 3 && d.getLsbD 3))
  v : t.flagV = ((d.getLsbD 7 && r.getLsbD 7 && !res.getLsbD 7) || (!d.getLsbD 7 && !r.getLsbD 7 && res.getLsbD 7))
  n : t.flagN = res.getLsbD 7
  z : t.flagZ = decide (res = 0)
  c : t.flagC = ((d.getLsbD 7 && r.getLsbD 7) || (r.getLsbD 7 && !res.getLsbD 7) || (!res.getLsbD 7 && d.getLsbD 7))
  rest : SignAndUpper s t

/-- The flags SubFlags gives for operands `d`, `r` and result `res`, Z chained to the old Z when `chain`
(41_alu.md R143). -/
structure SubFlagsSet (s t : State) (d r res : Byte) (chain : Bool) : Prop where
  h : t.flagH = ((!d.getLsbD 3 && r.getLsbD 3) || (r.getLsbD 3 && res.getLsbD 3) || (res.getLsbD 3 && !d.getLsbD 3))
  v : t.flagV = ((d.getLsbD 7 && !r.getLsbD 7 && !res.getLsbD 7) || (!d.getLsbD 7 && r.getLsbD 7 && res.getLsbD 7))
  n : t.flagN = res.getLsbD 7
  z : t.flagZ = (decide (res = 0) && (!chain || s.flagZ))
  c : t.flagC = ((!d.getLsbD 7 && r.getLsbD 7) || (r.getLsbD 7 && res.getLsbD 7) || (res.getLsbD 7 && !d.getLsbD 7))
  rest : SignAndUpper s t

/-- The flags LogicFlags gives for result `res` (41_alu.md R144), C ending as `c`. -/
structure LogicFlagsSet (s t : State) (res : Byte) (c : Bool) : Prop where
  n : t.flagN = res.getLsbD 7
  z : t.flagZ = decide (res = 0)
  c : t.flagC = c
  v : t.flagV = s.flagV
  h : t.flagH = s.flagH
  rest : SignAndUpper s t

/-- The end of an additive instruction (41_alu.md R140, R142). -/
structure AddDone (d : Reg) (r : Byte) (cin : Bool) (s t : State) : Prop where
  result : t.reg d = s.reg d + r + bitByte cin
  flags : AddFlagsSet s t (s.reg d) r (s.reg d + r + bitByte cin)
  pc : t.pc = s.pc + 1
  frame : Frame s t [d.toNat, 0x5F]

/-- The end of a subtractive instruction that writes its register (41_alu.md R140, R143). -/
structure SubDone (d : Reg) (r : Byte) (cin chain : Bool) (s t : State) : Prop where
  result : t.reg d = s.reg d - r - bitByte cin
  flags : SubFlagsSet s t (s.reg d) r (s.reg d - r - bitByte cin) chain
  pc : t.pc = s.pc + 1
  frame : Frame s t [d.toNat, 0x5F]

/-- The end of a compare: flags only (41_alu.md R143, R152). -/
structure CompareDone (d : Reg) (r : Byte) (cin chain : Bool) (s t : State) : Prop where
  flags : SubFlagsSet s t (s.reg d) r (s.reg d - r - bitByte cin) chain
  pc : t.pc = s.pc + 1
  frame : Frame s t [0x5F]

/-- The end of a logical instruction (41_alu.md R140, R144). -/
structure LogicDone (d : Reg) (res : Byte) (c : Bool) (s t : State) : Prop where
  result : t.reg d = res
  flags : LogicFlagsSet s t res c
  pc : t.pc = s.pc + 1
  frame : Frame s t [d.toNat, 0x5F]

/-! ### Whole-machine rules -/

/-- Two states that differ at most in what 10_state.md R54 calls host bookkeeping, read by no instruction, and in the
cycle counts (00_scope.md R11). -/
structure SameCore (s t : State) : Prop where
  flashWords : t.cfg.flashWords = s.cfg.flashWords
  dsSize : t.cfg.dsSize = s.cfg.dsSize
  sRule : t.cfg.sRule = s.cfg.sRule
  flash : t.flash = s.flash
  loads : t.loads = s.loads
  ds : t.ds = s.ds
  pc : t.pc = s.pc
  fault : t.fault = s.fault
  draws : t.draws = s.draws

/-- CallStack after an instruction that completes from `s` (10_state.md R48). -/
def callsAfter (i : Instr) (s : State) : List PcWord :=
  match i with
  | .call _ => s.callStack ++ [s.pc + 2]
  | .ret => s.callStack.dropLast
  | _ => s.callStack

/-- The fault kinds an instruction's execution can raise (60_exceptions.md R300, R302 to R305). -/
def canRaise (i : Instr) (k : FaultKind) : Bool :=
  match i with
  | .cpse _ _ => k == .pcRange
  | .lds _ _ => k == .dataRange
  | .sts _ _ => k == .dataRange
  | .ldX _ => k == .dataRange
  | .ldXInc _ => k == .dataRange
  | .ldDecX _ => k == .dataRange
  | .ldY _ => k == .dataRange
  | .ldYInc _ => k == .dataRange
  | .ldDecY _ => k == .dataRange
  | .ldZ _ => k == .dataRange
  | .ldZInc _ => k == .dataRange
  | .ldDecZ _ => k == .dataRange
  | .stX _ => k == .dataRange
  | .stXInc _ => k == .dataRange
  | .stDecX _ => k == .dataRange
  | .stY _ => k == .dataRange
  | .stYInc _ => k == .dataRange
  | .stDecY _ => k == .dataRange
  | .stZ _ => k == .dataRange
  | .stZInc _ => k == .dataRange
  | .stDecZ _ => k == .dataRange
  | .push _ => k == .stackRange
  | .pop _ => k == .stackRange
  | .call _ => k == .stackRange
  | .ret => k == .stackRange
  | .lpmZ _ => k == .flashRange
  | .lpmZInc _ => k == .flashRange
  | .elpmZ _ => k == .flashRange
  | .elpmZInc _ => k == .flashRange
  | _ => false

/-- How an instruction may write SREG (10_state.md R43, R45): not at all, as flags, or as a data byte. -/
inductive SregUse where
  | untouched
  | flagsOnly
  | dataByte
deriving DecidableEq, Repr

/-- The table of 10_state.md R43, by instruction. -/
def sregUse (i : Instr) : SregUse :=
  match i with
  | .add _ _ => .flagsOnly
  | .adc _ _ => .flagsOnly
  | .sub _ _ => .flagsOnly
  | .sbc _ _ => .flagsOnly
  | .cp _ _ => .flagsOnly
  | .cpc _ _ => .flagsOnly
  | .and _ _ => .flagsOnly
  | .or _ _ => .flagsOnly
  | .eor _ _ => .flagsOnly
  | .subi _ _ => .flagsOnly
  | .sbci _ _ => .flagsOnly
  | .cpi _ _ => .flagsOnly
  | .ori _ _ => .flagsOnly
  | .com _ => .flagsOnly
  | .sts _ _ => .dataByte
  | .stX _ => .dataByte
  | .stXInc _ => .dataByte
  | .stDecX _ => .dataByte
  | .stY _ => .dataByte
  | .stYInc _ => .dataByte
  | .stDecY _ => .dataByte
  | .stZ _ => .dataByte
  | .stZInc _ => .dataByte
  | .stDecZ _ => .dataByte
  | .outIo _ _ => .dataByte
  | _ => .untouched

/-- The pc after an instruction that completes from `s`, as 10_state.md R36 lists it; `a` there is `s.pc`. For RET it
is the 22-bit value of the three bytes above SP (42_control_flow.md R207), for CPSE the next instruction's width is
that of the word after it (R208). -/
def pcAfter (i : Instr) (s : State) : PcWord :=
  match i with
  | .lds _ _ => s.pc + 2
  | .sts _ _ => s.pc + 2
  | .rjmp k => BitVec.ofInt 22 (s.pc.toNat + 1 + k.toInt)
  | .brbs b k => if s.sregBit b then BitVec.ofInt 22 (s.pc.toNat + 1 + k.toInt) else s.pc + 1
  | .brbc b k => if s.sregBit b then s.pc + 1 else BitVec.ofInt 22 (s.pc.toNat + 1 + k.toInt)
  | .jmp k => k
  | .call k => k
  | .ret =>
    BitVec.ofNat 22 ((s.byteAt (s.sp + 1).toNat).toNat * 0x10000 + (s.byteAt (s.sp + 2).toNat).toNat * 0x100 +
      (s.byteAt (s.sp + 3).toNat).toNat)
  | .cpse d r =>
    if s.reg d = s.reg r then
      if twoWord (s.flashWord (s.pc + 1).toNat) then s.pc + 3 else s.pc + 2
    else s.pc + 1
  | _ => s.pc + 1

end Sys2Proof.Safety
end

