-- ==== Sys2Proof/Certificates/Slice0/Obligations.lean ====
section
/-!
DEFINITION. The statements for the provers, from the numbered rules of spec/.
-/

open Sys2Proof Sys2Proof.Machine Sys2Proof.Safety

/-! ### Encoding -/

/-- 30_encoding.md R103 to R109, R118: the words of a well-formed instruction, laid out as Flash holds them, decode to
that instruction, whatever bytes follow. -/
def Obligations.DecodeUndoesEncode : Prop :=
  ∀ (i : Instr) (rest : List Byte), WellFormed i = true →
    decodeBytes (wordBytes (encode i) ++ rest) = .ok (i, rest)

/-- 30_encoding.md R104 to R109, R118, R119: an admitted word has one meaning, and every bit of it is in that meaning: what
a word decodes to encodes to that word, each operand is the field the spec names for it, and a second word is no part of
a one-word instruction. -/
def Obligations.EncodeUndoesDecode : Prop :=
  ∀ (op w2 : Word) (i : Instr), decode op w2 = .ok i →
    WellFormed i = true ∧ operandsAt i op w2 = true ∧ encode i = if twoWord op then [op, w2] else [op]

/-- 30_encoding.md R118, R120: a word is admitted just when it has the fixed bits of a row of the opcode table, no word
has those of two rows, and every other word is illegal. -/
def Obligations.AdmittedWordsAreTheTable : Prop :=
  ∀ op w2 : Word,
    ((∃ i, decode op w2 = .ok i) ↔ ∃ row ∈ tableRows, rowMatches op row = true) ∧
    (tableRows.filter (rowMatches op)).length ≤ 1 ∧
    ((∀ row ∈ tableRows, rowMatches op row = false) → decode op w2 = .error (.illegalInstruction op))

/-- 30_encoding.md R115: TwoWord's formula, and that it holds exactly for the first words of LDS, STS, JMP and
CALL. -/
def Obligations.TwoWordIsLdsStsJmpCall : Prop :=
  ∀ op : Word,
    twoWord op = (decide (op &&& 0xFC0F#16 = 0x9000#16) || decide (op &&& 0xFE0C#16 = 0x940C#16)) ∧
    (twoWord op = true ↔
      ∃ w2 i, decode op w2 = .ok i ∧
        ((∃ d k, i = .lds d k) ∨ (∃ k r, i = .sts k r) ∨ (∃ k, i = .jmp k) ∨ (∃ k, i = .call k)))

/-- 95_test_vectors.md: worked examples' words, one or more of each format, read as the instructions they stand for. -/
def Obligations.WorkedExampleWordsDecode : Prop :=
  decode 0x0F01 0 = .ok (.add 16 17) ∧ decode 0x1F89 0 = .ok (.adc 24 25) ∧
  decode 0x1B01 0 = .ok (.sub 16 17) ∧ decode 0x0B13 0 = .ok (.sbc 17 19) ∧
  decode 0x5800 0 = .ok (.subi 16 0x80) ∧ decode 0x3100 0 = .ok (.cpi 16 0x10) ∧
  decode 0x2455 0 = .ok (.eor 5 5) ∧ decode 0x95F0 0 = .ok (.com 31) ∧
  decode 0xE5AF 0 = .ok (.ldi 26 0x5F) ∧ decode 0xCFFF 0 = .ok (.rjmp 0xFFF) ∧
  decode 0xF7E9 0 = .ok (.brbc 1 0x7D) ∧ decode 0x940D 0x2345 = .ok (.jmp 0x12345) ∧
  decode 0x95FF 0xFFFF = .ok (.call 0x3FFFFF) ∧ decode 0x9508 0 = .ok .ret ∧
  decode 0x1012 0 = .ok (.cpse 1 2) ∧ decode 0x930F 0 = .ok (.push 16) ∧ decode 0x911F 0 = .ok (.pop 17) ∧
  decode 0x9010 0x0100 = .ok (.lds 1 0x0100) ∧ decode 0x9300 0x0100 = .ok (.sts 0x0100 16) ∧
  decode 0x901A 0 = .ok (.ldDecY 1) ∧ decode 0x8248 0 = .ok (.stY 4) ∧
  decode 0x91E4 0 = .ok (.lpmZ 30) ∧ decode 0x9017 0 = .ok (.elpmZInc 1) ∧
  decode 0xB70F 0 = .ok (.inIo 16 0x3F) ∧ decode 0xBF1E 0 = .ok (.outIo 0x3E 17)

/-! ### Fetch, faults, the step -/

/-- 20_memory.md R81, 10_state.md R36, R38, 60_exceptions.md R311: when the word at the pc, with the one at the
incremented pc, modulo 2^22 (log 7), where the first is a two-word one, both inside Flash, decode to `i`, a step of a
core that is not Faulted is `exec i`, which answers a next state, with the instruction counter moved on unless the
instruction faulted. -/
def Obligations.StepRunsTheDecodedInstruction : Prop :=
  ∀ (s : State) (i : Instr), Running s → s.pc.toNat < s.cfg.flashWords →
    (twoWord (fetchedWord s) = true → (s.pc + 1).toNat < s.cfg.flashWords) →
    decode (fetchedWord s) (if twoWord (fetchedWord s) then s.flashWord (s.pc + 1).toNat else 0) = .ok i →
    ∃ t, exec i s = .next t ∧
      step s = .next (if t.fault.isSome then t else { t with instrCount := t.instrCount + 1 })

/-- 60_exceptions.md R301: a word with no row of the opcode table raises IllegalInstruction, its info the opcode, and
takes zero cycles. -/
def Obligations.IllegalWordTraps : Prop :=
  ∀ s : State, Running s → s.pc.toNat < s.cfg.flashWords →
    (∀ row ∈ tableRows, rowMatches (fetchedWord s) row = false) →
    (∃ t, step s = .next t ∧
      Faulted s t .illegalInstruction (some (fetchedWord s)) (fetchedWord s).toNat) ∧ (hostStep s).2 = 0

/-- 60_exceptions.md R302: the three fetches that raise PcRange, the first with no opcode recorded, the others at a+1, a
pc and so modulo 2^22 (10_state.md R38); and no instruction but CPSE raises it in its execution, a control transfer
among them. -/
def Obligations.PcRangeIsRaisedByFetchesOnly : Prop :=
  (∀ s : State, Running s → s.cfg.flashWords ≤ s.pc.toNat →
    ∃ t, step s = .next t ∧ Faulted s t .pcRange none s.pc.toNat) ∧
  (∀ s : State, Running s → s.pc.toNat < s.cfg.flashWords → s.cfg.flashWords ≤ (s.pc + 1).toNat →
    twoWord (fetchedWord s) = true →
    ∃ t, step s = .next t ∧ Faulted s t .pcRange (some (fetchedWord s)) (s.pc + 1).toNat) ∧
  (∀ (s : State) (d r : Reg), s.reg d = s.reg r → s.cfg.flashWords ≤ (s.pc + 1).toNat →
    Traps (.cpse d r) s .pcRange (s.pc + 1).toNat) ∧
  (∀ (s t : State) (i : Instr) (f : FaultRecord), Running s → exec i s = .next t → t.fault = some f →
    f.kind = .pcRange → ∃ d r, i = .cpse d r)

/-- 60_exceptions.md R306: a Faulted core takes no step and the host's `step` changes nothing and returns 0, `run`
and `simulate` return at once, the latter as R312's loop has it, taking no step; the host's reset clears the record and a
load does not. The model's choices here: `halted` (log 3) and what `simulate` returns with no budget left (log 18). -/
def Obligations.FaultedCoreStays : Prop :=
  ∀ (s : State) (f : FaultRecord), s.fault = some f →
    step s = .fault (.halted f) ∧ hostStep s = (s, 0) ∧
    (∀ fuel total, hostRun (fuel + 1) s total = some (s, total)) ∧
    (∀ n : Nat, 0 < (n : Int) + s.delayedCycles → hostSimulate s n = ({ s with delayedCycles := 0 }, false)) ∧
    (∀ n : Nat, (n : Int) + s.delayedCycles ≤ 0 →
      hostSimulate s n = ({ s with delayedCycles := (n : Int) + s.delayedCycles }, true)) ∧
    s.hostReset.fault = none ∧
    (∀ image t, hostLoadProgram s image = .ok t → t.fault = some f)

/-- 60_exceptions.md R300, R303 to R305: every instruction answers a next state; it has completed, or it has taken one
of the fault kinds the spec lets it raise and committed nothing. -/
def Obligations.EveryInstructionCompletesOrTraps : Prop :=
  ∀ (i : Instr) (s : State), Running s →
    ∃ t, exec i s = .next t ∧
      (t.fault = none ∨ ∃ k x, canRaise i k = true ∧ Faulted s t k (some (fetchedWord s)) x)

/-- 60_exceptions.md R328: faults are precise. After a step that faults every DataSpace byte is as before, the recorded
address is the faulting instruction's, and the instruction is not counted. -/
def Obligations.FaultsArePrecise : Prop :=
  ∀ (s t : State) (f : FaultRecord), step s = .next t → t.fault = some f →
    t.ds = s.ds ∧ f.addr = s.pc ∧ t.callStack = s.callStack ∧ t.instrCount = s.instrCount ∧ (hostStep s).2 = 0

/-- The invariant holds after reset, whose capacities are the model's (log 1), and the host's reset keeps it. -/
def Obligations.ResetMeetsInvariant : Prop := MachineInv State.reset ∧ ∀ s : State, MachineInv s → MachineInv s.hostReset

/-- Every step keeps the invariant: memory canonical and inside its capacity, parameters in range, BreakpointSet a set,
the carry not positive. -/
def Obligations.StepKeepsInvariant : Prop := ∀ s t : State, MachineInv s → step s = .next t → MachineInv t

/-- 70_reset_and_hazards.md R350, 10_state.md R62: what the host's reset leaves. -/
def Obligations.ResetClearsTheCore : Prop :=
  ∀ s : State,
    (∀ a, s.hostReset.byteAt a = 0) ∧ (∀ n, s.hostReset.reg n = 0) ∧ (∀ p, s.hostReset.ptr p = 0) ∧
    s.hostReset.sreg = 0 ∧ s.hostReset.sp = 0 ∧ s.hostReset.rampz = 0 ∧
    s.hostReset.pc = 0 ∧ s.hostReset.fault = none ∧ s.hostReset.callStack = [] ∧
    HostPartKept s s.hostReset ∧ s.hostReset.instrCount = s.instrCount ∧
    State.reset.hostReset = State.reset

/-- 10_state.md R61, 20_memory.md R89: no step changes Flash, nor the parameters, BreakpointSet or the carry. -/
def Obligations.NoStepWritesFlash : Prop := ∀ s t : State, step s = .next t → HostPartKept s t

/-- 60_exceptions.md R311, R320: the instruction counter counts completed instructions only. -/
def Obligations.CompletedInstructionsAreCounted : Prop :=
  ∀ s t : State, step s = .next t →
    (t.fault = none → t.instrCount = s.instrCount + 1) ∧ (t.fault ≠ none → t.instrCount = s.instrCount)

/-- 10_state.md R43, R44, R45: the ALU instructions write flags and never bits 6 and 7; a data write (STS, ST, OUT) may
write the whole byte; no other instruction writes SREG. -/
def Obligations.SregIsWrittenAsListed : Prop :=
  ∀ (i : Instr) (s t : State), exec i s = .next t →
    match sregUse i with
    | .untouched => t.sreg = s.sreg
    | .flagsOnly => t.sreg.getLsbD 6 = s.sreg.getLsbD 6 ∧ t.sreg.getLsbD 7 = s.sreg.getLsbD 7
    | .dataByte => True

/-- 10_state.md R36, R38: the pc after each instruction that completes; CPSE's at the last word of a Flash of 2^22 words
rests on log 7. -/
def Obligations.PcAfterEachInstruction : Prop :=
  ∀ (i : Instr) (s t : State), Running s → exec i s = .next t → t.fault = none → t.pc = pcAfter i s

/-- 10_state.md R48: CALL appends its return address to CallStack, RET removes the last entry if there is one, and no other
instruction changes it; nor does one that faults. -/
def Obligations.CallStackFollowsCallsAndReturns : Prop :=
  ∀ (i : Instr) (s t : State), Running s → exec i s = .next t →
    t.callStack = if t.fault = none then callsAfter i s else s.callStack

/-- 10_state.md R48, R49, R51, R54, 70_reset_and_hazards.md R361: no step depends on CallStack, BreakpointSet, the
counters or the cycle counts: from two states that differ only there, a step ends in two states that differ only there. -/
def Obligations.HostBookkeepingIsNeverRead : Prop :=
  ∀ s s' t : State, SameCore s s' → step s = .next t → ∃ t', step s' = .next t' ∧ SameCore t t'

/-- 10_state.md R33, R34, R39, R42: the pointers, the flags, SP and RAMPZ are the DataSpace bytes the spec places them
in, and writing a pointer or SP writes its two bytes. -/
def Obligations.ViewsAreTheirBytes : Prop :=
  ∀ (s : State) (v : Word),
    (s.ptr .x).toNat = 256 * (s.byteAt 27).toNat + (s.byteAt 26).toNat ∧
    (s.ptr .y).toNat = 256 * (s.byteAt 29).toNat + (s.byteAt 28).toNat ∧
    (s.ptr .z).toNat = 256 * (s.byteAt 31).toNat + (s.byteAt 30).toNat ∧
    s.sp.toNat = 256 * (s.byteAt 0x5E).toNat + (s.byteAt 0x5D).toNat ∧
    (s.byteAt 0x5F).toNat = s.flagC.toNat + 2 * s.flagZ.toNat + 4 * s.flagN.toNat + 8 * s.flagV.toNat +
      16 * s.flagS.toNat + 32 * s.flagH.toNat + 64 * (s.sreg.getLsbD 6).toNat + 128 * (s.sreg.getLsbD 7).toNat ∧
    s.rampz = s.byteAt 0x5B ∧
    (∀ p, ((s.setPtr p v).byteAt (ptrLow p).toNat).toNat = v.toNat % 256) ∧
    (∀ p, ((s.setPtr p v).byteAt (ptrHigh p).toNat).toNat = v.toNat / 256) ∧
    ((s.setSp v).byteAt 0x5D).toNat = v.toNat % 256 ∧ ((s.setSp v).byteAt 0x5E).toNat = v.toNat / 256

/-! ### ALU -/

/-- 41_alu.md R142, R146, R147: ADD and ADC. -/
def Obligations.AddAndAdcWriteRegisterAndFlags : Prop :=
  ∀ (s : State) (d r : Reg),
    HasRow (.add d r) 0xFC00 0x0C00 1 ∧ Completes (.add d r) s (AddDone d (s.reg r) false s) ∧
    HasRow (.adc d r) 0xFC00 0x1C00 1 ∧ Completes (.adc d r) s (AddDone d (s.reg r) s.flagC s)

/-- 41_alu.md R143, R148 to R151: SUB, SBC, SUBI and SBCI; SBC and SBCI chain Z. -/
def Obligations.SubtractionsWriteRegisterAndFlags : Prop :=
  (∀ (s : State) (d r : Reg),
    HasRow (.sub d r) 0xFC00 0x1800 1 ∧ Completes (.sub d r) s (SubDone d (s.reg r) false false s) ∧
    HasRow (.sbc d r) 0xFC00 0x0800 1 ∧ Completes (.sbc d r) s (SubDone d (s.reg r) s.flagC true s)) ∧
  (∀ (s : State) (d : Reg) (k : Byte),
    (upperReg d = true → HasRow (.subi d k) 0xF000 0x5000 1 ∧ HasRow (.sbci d k) 0xF000 0x4000 1) ∧
    Completes (.subi d k) s (SubDone d k false false s) ∧
    Completes (.sbci d k) s (SubDone d k s.flagC true s))

/-- 41_alu.md R143, R152 to R154: CP, CPC and CPI write flags and no register; CPC chains Z. -/
def Obligations.ComparesWriteFlagsOnly : Prop :=
  (∀ (s : State) (d r : Reg),
    HasRow (.cp d r) 0xFC00 0x1400 1 ∧ Completes (.cp d r) s (CompareDone d (s.reg r) false false s) ∧
    HasRow (.cpc d r) 0xFC00 0x0400 1 ∧ Completes (.cpc d r) s (CompareDone d (s.reg r) s.flagC true s)) ∧
  (∀ (s : State) (d : Reg) (k : Byte),
    (upperReg d = true → HasRow (.cpi d k) 0xF000 0x3000 1) ∧
    Completes (.cpi d k) s (CompareDone d k false false s))

/-- 41_alu.md R144, R155 to R158: AND, OR, EOR and ORI write S, N and Z and keep C, V and H. -/
def Obligations.LogicalInstructionsKeepCVH : Prop :=
  (∀ (s : State) (d r : Reg),
    HasRow (.and d r) 0xFC00 0x2000 1 ∧ Completes (.and d r) s (LogicDone d (s.reg d &&& s.reg r) s.flagC s) ∧
    HasRow (.or d r) 0xFC00 0x2800 1 ∧ Completes (.or d r) s (LogicDone d (s.reg d ||| s.reg r) s.flagC s) ∧
    HasRow (.eor d r) 0xFC00 0x2400 1 ∧ Completes (.eor d r) s (LogicDone d (s.reg d ^^^ s.reg r) s.flagC s)) ∧
  (∀ (s : State) (d : Reg) (k : Byte),
    (upperReg d = true → HasRow (.ori d k) 0xF000 0x6000 1) ∧
    Completes (.ori d k) s (LogicDone d (s.reg d ||| k) s.flagC s))

/-- 41_alu.md R159: COM, which also sets C. -/
def Obligations.ComComplementsAndSetsC : Prop :=
  ∀ (s : State) (d : Reg),
    HasRow (.com d) 0xFE0F 0x9400 1 ∧ Completes (.com d) s (LogicDone d (~~~s.reg d) true s)

/-- 41_alu.md R145: the arithmetic reading of AddFlags and of SubFlags, and of their results. -/
def Obligations.FlagsAsArithmetic : Prop :=
  ∀ (rule : SRule) (d r : Byte) (cin zKeep : Bool),
    ((addResult d r cin).toNat = (d.toNat + r.toNat + cin.toNat) % 256 ∧
      ((addFlags rule d r cin).c = true ↔ 256 ≤ d.toNat + r.toNat + cin.toNat) ∧
      ((addFlags rule d r cin).h = true ↔ 16 ≤ d.toNat % 16 + r.toNat % 16 + cin.toNat) ∧
      ((addFlags rule d r cin).v = true ↔
        d.toInt + r.toInt + cin.toNat < -128 ∨ 127 < d.toInt + r.toInt + cin.toNat)) ∧
    ((subResult d r cin).toNat = (d.toNat + 512 - r.toNat - cin.toNat) % 256 ∧
      ((subFlags rule d r cin zKeep).c = true ↔ d.toNat < r.toNat + cin.toNat) ∧
      ((subFlags rule d r cin zKeep).h = true ↔ d.toNat % 16 < r.toNat % 16 + cin.toNat) ∧
      ((subFlags rule d r cin zKeep).v = true ↔
        d.toInt - r.toInt - cin.toNat < -128 ∨ 127 < d.toInt - r.toInt - cin.toNat))

/-- 41_alu.md R153, R160: CP of the low bytes, then CPC of the high ones, compares 16-bit values: Z is equality and C is
unsigned less-than, and no register changes. -/
def Obligations.CpThenCpcComparesWords : Prop :=
  ∀ (s : State) (dl rl dh rh : Reg),
    Completes (.cp dl rl) s (fun t => Completes (.cpc dh rh) t (fun u =>
      u.flagZ = decide (joinBytes (s.reg dh) (s.reg dl) = joinBytes (s.reg rh) (s.reg rl)) ∧
      u.flagC = decide (joinBytes (s.reg dh) (s.reg dl) < joinBytes (s.reg rh) (s.reg rl)) ∧
      Frame s u [0x5F]))

/-- 41_alu.md R147, R160: ADD of the low bytes, then ADC of the high ones, adds 16-bit values modulo 2^16, C being the
carry out of bit 15, when the high bytes are not the register the low sum went to. -/
def Obligations.AddThenAdcAddsWords : Prop :=
  ∀ (s : State) (dl rl dh rh : Reg), dh ≠ dl → rh ≠ dl →
    Completes (.add dl rl) s (fun t => Completes (.adc dh rh) t (fun u =>
      joinBytes (u.reg dh) (u.reg dl) =
        joinBytes (s.reg dh) (s.reg dl) + joinBytes (s.reg rh) (s.reg rl) ∧
      u.flagC = decide (0x10000 ≤
        (joinBytes (s.reg dh) (s.reg dl)).toNat + (joinBytes (s.reg rh) (s.reg rl)).toNat) ∧
      Frame s u [dl.toNat, dh.toNat, 0x5F]))

/-! ### Control flow and stack -/

/-- 42_control_flow.md R201, R202: RJMP. -/
def Obligations.RjmpAddsItsDisplacement : Prop :=
  ∀ (s : State) (k : BitVec 12),
    HasRow (.rjmp k) 0xF000 0xC000 1 ∧
    Completes (.rjmp k) s (fun t =>
      (t.pc.toNat : Int) = ((s.pc.toNat : Int) + 1 + k.toInt) % 2 ^ 22 ∧ Frame s t [])

/-- 42_control_flow.md R203: JMP; any target is taken, and one past Flash does not fault here. -/
def Obligations.JmpGoesToItsTarget : Prop :=
  (∀ (s : State) (k : PcWord),
    HasRow (.jmp k) 0xFE0E 0x940C 2 ∧ Completes (.jmp k) s (fun t => t.pc = k ∧ Frame s t [])) ∧
  SecondWordTraps 0xFE0E 0x940C

/-- 42_control_flow.md R204, R206: CALL when its three stack bytes are in SRAM; and the fault on the first of SP, SP-1,
SP-2 that is not (60_exceptions.md R304, R309), which writes nothing. -/
def Obligations.CallPushesItsReturnAddress : Prop :=
  (∀ (s : State) (k : PcWord), HasRow (.call k) 0xFE0E 0x940E 2 ∧
    (s.inSram s.sp = true → s.inSram (s.sp - 1) = true → s.inSram (s.sp - 2) = true →
      Completes (.call k) s (fun t =>
        t.pc = k ∧ t.sp = s.sp - 3 ∧
        (t.byteAt s.sp.toNat).toNat = (s.pc + 2).toNat % 0x100 ∧
        (t.byteAt (s.sp - 1).toNat).toNat = (s.pc + 2).toNat / 0x100 % 0x100 ∧
        (t.byteAt (s.sp - 2).toNat).toNat = (s.pc + 2).toNat / 0x10000 ∧
        FrameCalls s t [s.sp.toNat, (s.sp - 1).toNat, (s.sp - 2).toNat, 0x5D, 0x5E] (s.callStack ++ [s.pc + 2]))) ∧
    (s.inSram s.sp = false → Traps (.call k) s .stackRange s.sp.toNat) ∧
    (s.inSram s.sp = true → s.inSram (s.sp - 1) = false → Traps (.call k) s .stackRange (s.sp - 1).toNat) ∧
    (s.inSram s.sp = true → s.inSram (s.sp - 1) = true → s.inSram (s.sp - 2) = false →
      Traps (.call k) s .stackRange (s.sp - 2).toNat)) ∧
  SecondWordTraps 0xFE0E 0x940E

/-- 42_control_flow.md R207: RET when its three stack bytes are in SRAM, bits 7:6 of the high byte discarded; and the
fault on the first of SP+1, SP+2, SP+3 that is not (60_exceptions.md R304, R309), which writes nothing. -/
def Obligations.RetPopsItsReturnAddress : Prop :=
  ∀ s : State, HasRow .ret 0xFFFF 0x9508 1 ∧
    (s.inSram (s.sp + 1) = true → s.inSram (s.sp + 2) = true → s.inSram (s.sp + 3) = true →
      Completes .ret s (fun t =>
        t.pc.toNat = ((s.byteAt (s.sp + 1).toNat).toNat * 0x10000 + (s.byteAt (s.sp + 2).toNat).toNat * 0x100 +
          (s.byteAt (s.sp + 3).toNat).toNat) % 2 ^ 22 ∧
        t.sp = s.sp + 3 ∧ FrameCalls s t [0x5D, 0x5E] s.callStack.dropLast)) ∧
    (s.inSram (s.sp + 1) = false → Traps .ret s .stackRange (s.sp + 1).toNat) ∧
    (s.inSram (s.sp + 1) = true → s.inSram (s.sp + 2) = false → Traps .ret s .stackRange (s.sp + 2).toNat) ∧
    (s.inSram (s.sp + 1) = true → s.inSram (s.sp + 2) = true → s.inSram (s.sp + 3) = false →
      Traps .ret s .stackRange (s.sp + 3).toNat)

/-- 42_control_flow.md R208, R209, 10_state.md R38: CPSE, in its three cases. At the last word of a Flash of 2^22 words the
word after is word 0, which rests on log 7's reading of R209's fault line. -/
def Obligations.CpseSkipsWhenEqual : Prop :=
  ∀ (s : State) (d r : Reg), HasRow (.cpse d r) 0xFC00 0x1000 1 ∧
    (s.reg d ≠ s.reg r → Completes (.cpse d r) s (fun t => t.pc = s.pc + 1 ∧ Frame s t [])) ∧
    (s.reg d = s.reg r → (s.pc + 1).toNat < s.cfg.flashWords →
      Completes (.cpse d r) s (fun t =>
        t.pc = (if twoWord (s.flashWord (s.pc + 1).toNat) then s.pc + 3 else s.pc + 2) ∧ Frame s t [])) ∧
    (s.reg d = s.reg r → s.cfg.flashWords ≤ (s.pc + 1).toNat →
      Traps (.cpse d r) s .pcRange (s.pc + 1).toNat)

/-- 70_reset_and_hazards.md R363, 10_state.md R38: where CPSE and the word after it lie inside Flash, CPSE's step returns 2
cycles over a one-word instruction and 3 over a two-word one when the registers are equal. At the last word of a Flash of
2^22 words the word after is word 0, which rests on log 7. -/
def Obligations.CpseSkipCycles : Prop :=
  ∀ (s : State) (d r : Reg), Running s → s.pc.toNat < s.cfg.flashWords → (s.pc + 1).toNat < s.cfg.flashWords →
    decode (fetchedWord s) 0 = .ok (.cpse d r) → s.reg d = s.reg r →
    (hostStep s).2 = if twoWord (s.flashWord (s.pc + 1).toNat) then 3 else 2

/-- 42_control_flow.md R201, R210, R211: BRBS and BRBC, taken and not taken. -/
def Obligations.ConditionalBranchesTestOneBit : Prop :=
  ∀ (s : State) (b : BitVec 3) (k : BitVec 7),
    HasRow (.brbs b k) 0xFC00 0xF000 1 ∧ HasRow (.brbc b k) 0xFC00 0xF400 1 ∧
    Completes (.brbs b k) s (fun t => Frame s t [] ∧
      if s.sreg.getLsbD b.toNat then (t.pc.toNat : Int) = ((s.pc.toNat : Int) + 1 + k.toInt) % 2 ^ 22
      else t.pc = s.pc + 1) ∧
    Completes (.brbc b k) s (fun t => Frame s t [] ∧
      if s.sreg.getLsbD b.toNat then t.pc = s.pc + 1
      else (t.pc.toNat : Int) = ((s.pc.toNat : Int) + 1 + k.toInt) % 2 ^ 22)

/-- 42_control_flow.md R212: PUSH stores at SP, then SP - 1; outside SRAM it faults and writes nothing. -/
def Obligations.PushStoresThenDecrements : Prop :=
  ∀ (s : State) (r : Reg), HasRow (.push r) 0xFE0F 0x920F 1 ∧
    (s.inSram s.sp = true → Completes (.push r) s (fun t =>
      t.byteAt s.sp.toNat = s.reg r ∧ t.sp = s.sp - 1 ∧ t.pc = s.pc + 1 ∧
      Frame s t [s.sp.toNat, 0x5D, 0x5E])) ∧
    (s.inSram s.sp = false → Traps (.push r) s .stackRange s.sp.toNat)

/-- 42_control_flow.md R213: POP reads at SP + 1, then SP + 1; outside SRAM it faults and writes nothing. -/
def Obligations.PopReadsAboveSp : Prop :=
  ∀ (s : State) (d : Reg), HasRow (.pop d) 0xFE0F 0x900F 1 ∧
    (s.inSram (s.sp + 1) = true → Completes (.pop d) s (fun t =>
      t.reg d = s.byteAt (s.sp + 1).toNat ∧ t.sp = s.sp + 1 ∧ t.pc = s.pc + 1 ∧
      Frame s t [d.toNat, 0x5D, 0x5E])) ∧
    (s.inSram (s.sp + 1) = false → Traps (.pop d) s .stackRange (s.sp + 1).toNat)

/-- 42_control_flow.md R214 (a): one block of pushes, of any number of registers, popped in the reverse order, restores
every register, SP and every DataSpace byte but the stack bytes written, which keep the pushed values. -/
def Obligations.NestedPushPopRestores : Prop :=
  ∀ (s : State) (rs : List Reg),
    (∀ k : Nat, k < rs.length → s.inSram (s.sp - BitVec.ofNat 16 k) = true) →
    ∃ t, execAll (rs.map Instr.push ++ rs.reverse.map Instr.pop) s = .next t ∧
      t.fault = s.fault ∧ t.sp = s.sp ∧ (∀ n, t.reg n = s.reg n) ∧
      (∀ k (h : k < rs.length), t.byteAt (s.sp - BitVec.ofNat 16 k).toNat = s.reg (rs[k]'h)) ∧
      (∀ a, (∀ k : Nat, k < rs.length → a ≠ (s.sp - BitVec.ofNat 16 k).toNat) → t.byteAt a = s.byteAt a)

/-- 42_control_flow.md R214 (a): PUSH and POP pairs of one register, in any sequence and any nesting, their stack bytes in
SRAM, restore every register, SP and every DataSpace byte but the stack bytes written, each of which keeps the value last
pushed there. -/
def Obligations.AnyNestingOfPushPopPairsRestores : Prop :=
  ∀ (s : State) (n : Nesting),
    (∀ k : Nat, k < n.depth → s.inSram (s.sp - BitVec.ofNat 16 k) = true) →
    ∃ t, execAll n.code s = .next t ∧ t.fault = s.fault ∧ t.sp = s.sp ∧ (∀ r, t.reg r = s.reg r) ∧
      (∀ k r, n.lastPushed k = some r → t.byteAt (s.sp - BitVec.ofNat 16 k).toNat = s.reg r) ∧
      (∀ a, (∀ k : Nat, k < n.depth → a ≠ (s.sp - BitVec.ofNat 16 k).toNat) → t.byteAt a = s.byteAt a)

/-- 42_control_flow.md R214 (b): after CALL, from any state with SP and the three frame bytes as CALL left them and the
same capacity, RET returns the pc to a+2 and restores SP. -/
def Obligations.CallThenRetReturns : Prop :=
  ∀ (s : State) (k : PcWord), s.inSram s.sp = true → s.inSram (s.sp - 1) = true → s.inSram (s.sp - 2) = true →
    Completes (.call k) s (fun t => ∀ u : State, u.cfg = t.cfg → u.sp = t.sp →
      u.byteAt s.sp.toNat = t.byteAt s.sp.toNat → u.byteAt (s.sp - 1).toNat = t.byteAt (s.sp - 1).toNat →
      u.byteAt (s.sp - 2).toNat = t.byteAt (s.sp - 2).toNat →
      Completes .ret u (fun v => v.pc = s.pc + 2 ∧ v.sp = s.sp))

/-! ### Loads, stores, program memory, I/O -/

/-- 43_load_store_io.md R240: LDI writes its register and no flag. -/
def Obligations.LdiLoadsItsImmediate : Prop :=
  ∀ (s : State) (d : Reg) (k : Byte), (upperReg d = true → HasRow (.ldi d k) 0xF000 0xE000 1) ∧
    Completes (.ldi d k) s (fun t => t.reg d = k ∧ t.pc = s.pc + 1 ∧ Frame s t [d.toNat])

/-- 43_load_store_io.md R241: LDS. -/
def Obligations.LdsLoadsDirect : Prop :=
  (∀ (s : State) (d : Reg) (k : Word), HasRow (.lds d k) 0xFE0F 0x9000 2 ∧
    (k.toNat < s.cfg.dsSize → Completes (.lds d k) s (fun t =>
      t.reg d = s.byteAt k.toNat ∧ t.pc = s.pc + 2 ∧ Frame s t [d.toNat])) ∧
    (s.cfg.dsSize ≤ k.toNat → Traps (.lds d k) s .dataRange k.toNat)) ∧
  SecondWordTraps 0xFE0F 0x9000

/-- 43_load_store_io.md R242: STS. -/
def Obligations.StsStoresDirect : Prop :=
  (∀ (s : State) (k : Word) (r : Reg), HasRow (.sts k r) 0xFE0F 0x9200 2 ∧
    (k.toNat < s.cfg.dsSize → Completes (.sts k r) s (fun t =>
      t.byteAt k.toNat = s.reg r ∧ t.pc = s.pc + 2 ∧ Frame s t [k.toNat])) ∧
    (s.cfg.dsSize ≤ k.toNat → Traps (.sts k r) s .dataRange k.toNat)) ∧
  SecondWordTraps 0xFE0F 0x9200

/-- 20_memory.md R86: a direct load reads the last byte a direct store put there, and every other byte as before. -/
def Obligations.LoadReadsTheLastStore : Prop :=
  ∀ (s : State) (k a : Word) (r d : Reg), k.toNat < s.cfg.dsSize → a.toNat < s.cfg.dsSize →
    Completes (.sts k r) s (fun t => Completes (.lds d a) t (fun u =>
      u.reg d = if a = k then s.reg r else s.byteAt a.toNat))

/-- 10_state.md R31: register n is DataSpace byte n: a direct load of an address below 0x20 reads that register, a
direct store to it writes it. -/
def Obligations.RegistersAreMemoryMapped : Prop :=
  ∀ (s : State) (d n : Reg), 0x20 ≤ s.cfg.dsSize →
    Completes (.lds d (n.zeroExtend 16)) s (fun t => t.reg d = s.reg n) ∧
    Completes (.sts (n.zeroExtend 16) d) s (fun t =>
      t.reg n = s.reg d ∧ ∀ m : Reg, m ≠ n → t.reg m = s.reg m)

/-- 43_load_store_io.md R243 to R253: the nine LD forms, LD Rd,X (ldX), X+ (ldXInc), -X (ldDecX) and the same for Y and Z:
the load and the write-back; the fault with EA at or above DS_SIZE, which writes neither Rd nor the pointer; and, in a
write-back mode with Rd one of the pointer's registers, completion with only those two registers changed, what they hold
being unspecified. -/
def Obligations.LdFormsLoadAndWriteBack : Prop :=
  ∀ (s : State) (p : Ptr) (d : Reg),
    (∀ m, HasRow (ldForm p m d) 0xFE0F (ldPattern p m) 1) ∧
    ((s.ptr p).toNat < s.cfg.dsSize → Completes (ldForm p .plain d) s (fun t =>
      t.reg d = s.byteAt (s.ptr p).toNat ∧ t.pc = s.pc + 1 ∧ Frame s t [d.toNat])) ∧
    (d.toNat ∉ ptrAddrs p → (s.ptr p).toNat < s.cfg.dsSize → Completes (ldForm p .postInc d) s (fun t =>
      t.reg d = s.byteAt (s.ptr p).toNat ∧ t.ptr p = s.ptr p + 1 ∧ t.pc = s.pc + 1 ∧
      Frame s t (d.toNat :: ptrAddrs p))) ∧
    (d.toNat ∉ ptrAddrs p → (s.ptr p - 1).toNat < s.cfg.dsSize → Completes (ldForm p .preDec d) s (fun t =>
      t.reg d = s.byteAt (s.ptr p - 1).toNat ∧ t.ptr p = s.ptr p - 1 ∧ t.pc = s.pc + 1 ∧
      Frame s t (d.toNat :: ptrAddrs p))) ∧
    (d.toNat ∈ ptrAddrs p → (s.ptr p).toNat < s.cfg.dsSize → Completes (ldForm p .postInc d) s (fun t =>
      t.pc = s.pc + 1 ∧ Frame s t (ptrAddrs p))) ∧
    (d.toNat ∈ ptrAddrs p → (s.ptr p - 1).toNat < s.cfg.dsSize → Completes (ldForm p .preDec d) s (fun t =>
      t.pc = s.pc + 1 ∧ Frame s t (ptrAddrs p))) ∧
    (s.cfg.dsSize ≤ (s.ptr p).toNat →
      Traps (ldForm p .plain d) s .dataRange (s.ptr p).toNat ∧
      Traps (ldForm p .postInc d) s .dataRange (s.ptr p).toNat) ∧
    (s.cfg.dsSize ≤ (s.ptr p - 1).toNat → Traps (ldForm p .preDec d) s .dataRange (s.ptr p - 1).toNat)

/-- 43_load_store_io.md R243, R244, R254 to R262: the nine ST forms, ST X,Rr (stX), X+ (stXInc), -X (stDecX) and the same
for Y and Z: the store and the write-back; the fault with EA at or above DS_SIZE, which writes neither memory nor the
pointer; and, in a write-back mode, with Rr one of the pointer's registers and EA not, the byte at EA unspecified and the
pointer written back as ever, and with EA the address of one of those registers, both unspecified; nothing else changes. -/
def Obligations.StFormsStoreAndWriteBack : Prop :=
  ∀ (s : State) (p : Ptr) (r : Reg),
    (∀ m, HasRow (stForm p m r) 0xFE0F (stPattern p m) 1) ∧
    ((s.ptr p).toNat < s.cfg.dsSize → Completes (stForm p .plain r) s (fun t =>
      t.byteAt (s.ptr p).toNat = s.reg r ∧ t.pc = s.pc + 1 ∧ Frame s t [(s.ptr p).toNat])) ∧
    (r.toNat ∉ ptrAddrs p → (s.ptr p).toNat ∉ ptrAddrs p → (s.ptr p).toNat < s.cfg.dsSize →
      Completes (stForm p .postInc r) s (fun t =>
        t.byteAt (s.ptr p).toNat = s.reg r ∧ t.ptr p = s.ptr p + 1 ∧ t.pc = s.pc + 1 ∧
        Frame s t ((s.ptr p).toNat :: ptrAddrs p))) ∧
    (r.toNat ∉ ptrAddrs p → (s.ptr p - 1).toNat ∉ ptrAddrs p → (s.ptr p - 1).toNat < s.cfg.dsSize →
      Completes (stForm p .preDec r) s (fun t =>
        t.byteAt (s.ptr p - 1).toNat = s.reg r ∧ t.ptr p = s.ptr p - 1 ∧ t.pc = s.pc + 1 ∧
        Frame s t ((s.ptr p - 1).toNat :: ptrAddrs p))) ∧
    (s.cfg.dsSize ≤ (s.ptr p).toNat →
      Traps (stForm p .plain r) s .dataRange (s.ptr p).toNat ∧
      Traps (stForm p .postInc r) s .dataRange (s.ptr p).toNat) ∧
    (s.cfg.dsSize ≤ (s.ptr p - 1).toNat → Traps (stForm p .preDec r) s .dataRange (s.ptr p - 1).toNat) ∧
    (∀ m, m ≠ .plain → (effAddr m (s.ptr p)).toNat < s.cfg.dsSize →
      (r.toNat ∈ ptrAddrs p → (effAddr m (s.ptr p)).toNat ∉ ptrAddrs p → Completes (stForm p m r) s (fun t =>
        t.pc = s.pc + 1 ∧ t.ptr p = nextPtr m (s.ptr p) ∧
        Frame s t ((effAddr m (s.ptr p)).toNat :: ptrAddrs p))) ∧
      ((effAddr m (s.ptr p)).toNat ∈ ptrAddrs p → Completes (stForm p m r) s (fun t =>
        t.pc = s.pc + 1 ∧ Frame s t (ptrAddrs p))))

/-- 43_load_store_io.md R263, R264: LPM Rd,Z and LPM Rd,Z+; with Rd r30 or r31 the latter leaves both unspecified and
changes nothing else (R244). -/
def Obligations.LpmReadsFlash : Prop :=
  ∀ (s : State) (d : Reg), HasRow (.lpmZ d) 0xFE0F 0x9004 1 ∧ HasRow (.lpmZInc d) 0xFE0F 0x9005 1 ∧
    ((s.ptr .z).toNat < 2 * s.cfg.flashWords →
      Completes (.lpmZ d) s (fun t =>
        (t.reg d).toNat = flashByteAt s (s.ptr .z).toNat ∧ t.pc = s.pc + 1 ∧ Frame s t [d.toNat]) ∧
      (d ≠ 30 → d ≠ 31 → Completes (.lpmZInc d) s (fun t =>
        (t.reg d).toNat = flashByteAt s (s.ptr .z).toNat ∧ t.ptr .z = s.ptr .z + 1 ∧ t.pc = s.pc + 1 ∧
        Frame s t [d.toNat, 30, 31])) ∧
      (d = 30 ∨ d = 31 → Completes (.lpmZInc d) s (fun t => t.pc = s.pc + 1 ∧ Frame s t [30, 31]))) ∧
    (2 * s.cfg.flashWords ≤ (s.ptr .z).toNat →
      Traps (.lpmZ d) s .flashRange (s.ptr .z).toNat ∧ Traps (.lpmZInc d) s .flashRange (s.ptr .z).toNat)

/-- 43_load_store_io.md R265, R266: ELPM Rd,Z and ELPM Rd,Z+; the byte address is RAMPZ:Z, and its increment carries into
RAMPZ; with Rd r30 or r31 the latter leaves r30, r31 and RAMPZ unspecified and changes nothing else (R244). -/
def Obligations.ElpmReadsExtendedFlash : Prop :=
  ∀ (s : State) (d : Reg), HasRow (.elpmZ d) 0xFE0F 0x9006 1 ∧ HasRow (.elpmZInc d) 0xFE0F 0x9007 1 ∧
    (s.rampz.toNat * 0x10000 + (s.ptr .z).toNat < 2 * s.cfg.flashWords →
      Completes (.elpmZ d) s (fun t =>
        (t.reg d).toNat = flashByteAt s (s.rampz.toNat * 0x10000 + (s.ptr .z).toNat) ∧ t.pc = s.pc + 1 ∧
        Frame s t [d.toNat]) ∧
      (d ≠ 30 → d ≠ 31 → Completes (.elpmZInc d) s (fun t =>
        (t.reg d).toNat = flashByteAt s (s.rampz.toNat * 0x10000 + (s.ptr .z).toNat) ∧
        t.rampz.toNat * 0x10000 + (t.ptr .z).toNat =
          (s.rampz.toNat * 0x10000 + (s.ptr .z).toNat + 1) % 2 ^ 24 ∧
        t.pc = s.pc + 1 ∧ Frame s t [d.toNat, 30, 31, 0x5B])) ∧
      (d = 30 ∨ d = 31 → Completes (.elpmZInc d) s (fun t => t.pc = s.pc + 1 ∧ Frame s t [30, 31, 0x5B]))) ∧
    (2 * s.cfg.flashWords ≤ s.rampz.toNat * 0x10000 + (s.ptr .z).toNat →
      Traps (.elpmZ d) s .flashRange (s.rampz.toNat * 0x10000 + (s.ptr .z).toNat) ∧
      Traps (.elpmZInc d) s .flashRange (s.rampz.toNat * 0x10000 + (s.ptr .z).toNat))

/-- 43_load_store_io.md R267, 20_memory.md R71: IN. -/
def Obligations.InReadsAnIoByte : Prop :=
  ∀ (s : State) (d : Reg) (a : BitVec 6), HasRow (.inIo d a) 0xF800 0xB000 1 ∧
    Completes (.inIo d a) s (fun t => t.reg d = s.byteAt (0x20 + a.toNat) ∧ t.pc = s.pc + 1 ∧ Frame s t [d.toNat])

/-- 43_load_store_io.md R268, 20_memory.md R71: OUT; at 0x3F it replaces the whole SREG byte, at 0x3B RAMPZ. -/
def Obligations.OutWritesAnIoByte : Prop :=
  ∀ (s : State) (a : BitVec 6) (r : Reg), HasRow (.outIo a r) 0xF800 0xB800 1 ∧
    Completes (.outIo a r) s (fun t =>
      t.byteAt (0x20 + a.toNat) = s.reg r ∧ (a = 0x3F → t.sreg = s.reg r) ∧ (a = 0x3B → t.rampz = s.reg r) ∧
      t.pc = s.pc + 1 ∧ Frame s t [0x20 + a.toNat])

/-- 70_reset_and_hazards.md R353, 10_state.md R39: two OUTs set SP, in either order. -/
def Obligations.TwoOutsSetSp : Prop :=
  ∀ (s : State) (rl rh : Reg),
    Completes (.outIo 0x3D rl) s (fun t => Completes (.outIo 0x3E rh) t (fun u =>
      u.sp = joinBytes (s.reg rh) (s.reg rl) ∧ Frame s u [0x5D, 0x5E])) ∧
    Completes (.outIo 0x3E rh) s (fun t => Completes (.outIo 0x3D rl) t (fun u =>
      u.sp = joinBytes (s.reg rh) (s.reg rl) ∧ Frame s u [0x5D, 0x5E]))

/-! ### The host's operations -/

/-- 60_exceptions.md R313, R329: when `run` returns with no fault recorded, at least one instruction has completed and the
pc is in BreakpointSet, which the run has not changed. The bound on the run is the model's (log 14). -/
def Obligations.RunStopsAtABreakpoint : Prop :=
  ∀ (fuel total total' : Nat) (s t : State), s.cfg.wf = true →
    hostRun fuel s total = some (t, total') → t.fault = none →
    t.pc ∈ s.breakpoints ∧ t.breakpoints = s.breakpoints ∧ s.instrCount < t.instrCount ∧ total < total'

/-- 60_exceptions.md R312: `simulate` that returns true has run completing steps while the budget, the cycles asked for
plus the carry, was above their total, has met no fault, and carries the budget less their total, which is 0 or negative;
one that returns false has run such steps up to one that returned 0, has met a fault, and carries 0. On a Faulted core the
loop is read literally (log 18). -/
def Obligations.SimulateCarriesTheOvershoot : Prop :=
  ∀ (s t : State) (n : Nat), s.cfg.wf = true →
    (hostSimulate s n = (t, true) →
      t.delayedCycles ≤ 0 ∧ t.fault = s.fault ∧
      ∃ k u c, hostSteps k s = some (u, c) ∧ t = { u with delayedCycles := (n : Int) + s.delayedCycles - c } ∧
        ∀ j v e, j < k → hostSteps j s = some (v, e) → (e : Int) < (n : Int) + s.delayedCycles) ∧
    (hostSimulate s n = (t, false) →
      t.delayedCycles = 0 ∧ t.fault ≠ none ∧
      ∃ k u c, hostSteps k s = some (u, c) ∧ (c : Int) < (n : Int) + s.delayedCycles ∧ (hostStep u).2 = 0 ∧
        t = { (hostStep u).1 with delayedCycles := 0 })

/-- 60_exceptions.md R315: the bytes of one record, placed from byte address `b`, read back from Flash, and placing them
changes no other Flash byte and nothing but Flash. -/
def Obligations.PlacedBytesReadBack : Prop :=
  ∀ (bytes : List Byte) (s t : State) (b : Nat), placeBytes s b bytes = .ok t →
    (∀ k (h : k < bytes.length), flashByteAt t (b + k) = (bytes[k]'h).toNat) ∧
    (∀ a, a < b ∨ b + bytes.length ≤ a → flashByteAt t a = flashByteAt s a) ∧
    t = { s with flash := t.flash }

/-- 60_exceptions.md R315, 10_state.md R60: after a load that succeeds every byte of the image reads back, the last
record that has it prevailing; in a word of which a record covers one byte only, the other is placed just when it was, with
what it held; every other byte is not placed, so a free value that this load numbers (log 23). -/
def Obligations.LoadedImageReadsBack : Prop :=
  ∀ (s t : State) (image : List Char), hostLoadProgram s image = .ok t →
    ∃ rs, parseRecords image.length image = .ok rs ∧ t.loads = s.loads + 1 ∧
      (∀ b v, imageByte rs b = some v → flashByteAt t b = v.toNat) ∧
      ∀ b, imageByte rs b = none →
        Memory.get t.flash b =
          if imageByte rs (2 * (b / 2)) = none ∧ imageByte rs (2 * (b / 2) + 1) = none then none
          else Memory.get s.flash b

/-- 60_exceptions.md R315, R319: a load that succeeds changes nothing but Flash, its placed bytes and what numbers its free
ones, and keeps the invariant; the empty image
is a LoadError. -/
def Obligations.LoadChangesOnlyFlash : Prop :=
  (∀ (s t : State) (image : List Char), hostLoadProgram s image = .ok t →
    t = { s with flash := t.flash, loads := s.loads + 1 } ∧ (MachineInv s → MachineInv t)) ∧
  ∀ s : State, hostLoadProgram s [] = .error .emptyFile

/-- 60_exceptions.md R314: setBreakpoint adds a value and removeBreakpoint removes it; neither touches anything else,
both keep the invariant, and the set persists across reset and a load. -/
def Obligations.BreakpointsAreASet : Prop :=
  ∀ (s : State) (p q : PcWord),
    (q ∈ (hostSetBreakpoint s p).breakpoints ↔ q = p ∨ q ∈ s.breakpoints) ∧
    (q ∈ (hostRemoveBreakpoint s p).breakpoints ↔ q ≠ p ∧ q ∈ s.breakpoints) ∧
    hostSetBreakpoint s p = { s with breakpoints := (hostSetBreakpoint s p).breakpoints } ∧
    hostRemoveBreakpoint s p = { s with breakpoints := (hostRemoveBreakpoint s p).breakpoints } ∧
    (MachineInv s → MachineInv (hostSetBreakpoint s p) ∧ MachineInv (hostRemoveBreakpoint s p)) ∧
    s.hostReset.breakpoints = s.breakpoints ∧
    (∀ image t, hostLoadProgram s image = .ok t → t.breakpoints = s.breakpoints)
end

