-- ==== Sys2Proof/Laws/Decode.lean ====
section
/-!
SUPPORT. The decoder and the encoder bit by bit: TwoWord over the bits of a word, the bits of each encoder's word, and
each field read back from each format.
-/

namespace Sys2Proof

/-- Words are equal when their sixteen bits are. -/
theorem word_eq_iff (x y : Word) :
    x = y ↔ (x[0] = y[0] ∧ x[1] = y[1] ∧ x[2] = y[2] ∧ x[3] = y[3] ∧ x[4] = y[4] ∧ x[5] = y[5] ∧ x[6] = y[6] ∧
      x[7] = y[7] ∧ x[8] = y[8] ∧ x[9] = y[9] ∧ x[10] = y[10] ∧ x[11] = y[11] ∧ x[12] = y[12] ∧ x[13] = y[13] ∧
      x[14] = y[14] ∧ x[15] = y[15]) := by
  constructor
  · rintro rfl
    simp
  · rintro ⟨h0, h1, h2, h3, h4, h5, h6, h7, h8, h9, h10, h11, h12, h13, h14, h15⟩
    ext i hi
    interval_cases i <;> assumption

/-- TwoWord over the bits of the word (30_encoding.md R115). -/
theorem twoWord_bits (op : Word) :
    twoWord op = (op[15] && !op[14] && !op[13] && op[12] && !op[11] &&
      ((!op[10] && !op[3] && !op[2] && !op[1] && !op[0]) || (op[10] && !op[9] && op[3] && op[2]))) := by
  rw [Bool.eq_iff_iff, twoWord]
  simp only [Bool.or_eq_true, beq_iff_eq, word_eq_iff _ 0x9000#16, word_eq_iff _ 0x940C#16, BitVec.getElem_and]
  simp
  tauto

/-! ### The bits of each field -/

theorem fieldR5_bit (op : Word) (i : Nat) (h : i < 5) :
    (fieldR5 op)[i] = if i < 4 then op.getLsbD i else op.getLsbD 9 := by
  show (show BitVec (1 + 4) from op.extractLsb' 9 1 ++ op.extractLsb' 0 4)[i]'h = _
  simp only [BitVec.getElem_append]
  interval_cases i <;> simp

theorem fieldD4_bit (op : Word) (i : Nat) (h : i < 5) :
    (fieldD4 op)[i] = if i < 4 then op.getLsbD (4 + i) else true := by
  show (show BitVec (1 + 4) from 1#1 ++ op.extractLsb' 4 4)[i]'h = _
  simp only [BitVec.getElem_append]
  interval_cases i <;> simp

theorem fieldK8_bit (op : Word) (i : Nat) (h : i < 8) :
    (fieldK8 op)[i] = if i < 4 then op.getLsbD i else op.getLsbD (4 + i) := by
  show (show BitVec (4 + 4) from op.extractLsb' 8 4 ++ op.extractLsb' 0 4)[i]'h = _
  simp only [BitVec.getElem_append]
  interval_cases i <;> simp

theorem fieldA6_bit (op : Word) (i : Nat) (h : i < 6) :
    (fieldA6 op)[i] = if i < 4 then op.getLsbD i else op.getLsbD (5 + i) := by
  show (show BitVec (2 + 4) from op.extractLsb' 9 2 ++ op.extractLsb' 0 4)[i]'h = _
  simp only [BitVec.getElem_append]
  interval_cases i <;> simp

theorem fieldK22_bit (op w2 : Word) (i : Nat) (h : i < 22) :
    (fieldK22 op w2)[i] = if i < 16 then w2.getLsbD i else if i < 17 then op.getLsbD 0 else op.getLsbD (i - 13) := by
  show (show BitVec (5 + 1 + 16) from op.extractLsb' 4 5 ++ op.extractLsb' 0 1 ++ w2)[i]'h = _
  simp only [BitVec.getElem_append]
  interval_cases i <;> simp

/-! ### The bits of each encoder's word -/

theorem encodeRR_bit (o : BitVec 6) (d r : Reg) (i : Nat) (h : i < 16) :
    (encodeRR o d r)[i] = if i < 4 then r.getLsbD i else if i < 9 then d.getLsbD (i - 4)
      else if i < 10 then r.getLsbD 4 else o.getLsbD (i - 10) := by
  show (show BitVec (6 + 1 + 5 + 4) from o ++ r.extractLsb' 4 1 ++ d ++ r.extractLsb' 0 4)[i]'h = _
  simp only [BitVec.getElem_append]
  interval_cases i <;> simp

theorem encodeRK_bit (o : BitVec 4) (d : Reg) (k : Byte) (i : Nat) (h : i < 16) :
    (encodeRK o d k)[i] = if i < 4 then k.getLsbD i else if i < 8 then d.getLsbD (i - 4)
      else if i < 12 then k.getLsbD (i - 4) else o.getLsbD (i - 12) := by
  show (show BitVec (4 + 4 + 4 + 4) from
    o ++ k.extractLsb' 4 4 ++ d.extractLsb' 0 4 ++ k.extractLsb' 0 4)[i]'h = _
  simp only [BitVec.getElem_append]
  interval_cases i <;> simp

theorem encodeR1_bit (o : BitVec 7) (d : Reg) (low : BitVec 4) (i : Nat) (h : i < 16) :
    (encodeR1 o d low)[i] = if i < 4 then low.getLsbD i else if i < 9 then d.getLsbD (i - 4)
      else o.getLsbD (i - 9) := by
  show (show BitVec (7 + 5 + 4) from o ++ d ++ low)[i]'h = _
  simp only [BitVec.getElem_append]
  interval_cases i <;> simp

theorem encodeIO_bit (o : BitVec 5) (d : Reg) (a : BitVec 6) (i : Nat) (h : i < 16) :
    (encodeIO o d a)[i] = if i < 4 then a.getLsbD i else if i < 9 then d.getLsbD (i - 4)
      else if i < 11 then a.getLsbD (i - 5) else o.getLsbD (i - 11) := by
  show (show BitVec (5 + 2 + 5 + 4) from o ++ a.extractLsb' 4 2 ++ d ++ a.extractLsb' 0 4)[i]'h = _
  simp only [BitVec.getElem_append]
  interval_cases i <;> simp

theorem encodeBR_bit (o : BitVec 6) (b : BitVec 3) (k : BitVec 7) (i : Nat) (h : i < 16) :
    (encodeBR o b k)[i] = if i < 3 then b.getLsbD i else if i < 10 then k.getLsbD (i - 3) else o.getLsbD (i - 10) := by
  show (show BitVec (6 + 7 + 3) from o ++ k ++ b)[i]'h = _
  simp only [BitVec.getElem_append]
  interval_cases i <;> simp

/-- RJMP's word. -/
def encodeK12 (k : BitVec 12) : Word := 0b1100#4 ++ k

theorem encodeK12_bit (k : BitVec 12) (i : Nat) (h : i < 16) :
    (encodeK12 k)[i] = if i < 12 then k.getLsbD i else decide (14 ≤ i) := by
  show (show BitVec (4 + 12) from 0b1100#4 ++ k)[i]'h = _
  simp only [BitVec.getElem_append]
  interval_cases i <;> simp

/-- The first word of JMP and CALL. -/
def firstK22 (o : BitVec 3) (k : PcWord) : Word := 0b1001010#7 ++ k.extractLsb' 17 5 ++ o ++ k.extractLsb' 16 1

theorem firstK22_bit (o : BitVec 3) (k : PcWord) (i : Nat) (h : i < 16) :
    (firstK22 o k)[i] = if i < 1 then k.getLsbD 16 else if i < 4 then o.getLsbD (i - 1)
      else if i < 9 then k.getLsbD (13 + i) else (0b1001010#7).getLsbD (i - 9) := by
  show (show BitVec (7 + 5 + 3 + 1) from
    0b1001010#7 ++ k.extractLsb' 17 5 ++ o ++ k.extractLsb' 16 1)[i]'h = _
  simp only [BitVec.getElem_append]
  interval_cases i <;> simp

theorem encodeK22_eq (o : BitVec 3) (k : PcWord) : encodeK22 o k = [firstK22 o k, k.extractLsb' 0 16] := rfl

/-! ### Fields read back -/

/-- A word's level-1 key. -/
theorem bucketOf_encodeRR (o : BitVec 6) (d r : Reg) : bucketOf (encodeRR o d r) = o.toNat := by
  rw [bucketOf]
  congr 1
  ext i hi
  interval_cases i <;> simp [encodeRR_bit]

theorem fieldD5_encodeRR (o : BitVec 6) (d r : Reg) : fieldD5 (encodeRR o d r) = d := by
  ext i hi
  interval_cases i <;> simp [fieldD5, encodeRR_bit]

theorem fieldR5_encodeRR (o : BitVec 6) (d r : Reg) : fieldR5 (encodeRR o d r) = r := by
  ext i hi
  interval_cases i <;> simp [fieldR5_bit, encodeRR_bit]

/-- Format RK's two top key bits are the immediate's. -/
theorem bucketOf_encodeRK (o : BitVec 4) (d : Reg) (k : Byte) :
    bucketOf (encodeRK o d k) = 4 * o.toNat + (k.extractLsb' 6 2).toNat := by
  have h : (encodeRK o d k).extractLsb' 10 6 = o ++ k.extractLsb' 6 2 := by
    ext i hi
    rw [BitVec.getElem_append]
    interval_cases i <;> simp [encodeRK_bit]
  rw [bucketOf, h, BitVec.toNat_append, ← Nat.shiftLeft_add_eq_or_of_lt (k.extractLsb' 6 2).isLt, Nat.shiftLeft_eq]
  omega

theorem fieldD4_encodeRK (o : BitVec 4) (d : Reg) (k : Byte) (h : upperReg d = true) :
    fieldD4 (encodeRK o d k) = d := by
  have h4 : d[4] = true := by
    revert h
    revert d
    decide
  ext i hi
  interval_cases i <;> simp [fieldD4_bit, encodeRK_bit, h4]

theorem fieldK8_encodeRK (o : BitVec 4) (d : Reg) (k : Byte) : fieldK8 (encodeRK o d k) = k := by
  ext i hi
  interval_cases i <;> simp [fieldK8_bit, encodeRK_bit]

theorem bucketOf_encodeR1 (o : BitVec 7) (d : Reg) (low : BitVec 4) :
    bucketOf (encodeR1 o d low) = (o.extractLsb' 1 6).toNat := by
  rw [bucketOf]
  congr 1
  ext i hi
  interval_cases i <;> simp [encodeR1_bit]

theorem fieldD5_encodeR1 (o : BitVec 7) (d : Reg) (low : BitVec 4) : fieldD5 (encodeR1 o d low) = d := by
  ext i hi
  interval_cases i <;> simp [fieldD5, encodeR1_bit]

/-- The bits the one-register disambiguators look at. -/
theorem encodeR1_mask (o : BitVec 7) (d : Reg) (low : BitVec 4) :
    encodeR1 o d low &&& 0xFE0F#16 = encodeR1 o 0 low := by
  ext i hi
  rw [BitVec.getElem_and, encodeR1_bit, encodeR1_bit]
  interval_cases i <;> simp

theorem bucketOf_encodeIO (o : BitVec 5) (d : Reg) (a : BitVec 6) :
    bucketOf (encodeIO o d a) = 2 * o.toNat + (a.extractLsb' 5 1).toNat := by
  have h : (encodeIO o d a).extractLsb' 10 6 = o ++ a.extractLsb' 5 1 := by
    ext i hi
    rw [BitVec.getElem_append]
    interval_cases i <;> simp [encodeIO_bit]
  rw [bucketOf, h, BitVec.toNat_append, ← Nat.shiftLeft_add_eq_or_of_lt (a.extractLsb' 5 1).isLt, Nat.shiftLeft_eq]
  omega

theorem fieldD5_encodeIO (o : BitVec 5) (d : Reg) (a : BitVec 6) : fieldD5 (encodeIO o d a) = d := by
  ext i hi
  interval_cases i <;> simp [fieldD5, encodeIO_bit]

theorem fieldA6_encodeIO (o : BitVec 5) (d : Reg) (a : BitVec 6) : fieldA6 (encodeIO o d a) = a := by
  ext i hi
  interval_cases i <;> simp [fieldA6_bit, encodeIO_bit]

theorem bucketOf_encodeBR (o : BitVec 6) (b : BitVec 3) (k : BitVec 7) : bucketOf (encodeBR o b k) = o.toNat := by
  rw [bucketOf]
  congr 1
  ext i hi
  interval_cases i <;> simp [encodeBR_bit]

theorem fieldS3_encodeBR (o : BitVec 6) (b : BitVec 3) (k : BitVec 7) : fieldS3 (encodeBR o b k) = b := by
  ext i hi
  interval_cases i <;> simp [fieldS3, encodeBR_bit]

theorem fieldK7_encodeBR (o : BitVec 6) (b : BitVec 3) (k : BitVec 7) : fieldK7 (encodeBR o b k) = k := by
  ext i hi
  interval_cases i <;> simp [fieldK7, encodeBR_bit]

theorem bucketOf_encodeK12 (k : BitVec 12) : bucketOf (encodeK12 k) = 0x30 + (k.extractLsb' 10 2).toNat := by
  have h : (encodeK12 k).extractLsb' 10 6 = 0b1100#4 ++ k.extractLsb' 10 2 := by
    ext i hi
    rw [BitVec.getElem_append]
    interval_cases i <;> simp [encodeK12_bit]
  rw [bucketOf, h, BitVec.toNat_append, ← Nat.shiftLeft_add_eq_or_of_lt (k.extractLsb' 10 2).isLt, Nat.shiftLeft_eq]
  rfl

theorem fieldK12_encodeK12 (k : BitVec 12) : fieldK12 (encodeK12 k) = k := by
  ext i hi
  interval_cases i <;> simp [fieldK12, encodeK12_bit]

theorem bucketOf_firstK22 (o : BitVec 3) (k : PcWord) : bucketOf (firstK22 o k) = 0x25 := by
  rw [bucketOf, show (0x25 : Nat) = (0x25#6).toNat from rfl]
  congr 1
  ext i hi
  interval_cases i <;> simp [firstK22_bit]

theorem fieldK22_firstK22 (o : BitVec 3) (k : PcWord) : fieldK22 (firstK22 o k) (k.extractLsb' 0 16) = k := by
  ext i hi
  interval_cases i <;> simp [fieldK22_bit, firstK22_bit]

end Sys2Proof
end

