-- ==== Sys2Proof/Laws/State.lean ====
section
/-!
SUPPORT. What each update of State does to each field, so that no proof unfolds a record update.
-/

namespace Sys2Proof.Machine

/-! `State.setPc` -/

@[simp] theorem State.setPc_cfg (s : State) (p : PcWord) :
    (s.setPc p).cfg = s.cfg := rfl

@[simp] theorem State.setPc_flash (s : State) (p : PcWord) :
    (s.setPc p).flash = s.flash := rfl

@[simp] theorem State.setPc_ds (s : State) (p : PcWord) :
    (s.setPc p).ds = s.ds := rfl

@[simp] theorem State.setPc_pc (s : State) (p : PcWord) :
    (s.setPc p).pc = p := rfl

@[simp] theorem State.setPc_fault (s : State) (p : PcWord) :
    (s.setPc p).fault = s.fault := rfl

@[simp] theorem State.setPc_callStack (s : State) (p : PcWord) :
    (s.setPc p).callStack = s.callStack := rfl

@[simp] theorem State.setPc_breakpoints (s : State) (p : PcWord) :
    (s.setPc p).breakpoints = s.breakpoints := rfl

@[simp] theorem State.setPc_instrCount (s : State) (p : PcWord) :
    (s.setPc p).instrCount = s.instrCount := rfl

@[simp] theorem State.setPc_delayedCycles (s : State) (p : PcWord) :
    (s.setPc p).delayedCycles = s.delayedCycles := rfl

@[simp] theorem State.setPc_loads (s : State) (p : PcWord) :
    (s.setPc p).loads = s.loads := rfl

@[simp] theorem State.setPc_draws (s : State) (p : PcWord) :
    (s.setPc p).draws = s.draws := rfl

/-! `State.advance` -/

@[simp] theorem State.advance_cfg (s : State) (n : PcWord) :
    (s.advance n).cfg = s.cfg := rfl

@[simp] theorem State.advance_flash (s : State) (n : PcWord) :
    (s.advance n).flash = s.flash := rfl

@[simp] theorem State.advance_ds (s : State) (n : PcWord) :
    (s.advance n).ds = s.ds := rfl

@[simp] theorem State.advance_pc (s : State) (n : PcWord) :
    (s.advance n).pc = s.pc + n := rfl

@[simp] theorem State.advance_fault (s : State) (n : PcWord) :
    (s.advance n).fault = s.fault := rfl

@[simp] theorem State.advance_callStack (s : State) (n : PcWord) :
    (s.advance n).callStack = s.callStack := rfl

@[simp] theorem State.advance_breakpoints (s : State) (n : PcWord) :
    (s.advance n).breakpoints = s.breakpoints := rfl

@[simp] theorem State.advance_instrCount (s : State) (n : PcWord) :
    (s.advance n).instrCount = s.instrCount := rfl

@[simp] theorem State.advance_delayedCycles (s : State) (n : PcWord) :
    (s.advance n).delayedCycles = s.delayedCycles := rfl

@[simp] theorem State.advance_loads (s : State) (n : PcWord) :
    (s.advance n).loads = s.loads := rfl

@[simp] theorem State.advance_draws (s : State) (n : PcWord) :
    (s.advance n).draws = s.draws := rfl

/-! `State.putByte` -/

@[simp] theorem State.putByte_cfg (s : State) (a : Nat) (v : Byte) :
    (s.putByte a v).cfg = s.cfg := rfl

@[simp] theorem State.putByte_flash (s : State) (a : Nat) (v : Byte) :
    (s.putByte a v).flash = s.flash := rfl

@[simp] theorem State.putByte_ds (s : State) (a : Nat) (v : Byte) :
    (s.putByte a v).ds = Memory.writeDs s.ds a v := rfl

@[simp] theorem State.putByte_pc (s : State) (a : Nat) (v : Byte) :
    (s.putByte a v).pc = s.pc := rfl

@[simp] theorem State.putByte_fault (s : State) (a : Nat) (v : Byte) :
    (s.putByte a v).fault = s.fault := rfl

@[simp] theorem State.putByte_callStack (s : State) (a : Nat) (v : Byte) :
    (s.putByte a v).callStack = s.callStack := rfl

@[simp] theorem State.putByte_breakpoints (s : State) (a : Nat) (v : Byte) :
    (s.putByte a v).breakpoints = s.breakpoints := rfl

@[simp] theorem State.putByte_instrCount (s : State) (a : Nat) (v : Byte) :
    (s.putByte a v).instrCount = s.instrCount := rfl

@[simp] theorem State.putByte_delayedCycles (s : State) (a : Nat) (v : Byte) :
    (s.putByte a v).delayedCycles = s.delayedCycles := rfl

@[simp] theorem State.putByte_loads (s : State) (a : Nat) (v : Byte) :
    (s.putByte a v).loads = s.loads := rfl

@[simp] theorem State.putByte_draws (s : State) (a : Nat) (v : Byte) :
    (s.putByte a v).draws = s.draws := rfl

/-! `State.setReg` -/

@[simp] theorem State.setReg_cfg (s : State) (n : Reg) (v : Byte) :
    (s.setReg n v).cfg = s.cfg := rfl

@[simp] theorem State.setReg_flash (s : State) (n : Reg) (v : Byte) :
    (s.setReg n v).flash = s.flash := rfl

@[simp] theorem State.setReg_ds (s : State) (n : Reg) (v : Byte) :
    (s.setReg n v).ds = Memory.writeDs s.ds n.toNat v := rfl

@[simp] theorem State.setReg_pc (s : State) (n : Reg) (v : Byte) :
    (s.setReg n v).pc = s.pc := rfl

@[simp] theorem State.setReg_fault (s : State) (n : Reg) (v : Byte) :
    (s.setReg n v).fault = s.fault := rfl

@[simp] theorem State.setReg_callStack (s : State) (n : Reg) (v : Byte) :
    (s.setReg n v).callStack = s.callStack := rfl

@[simp] theorem State.setReg_breakpoints (s : State) (n : Reg) (v : Byte) :
    (s.setReg n v).breakpoints = s.breakpoints := rfl

@[simp] theorem State.setReg_instrCount (s : State) (n : Reg) (v : Byte) :
    (s.setReg n v).instrCount = s.instrCount := rfl

@[simp] theorem State.setReg_delayedCycles (s : State) (n : Reg) (v : Byte) :
    (s.setReg n v).delayedCycles = s.delayedCycles := rfl

@[simp] theorem State.setReg_loads (s : State) (n : Reg) (v : Byte) :
    (s.setReg n v).loads = s.loads := rfl

@[simp] theorem State.setReg_draws (s : State) (n : Reg) (v : Byte) :
    (s.setReg n v).draws = s.draws := rfl

/-! `State.setSreg` -/

@[simp] theorem State.setSreg_cfg (s : State) (v : Byte) :
    (s.setSreg v).cfg = s.cfg := rfl

@[simp] theorem State.setSreg_flash (s : State) (v : Byte) :
    (s.setSreg v).flash = s.flash := rfl

@[simp] theorem State.setSreg_ds (s : State) (v : Byte) :
    (s.setSreg v).ds = Memory.writeDs s.ds sregAddr v := rfl

@[simp] theorem State.setSreg_pc (s : State) (v : Byte) :
    (s.setSreg v).pc = s.pc := rfl

@[simp] theorem State.setSreg_fault (s : State) (v : Byte) :
    (s.setSreg v).fault = s.fault := rfl

@[simp] theorem State.setSreg_callStack (s : State) (v : Byte) :
    (s.setSreg v).callStack = s.callStack := rfl

@[simp] theorem State.setSreg_breakpoints (s : State) (v : Byte) :
    (s.setSreg v).breakpoints = s.breakpoints := rfl

@[simp] theorem State.setSreg_instrCount (s : State) (v : Byte) :
    (s.setSreg v).instrCount = s.instrCount := rfl

@[simp] theorem State.setSreg_delayedCycles (s : State) (v : Byte) :
    (s.setSreg v).delayedCycles = s.delayedCycles := rfl

@[simp] theorem State.setSreg_loads (s : State) (v : Byte) :
    (s.setSreg v).loads = s.loads := rfl

@[simp] theorem State.setSreg_draws (s : State) (v : Byte) :
    (s.setSreg v).draws = s.draws := rfl

/-! `State.setRampz` -/

@[simp] theorem State.setRampz_cfg (s : State) (v : Byte) :
    (s.setRampz v).cfg = s.cfg := rfl

@[simp] theorem State.setRampz_flash (s : State) (v : Byte) :
    (s.setRampz v).flash = s.flash := rfl

@[simp] theorem State.setRampz_ds (s : State) (v : Byte) :
    (s.setRampz v).ds = Memory.writeDs s.ds rampzAddr v := rfl

@[simp] theorem State.setRampz_pc (s : State) (v : Byte) :
    (s.setRampz v).pc = s.pc := rfl

@[simp] theorem State.setRampz_fault (s : State) (v : Byte) :
    (s.setRampz v).fault = s.fault := rfl

@[simp] theorem State.setRampz_callStack (s : State) (v : Byte) :
    (s.setRampz v).callStack = s.callStack := rfl

@[simp] theorem State.setRampz_breakpoints (s : State) (v : Byte) :
    (s.setRampz v).breakpoints = s.breakpoints := rfl

@[simp] theorem State.setRampz_instrCount (s : State) (v : Byte) :
    (s.setRampz v).instrCount = s.instrCount := rfl

@[simp] theorem State.setRampz_delayedCycles (s : State) (v : Byte) :
    (s.setRampz v).delayedCycles = s.delayedCycles := rfl

@[simp] theorem State.setRampz_loads (s : State) (v : Byte) :
    (s.setRampz v).loads = s.loads := rfl

@[simp] theorem State.setRampz_draws (s : State) (v : Byte) :
    (s.setRampz v).draws = s.draws := rfl

/-! `State.setFlags` -/

@[simp] theorem State.setFlags_cfg (s : State) (f : Flags) :
    (s.setFlags f).cfg = s.cfg := rfl

@[simp] theorem State.setFlags_flash (s : State) (f : Flags) :
    (s.setFlags f).flash = s.flash := rfl

@[simp] theorem State.setFlags_ds (s : State) (f : Flags) :
    (s.setFlags f).ds = Memory.writeDs s.ds sregAddr (packFlags s.sreg f) := rfl

@[simp] theorem State.setFlags_pc (s : State) (f : Flags) :
    (s.setFlags f).pc = s.pc := rfl

@[simp] theorem State.setFlags_fault (s : State) (f : Flags) :
    (s.setFlags f).fault = s.fault := rfl

@[simp] theorem State.setFlags_callStack (s : State) (f : Flags) :
    (s.setFlags f).callStack = s.callStack := rfl

@[simp] theorem State.setFlags_breakpoints (s : State) (f : Flags) :
    (s.setFlags f).breakpoints = s.breakpoints := rfl

@[simp] theorem State.setFlags_instrCount (s : State) (f : Flags) :
    (s.setFlags f).instrCount = s.instrCount := rfl

@[simp] theorem State.setFlags_delayedCycles (s : State) (f : Flags) :
    (s.setFlags f).delayedCycles = s.delayedCycles := rfl

@[simp] theorem State.setFlags_loads (s : State) (f : Flags) :
    (s.setFlags f).loads = s.loads := rfl

@[simp] theorem State.setFlags_draws (s : State) (f : Flags) :
    (s.setFlags f).draws = s.draws := rfl

/-! `State.setSp` -/

@[simp] theorem State.setSp_cfg (s : State) (v : Word) :
    (s.setSp v).cfg = s.cfg := rfl

@[simp] theorem State.setSp_flash (s : State) (v : Word) :
    (s.setSp v).flash = s.flash := rfl

@[simp] theorem State.setSp_ds (s : State) (v : Word) :
    (s.setSp v).ds = Memory.writeDs (Memory.writeDs s.ds splAddr (lowByte v)) sphAddr (highByte v) := rfl

@[simp] theorem State.setSp_pc (s : State) (v : Word) :
    (s.setSp v).pc = s.pc := rfl

@[simp] theorem State.setSp_fault (s : State) (v : Word) :
    (s.setSp v).fault = s.fault := rfl

@[simp] theorem State.setSp_callStack (s : State) (v : Word) :
    (s.setSp v).callStack = s.callStack := rfl

@[simp] theorem State.setSp_breakpoints (s : State) (v : Word) :
    (s.setSp v).breakpoints = s.breakpoints := rfl

@[simp] theorem State.setSp_instrCount (s : State) (v : Word) :
    (s.setSp v).instrCount = s.instrCount := rfl

@[simp] theorem State.setSp_delayedCycles (s : State) (v : Word) :
    (s.setSp v).delayedCycles = s.delayedCycles := rfl

@[simp] theorem State.setSp_loads (s : State) (v : Word) :
    (s.setSp v).loads = s.loads := rfl

@[simp] theorem State.setSp_draws (s : State) (v : Word) :
    (s.setSp v).draws = s.draws := rfl

/-! `State.setPtr` -/

@[simp] theorem State.setPtr_cfg (s : State) (p : Ptr) (v : Word) :
    (s.setPtr p v).cfg = s.cfg := rfl

@[simp] theorem State.setPtr_flash (s : State) (p : Ptr) (v : Word) :
    (s.setPtr p v).flash = s.flash := rfl

@[simp] theorem State.setPtr_ds (s : State) (p : Ptr) (v : Word) :
    (s.setPtr p v).ds = Memory.writeDs (Memory.writeDs s.ds (ptrLow p).toNat (lowByte v)) (ptrHigh p).toNat (highByte v) := rfl

@[simp] theorem State.setPtr_pc (s : State) (p : Ptr) (v : Word) :
    (s.setPtr p v).pc = s.pc := rfl

@[simp] theorem State.setPtr_fault (s : State) (p : Ptr) (v : Word) :
    (s.setPtr p v).fault = s.fault := rfl

@[simp] theorem State.setPtr_callStack (s : State) (p : Ptr) (v : Word) :
    (s.setPtr p v).callStack = s.callStack := rfl

@[simp] theorem State.setPtr_breakpoints (s : State) (p : Ptr) (v : Word) :
    (s.setPtr p v).breakpoints = s.breakpoints := rfl

@[simp] theorem State.setPtr_instrCount (s : State) (p : Ptr) (v : Word) :
    (s.setPtr p v).instrCount = s.instrCount := rfl

@[simp] theorem State.setPtr_delayedCycles (s : State) (p : Ptr) (v : Word) :
    (s.setPtr p v).delayedCycles = s.delayedCycles := rfl

@[simp] theorem State.setPtr_loads (s : State) (p : Ptr) (v : Word) :
    (s.setPtr p v).loads = s.loads := rfl

@[simp] theorem State.setPtr_draws (s : State) (p : Ptr) (v : Word) :
    (s.setPtr p v).draws = s.draws := rfl

/-! `State.drawPtr` -/

@[simp] theorem State.drawPtr_cfg (s : State) (p : Ptr) :
    (s.drawPtr p).cfg = s.cfg := rfl

@[simp] theorem State.drawPtr_flash (s : State) (p : Ptr) :
    (s.drawPtr p).flash = s.flash := rfl

@[simp] theorem State.drawPtr_pc (s : State) (p : Ptr) :
    (s.drawPtr p).pc = s.pc := rfl

@[simp] theorem State.drawPtr_fault (s : State) (p : Ptr) :
    (s.drawPtr p).fault = s.fault := rfl

@[simp] theorem State.drawPtr_callStack (s : State) (p : Ptr) :
    (s.drawPtr p).callStack = s.callStack := rfl

@[simp] theorem State.drawPtr_breakpoints (s : State) (p : Ptr) :
    (s.drawPtr p).breakpoints = s.breakpoints := rfl

@[simp] theorem State.drawPtr_instrCount (s : State) (p : Ptr) :
    (s.drawPtr p).instrCount = s.instrCount := rfl

@[simp] theorem State.drawPtr_delayedCycles (s : State) (p : Ptr) :
    (s.drawPtr p).delayedCycles = s.delayedCycles := rfl

@[simp] theorem State.drawPtr_loads (s : State) (p : Ptr) :
    (s.drawPtr p).loads = s.loads := rfl

@[simp] theorem State.drawPtr_draws (s : State) (p : Ptr) :
    (s.drawPtr p).draws = s.draws + 2 := rfl

/-! `State.setRampzZ` -/

@[simp] theorem State.setRampzZ_cfg (s : State) (v : BitVec 24) :
    (s.setRampzZ v).cfg = s.cfg := rfl

@[simp] theorem State.setRampzZ_flash (s : State) (v : BitVec 24) :
    (s.setRampzZ v).flash = s.flash := rfl

@[simp] theorem State.setRampzZ_pc (s : State) (v : BitVec 24) :
    (s.setRampzZ v).pc = s.pc := rfl

@[simp] theorem State.setRampzZ_fault (s : State) (v : BitVec 24) :
    (s.setRampzZ v).fault = s.fault := rfl

@[simp] theorem State.setRampzZ_callStack (s : State) (v : BitVec 24) :
    (s.setRampzZ v).callStack = s.callStack := rfl

@[simp] theorem State.setRampzZ_breakpoints (s : State) (v : BitVec 24) :
    (s.setRampzZ v).breakpoints = s.breakpoints := rfl

@[simp] theorem State.setRampzZ_instrCount (s : State) (v : BitVec 24) :
    (s.setRampzZ v).instrCount = s.instrCount := rfl

@[simp] theorem State.setRampzZ_delayedCycles (s : State) (v : BitVec 24) :
    (s.setRampzZ v).delayedCycles = s.delayedCycles := rfl

@[simp] theorem State.setRampzZ_loads (s : State) (v : BitVec 24) :
    (s.setRampzZ v).loads = s.loads := rfl

@[simp] theorem State.setRampzZ_draws (s : State) (v : BitVec 24) :
    (s.setRampzZ v).draws = s.draws := rfl

/-! `State.drawRampzZ` -/

@[simp] theorem State.drawRampzZ_cfg (s : State) :
    (s.drawRampzZ).cfg = s.cfg := rfl

@[simp] theorem State.drawRampzZ_flash (s : State) :
    (s.drawRampzZ).flash = s.flash := rfl

@[simp] theorem State.drawRampzZ_pc (s : State) :
    (s.drawRampzZ).pc = s.pc := rfl

@[simp] theorem State.drawRampzZ_fault (s : State) :
    (s.drawRampzZ).fault = s.fault := rfl

@[simp] theorem State.drawRampzZ_callStack (s : State) :
    (s.drawRampzZ).callStack = s.callStack := rfl

@[simp] theorem State.drawRampzZ_breakpoints (s : State) :
    (s.drawRampzZ).breakpoints = s.breakpoints := rfl

@[simp] theorem State.drawRampzZ_instrCount (s : State) :
    (s.drawRampzZ).instrCount = s.instrCount := rfl

@[simp] theorem State.drawRampzZ_delayedCycles (s : State) :
    (s.drawRampzZ).delayedCycles = s.delayedCycles := rfl

@[simp] theorem State.drawRampzZ_loads (s : State) :
    (s.drawRampzZ).loads = s.loads := rfl

@[simp] theorem State.drawRampzZ_draws (s : State) :
    (s.drawRampzZ).draws = s.draws + 3 := rfl

/-! `State.aluWrite` -/

@[simp] theorem State.aluWrite_cfg (s : State) (d : Reg) (res : Byte) (f : Flags) :
    (s.aluWrite d res f).cfg = s.cfg := rfl

@[simp] theorem State.aluWrite_flash (s : State) (d : Reg) (res : Byte) (f : Flags) :
    (s.aluWrite d res f).flash = s.flash := rfl

@[simp] theorem State.aluWrite_pc (s : State) (d : Reg) (res : Byte) (f : Flags) :
    (s.aluWrite d res f).pc = s.pc + 1 := rfl

@[simp] theorem State.aluWrite_fault (s : State) (d : Reg) (res : Byte) (f : Flags) :
    (s.aluWrite d res f).fault = s.fault := rfl

@[simp] theorem State.aluWrite_callStack (s : State) (d : Reg) (res : Byte) (f : Flags) :
    (s.aluWrite d res f).callStack = s.callStack := rfl

@[simp] theorem State.aluWrite_breakpoints (s : State) (d : Reg) (res : Byte) (f : Flags) :
    (s.aluWrite d res f).breakpoints = s.breakpoints := rfl

@[simp] theorem State.aluWrite_instrCount (s : State) (d : Reg) (res : Byte) (f : Flags) :
    (s.aluWrite d res f).instrCount = s.instrCount := rfl

@[simp] theorem State.aluWrite_delayedCycles (s : State) (d : Reg) (res : Byte) (f : Flags) :
    (s.aluWrite d res f).delayedCycles = s.delayedCycles := rfl

@[simp] theorem State.aluWrite_loads (s : State) (d : Reg) (res : Byte) (f : Flags) :
    (s.aluWrite d res f).loads = s.loads := rfl

@[simp] theorem State.aluWrite_draws (s : State) (d : Reg) (res : Byte) (f : Flags) :
    (s.aluWrite d res f).draws = s.draws := rfl

/-! `State.aluCompare` -/

@[simp] theorem State.aluCompare_cfg (s : State) (f : Flags) :
    (s.aluCompare f).cfg = s.cfg := rfl

@[simp] theorem State.aluCompare_flash (s : State) (f : Flags) :
    (s.aluCompare f).flash = s.flash := rfl

@[simp] theorem State.aluCompare_pc (s : State) (f : Flags) :
    (s.aluCompare f).pc = s.pc + 1 := rfl

@[simp] theorem State.aluCompare_fault (s : State) (f : Flags) :
    (s.aluCompare f).fault = s.fault := rfl

@[simp] theorem State.aluCompare_callStack (s : State) (f : Flags) :
    (s.aluCompare f).callStack = s.callStack := rfl

@[simp] theorem State.aluCompare_breakpoints (s : State) (f : Flags) :
    (s.aluCompare f).breakpoints = s.breakpoints := rfl

@[simp] theorem State.aluCompare_instrCount (s : State) (f : Flags) :
    (s.aluCompare f).instrCount = s.instrCount := rfl

@[simp] theorem State.aluCompare_delayedCycles (s : State) (f : Flags) :
    (s.aluCompare f).delayedCycles = s.delayedCycles := rfl

@[simp] theorem State.aluCompare_loads (s : State) (f : Flags) :
    (s.aluCompare f).loads = s.loads := rfl

@[simp] theorem State.aluCompare_draws (s : State) (f : Flags) :
    (s.aluCompare f).draws = s.draws := rfl

/-! `State.pushCall` -/

@[simp] theorem State.pushCall_cfg (s : State) (ra : PcWord) :
    (s.pushCall ra).cfg = s.cfg := rfl

@[simp] theorem State.pushCall_flash (s : State) (ra : PcWord) :
    (s.pushCall ra).flash = s.flash := rfl

@[simp] theorem State.pushCall_ds (s : State) (ra : PcWord) :
    (s.pushCall ra).ds = s.ds := rfl

@[simp] theorem State.pushCall_pc (s : State) (ra : PcWord) :
    (s.pushCall ra).pc = s.pc := rfl

@[simp] theorem State.pushCall_fault (s : State) (ra : PcWord) :
    (s.pushCall ra).fault = s.fault := rfl

@[simp] theorem State.pushCall_callStack (s : State) (ra : PcWord) :
    (s.pushCall ra).callStack = s.callStack ++ [ra] := rfl

@[simp] theorem State.pushCall_breakpoints (s : State) (ra : PcWord) :
    (s.pushCall ra).breakpoints = s.breakpoints := rfl

@[simp] theorem State.pushCall_instrCount (s : State) (ra : PcWord) :
    (s.pushCall ra).instrCount = s.instrCount := rfl

@[simp] theorem State.pushCall_delayedCycles (s : State) (ra : PcWord) :
    (s.pushCall ra).delayedCycles = s.delayedCycles := rfl

@[simp] theorem State.pushCall_loads (s : State) (ra : PcWord) :
    (s.pushCall ra).loads = s.loads := rfl

@[simp] theorem State.pushCall_draws (s : State) (ra : PcWord) :
    (s.pushCall ra).draws = s.draws := rfl

/-! `State.popCall` -/

@[simp] theorem State.popCall_cfg (s : State) :
    (s.popCall).cfg = s.cfg := rfl

@[simp] theorem State.popCall_flash (s : State) :
    (s.popCall).flash = s.flash := rfl

@[simp] theorem State.popCall_ds (s : State) :
    (s.popCall).ds = s.ds := rfl

@[simp] theorem State.popCall_pc (s : State) :
    (s.popCall).pc = s.pc := rfl

@[simp] theorem State.popCall_fault (s : State) :
    (s.popCall).fault = s.fault := rfl

@[simp] theorem State.popCall_callStack (s : State) :
    (s.popCall).callStack = s.callStack.dropLast := rfl

@[simp] theorem State.popCall_breakpoints (s : State) :
    (s.popCall).breakpoints = s.breakpoints := rfl

@[simp] theorem State.popCall_instrCount (s : State) :
    (s.popCall).instrCount = s.instrCount := rfl

@[simp] theorem State.popCall_delayedCycles (s : State) :
    (s.popCall).delayedCycles = s.delayedCycles := rfl

@[simp] theorem State.popCall_loads (s : State) :
    (s.popCall).loads = s.loads := rfl

@[simp] theorem State.popCall_draws (s : State) :
    (s.popCall).draws = s.draws := rfl

/-! `State.tick` -/

@[simp] theorem State.tick_cfg (s : State) (n : Nat) :
    (s.tick n).cfg = s.cfg := rfl

@[simp] theorem State.tick_flash (s : State) (n : Nat) :
    (s.tick n).flash = s.flash := rfl

@[simp] theorem State.tick_ds (s : State) (n : Nat) :
    (s.tick n).ds = s.ds := rfl

@[simp] theorem State.tick_pc (s : State) (n : Nat) :
    (s.tick n).pc = s.pc := rfl

@[simp] theorem State.tick_fault (s : State) (n : Nat) :
    (s.tick n).fault = s.fault := rfl

@[simp] theorem State.tick_callStack (s : State) (n : Nat) :
    (s.tick n).callStack = s.callStack := rfl

@[simp] theorem State.tick_breakpoints (s : State) (n : Nat) :
    (s.tick n).breakpoints = s.breakpoints := rfl

@[simp] theorem State.tick_instrCount (s : State) (n : Nat) :
    (s.tick n).instrCount = s.instrCount := rfl

@[simp] theorem State.tick_delayedCycles (s : State) (n : Nat) :
    (s.tick n).delayedCycles = s.delayedCycles := rfl

@[simp] theorem State.tick_loads (s : State) (n : Nat) :
    (s.tick n).loads = s.loads := rfl

@[simp] theorem State.tick_draws (s : State) (n : Nat) :
    (s.tick n).draws = s.draws + n := rfl

/-! `State.count` -/

@[simp] theorem State.count_cfg (s : State) :
    (s.count).cfg = s.cfg := rfl

@[simp] theorem State.count_flash (s : State) :
    (s.count).flash = s.flash := rfl

@[simp] theorem State.count_ds (s : State) :
    (s.count).ds = s.ds := rfl

@[simp] theorem State.count_pc (s : State) :
    (s.count).pc = s.pc := rfl

@[simp] theorem State.count_fault (s : State) :
    (s.count).fault = s.fault := rfl

@[simp] theorem State.count_callStack (s : State) :
    (s.count).callStack = s.callStack := rfl

@[simp] theorem State.count_breakpoints (s : State) :
    (s.count).breakpoints = s.breakpoints := rfl

@[simp] theorem State.count_instrCount (s : State) :
    (s.count).instrCount = s.instrCount + 1 := rfl

@[simp] theorem State.count_delayedCycles (s : State) :
    (s.count).delayedCycles = s.delayedCycles := rfl

@[simp] theorem State.count_loads (s : State) :
    (s.count).loads = s.loads := rfl

@[simp] theorem State.count_draws (s : State) :
    (s.count).draws = s.draws := rfl

/-! `State.takeFault` -/

@[simp] theorem State.takeFault_cfg (s : State) (op : Option Word) (r : Raise) :
    (s.takeFault op r).cfg = s.cfg := rfl

@[simp] theorem State.takeFault_flash (s : State) (op : Option Word) (r : Raise) :
    (s.takeFault op r).flash = s.flash := rfl

@[simp] theorem State.takeFault_ds (s : State) (op : Option Word) (r : Raise) :
    (s.takeFault op r).ds = s.ds := rfl

@[simp] theorem State.takeFault_pc (s : State) (op : Option Word) (r : Raise) :
    (s.takeFault op r).pc = Config.pcAfterFault s.draws := rfl

@[simp] theorem State.takeFault_fault (s : State) (op : Option Word) (r : Raise) :
    (s.takeFault op r).fault = some { kind := r.kind, addr := s.pc, op := op, info := r.info } := rfl

@[simp] theorem State.takeFault_callStack (s : State) (op : Option Word) (r : Raise) :
    (s.takeFault op r).callStack = s.callStack := rfl

@[simp] theorem State.takeFault_breakpoints (s : State) (op : Option Word) (r : Raise) :
    (s.takeFault op r).breakpoints = s.breakpoints := rfl

@[simp] theorem State.takeFault_instrCount (s : State) (op : Option Word) (r : Raise) :
    (s.takeFault op r).instrCount = s.instrCount := rfl

@[simp] theorem State.takeFault_delayedCycles (s : State) (op : Option Word) (r : Raise) :
    (s.takeFault op r).delayedCycles = s.delayedCycles := rfl

@[simp] theorem State.takeFault_loads (s : State) (op : Option Word) (r : Raise) :
    (s.takeFault op r).loads = s.loads := rfl

@[simp] theorem State.takeFault_draws (s : State) (op : Option Word) (r : Raise) :
    (s.takeFault op r).draws = s.draws + 1 := rfl

/-! `State.hostReset` -/

@[simp] theorem State.hostReset_cfg (s : State) :
    (s.hostReset).cfg = s.cfg := rfl

@[simp] theorem State.hostReset_flash (s : State) :
    (s.hostReset).flash = s.flash := rfl

@[simp] theorem State.hostReset_ds (s : State) :
    (s.hostReset).ds = [] := rfl

@[simp] theorem State.hostReset_pc (s : State) :
    (s.hostReset).pc = 0 := rfl

@[simp] theorem State.hostReset_fault (s : State) :
    (s.hostReset).fault = none := rfl

@[simp] theorem State.hostReset_callStack (s : State) :
    (s.hostReset).callStack = [] := rfl

@[simp] theorem State.hostReset_breakpoints (s : State) :
    (s.hostReset).breakpoints = s.breakpoints := rfl

@[simp] theorem State.hostReset_instrCount (s : State) :
    (s.hostReset).instrCount = s.instrCount := rfl

@[simp] theorem State.hostReset_delayedCycles (s : State) :
    (s.hostReset).delayedCycles = s.delayedCycles := rfl

@[simp] theorem State.hostReset_loads (s : State) :
    (s.hostReset).loads = s.loads := rfl

@[simp] theorem State.hostReset_draws (s : State) :
    (s.hostReset).draws = s.draws := rfl

/-! `State.placeFlashByte` -/

@[simp] theorem State.placeFlashByte_cfg (s : State) (b : Nat) (v : Byte) :
    (s.placeFlashByte b v).cfg = s.cfg := rfl

@[simp] theorem State.placeFlashByte_flash (s : State) (b : Nat) (v : Byte) :
    (s.placeFlashByte b v).flash = Memory.put s.flash b v := rfl

@[simp] theorem State.placeFlashByte_ds (s : State) (b : Nat) (v : Byte) :
    (s.placeFlashByte b v).ds = s.ds := rfl

@[simp] theorem State.placeFlashByte_pc (s : State) (b : Nat) (v : Byte) :
    (s.placeFlashByte b v).pc = s.pc := rfl

@[simp] theorem State.placeFlashByte_fault (s : State) (b : Nat) (v : Byte) :
    (s.placeFlashByte b v).fault = s.fault := rfl

@[simp] theorem State.placeFlashByte_callStack (s : State) (b : Nat) (v : Byte) :
    (s.placeFlashByte b v).callStack = s.callStack := rfl

@[simp] theorem State.placeFlashByte_breakpoints (s : State) (b : Nat) (v : Byte) :
    (s.placeFlashByte b v).breakpoints = s.breakpoints := rfl

@[simp] theorem State.placeFlashByte_instrCount (s : State) (b : Nat) (v : Byte) :
    (s.placeFlashByte b v).instrCount = s.instrCount := rfl

@[simp] theorem State.placeFlashByte_delayedCycles (s : State) (b : Nat) (v : Byte) :
    (s.placeFlashByte b v).delayedCycles = s.delayedCycles := rfl

@[simp] theorem State.placeFlashByte_loads (s : State) (b : Nat) (v : Byte) :
    (s.placeFlashByte b v).loads = s.loads := rfl

@[simp] theorem State.placeFlashByte_draws (s : State) (b : Nat) (v : Byte) :
    (s.placeFlashByte b v).draws = s.draws := rfl

/-! `State.beginLoad` -/

@[simp] theorem State.beginLoad_cfg (s : State) (covered : Nat → Bool) :
    (s.beginLoad covered).cfg = s.cfg := rfl

@[simp] theorem State.beginLoad_flash (s : State) (covered : Nat → Bool) :
    (s.beginLoad covered).flash = Memory.restrict s.flash (fun b => covered (b / 2)) := rfl

@[simp] theorem State.beginLoad_ds (s : State) (covered : Nat → Bool) :
    (s.beginLoad covered).ds = s.ds := rfl

@[simp] theorem State.beginLoad_pc (s : State) (covered : Nat → Bool) :
    (s.beginLoad covered).pc = s.pc := rfl

@[simp] theorem State.beginLoad_fault (s : State) (covered : Nat → Bool) :
    (s.beginLoad covered).fault = s.fault := rfl

@[simp] theorem State.beginLoad_callStack (s : State) (covered : Nat → Bool) :
    (s.beginLoad covered).callStack = s.callStack := rfl

@[simp] theorem State.beginLoad_breakpoints (s : State) (covered : Nat → Bool) :
    (s.beginLoad covered).breakpoints = s.breakpoints := rfl

@[simp] theorem State.beginLoad_instrCount (s : State) (covered : Nat → Bool) :
    (s.beginLoad covered).instrCount = s.instrCount := rfl

@[simp] theorem State.beginLoad_delayedCycles (s : State) (covered : Nat → Bool) :
    (s.beginLoad covered).delayedCycles = s.delayedCycles := rfl

@[simp] theorem State.beginLoad_loads (s : State) (covered : Nat → Bool) :
    (s.beginLoad covered).loads = s.loads + 1 := rfl

@[simp] theorem State.beginLoad_draws (s : State) (covered : Nat → Bool) :
    (s.beginLoad covered).draws = s.draws := rfl

/-! Reading DataSpace after an update that leaves it alone -/

@[simp] theorem State.setPc_byteAt (s : State) (p : PcWord) (a : Nat) :
    (s.setPc p).byteAt a = s.byteAt a := rfl

@[simp] theorem State.advance_byteAt (s : State) (n : PcWord) (a : Nat) :
    (s.advance n).byteAt a = s.byteAt a := rfl

@[simp] theorem State.pushCall_byteAt (s : State) (ra : PcWord) (a : Nat) :
    (s.pushCall ra).byteAt a = s.byteAt a := rfl

@[simp] theorem State.popCall_byteAt (s : State) (a : Nat) :
    (s.popCall).byteAt a = s.byteAt a := rfl

@[simp] theorem State.tick_byteAt (s : State) (n : Nat) (a : Nat) :
    (s.tick n).byteAt a = s.byteAt a := rfl

@[simp] theorem State.count_byteAt (s : State) (a : Nat) :
    (s.count).byteAt a = s.byteAt a := rfl

@[simp] theorem State.takeFault_byteAt (s : State) (op : Option Word) (r : Raise) (a : Nat) :
    (s.takeFault op r).byteAt a = s.byteAt a := rfl

@[simp] theorem State.placeFlashByte_byteAt (s : State) (b : Nat) (v : Byte) (a : Nat) :
    (s.placeFlashByte b v).byteAt a = s.byteAt a := rfl

@[simp] theorem State.beginLoad_byteAt (s : State) (covered : Nat → Bool) (a : Nat) :
    (s.beginLoad covered).byteAt a = s.byteAt a := rfl

end Sys2Proof.Machine
end

