-- ==== Sys2Proof/Laws/Memory.lean ====
section
/-!
SUPPORT. The laws of memory: reading after writing, and that every memory operation keeps the canonical form.
-/

namespace Sys2Proof.Machine

/-- Every listed address is above `lo`. -/
def Memory.above (lo : Nat) (m : Memory) : Prop := ∀ c ∈ m, lo < c.1

theorem Memory.rising_cons (c : Host.Cell) (m : Memory) :
    Memory.rising (c :: m) = true ↔ Memory.above c.1 m ∧ Memory.rising m = true := by
  induction m generalizing c with
  | nil => simp [Memory.rising, Memory.above]
  | cons d rest ih =>
    simp only [Memory.rising, Bool.and_eq_true, decide_eq_true_eq, ih d, Memory.above, List.mem_cons, forall_eq_or_imp]
    constructor
    · rintro ⟨h, ha, hr⟩
      exact ⟨⟨h, fun e he => h.trans (ha e he)⟩, ha, hr⟩
    · rintro ⟨⟨h, -⟩, ha, hr⟩
      exact ⟨h, ha, hr⟩

/-! ### Reading -/

@[simp] theorem Memory.get_put_same (m : Memory) (a : Nat) (v : Byte) : Memory.get (Memory.put m a v) a = some v := by
  induction m with
  | nil => simp [Memory.put, Memory.get]
  | cons c rest ih =>
    rw [Memory.put]
    split
    · simp [Memory.get]
    · split
      · simp [Memory.get]
      · rename_i h
        rw [Memory.get, if_neg (Ne.symm h), ih]

theorem Memory.get_put_ne (m : Memory) {a b : Nat} (v : Byte) (h : b ≠ a) :
    Memory.get (Memory.put m a v) b = Memory.get m b := by
  induction m with
  | nil => simp [Memory.put, Memory.get, Ne.symm h]
  | cons c rest ih =>
    rw [Memory.put]
    split
    · rw [Memory.get, if_neg (Ne.symm h)]
    · split
      · rename_i hc
        rw [Memory.get, if_neg (Ne.symm h), Memory.get, if_neg (by omega)]
      · simp only [Memory.get, ih]

theorem Memory.get_erase_ne (m : Memory) {a b : Nat} (h : b ≠ a) :
    Memory.get (Memory.erase m a) b = Memory.get m b := by
  induction m with
  | nil => rfl
  | cons c rest ih =>
    rw [Memory.erase]
    split
    · rename_i hc
      rw [Memory.get, if_neg (by omega), ih]
    · simp only [Memory.get, ih]

@[simp] theorem Memory.get_erase_same (m : Memory) (a : Nat) : Memory.get (Memory.erase m a) a = none := by
  induction m with
  | nil => rfl
  | cons c rest ih =>
    rw [Memory.erase]
    split
    · exact ih
    · rename_i hc
      rw [Memory.get, if_neg hc, ih]

theorem Memory.get_restrict (m : Memory) (keep : Nat → Bool) (b : Nat) :
    Memory.get (Memory.restrict m keep) b = if keep b then Memory.get m b else none := by
  induction m with
  | nil => simp [Memory.restrict, Memory.get]
  | cons c rest ih =>
    rw [Memory.restrict] at ih
    rw [Memory.restrict, List.filter_cons]
    by_cases hb : c.1 = b
    · subst hb
      by_cases hk : keep c.1 = true
      · simp [hk, Memory.get]
      · simpa [hk] using ih
    · by_cases hk : keep c.1 = true <;> simp [hk, Memory.get, hb, ih]

@[simp] theorem Memory.readDs_writeDs_same (m : Memory) (a : Nat) (v : Byte) :
    Memory.readDs (Memory.writeDs m a v) a = v := by
  by_cases hv : v = dsBlank <;> simp [Memory.readDs, Memory.writeDs, hv]

@[simp] theorem Memory.readDs_writeDs_ne (m : Memory) {a b : Nat} (v : Byte) (h : b ≠ a) :
    Memory.readDs (Memory.writeDs m a v) b = Memory.readDs m b := by
  by_cases hv : v = dsBlank <;>
    simp [Memory.readDs, Memory.writeDs, hv, Memory.get_erase_ne m h, Memory.get_put_ne m v h]

@[simp] theorem Memory.readFlash_put_same (m : Memory) (n b : Nat) (v : Byte) :
    Memory.readFlash (Memory.put m b v) n b = v := by simp [Memory.readFlash]

@[simp] theorem Memory.readFlash_put_ne (m : Memory) (n : Nat) {a b : Nat} (v : Byte) (h : b ≠ a) :
    Memory.readFlash (Memory.put m a v) n b = Memory.readFlash m n b := by
  simp [Memory.readFlash, Memory.get_put_ne m v h]

/-! ### The canonical form -/

theorem Memory.mem_put {m : Memory} {a : Nat} {v : Byte} {c : Host.Cell} (h : c ∈ Memory.put m a v) :
    c = (a, v) ∨ c ∈ m := by
  induction m with
  | nil => simpa [Memory.put] using h
  | cons d rest ih =>
    rw [Memory.put] at h
    split at h
    · simpa using h
    · split at h
      · rcases List.mem_cons.1 h with h | h
        · exact .inl h
        · exact .inr (List.mem_cons_of_mem _ h)
      · rcases List.mem_cons.1 h with h | h
        · exact .inr (h ▸ List.mem_cons_self ..)
        · exact (ih h).imp_right (List.mem_cons_of_mem _)

theorem Memory.mem_erase {m : Memory} {a : Nat} {c : Host.Cell} (h : c ∈ Memory.erase m a) : c ∈ m := by
  induction m with
  | nil => exact h
  | cons d rest ih =>
    rw [Memory.erase] at h
    split at h
    · exact List.mem_cons_of_mem _ (ih h)
    · rcases List.mem_cons.1 h with h | h
      · exact h ▸ List.mem_cons_self ..
      · exact List.mem_cons_of_mem _ (ih h)

theorem Memory.mem_restrict {m : Memory} {keep : Nat → Bool} {c : Host.Cell} (h : c ∈ Memory.restrict m keep) :
    c ∈ m := (List.mem_filter.1 h).1

theorem Memory.rising_put {m : Memory} (h : Memory.rising m = true) (a : Nat) (v : Byte) :
    Memory.rising (Memory.put m a v) = true := by
  induction m with
  | nil => rfl
  | cons c rest ih =>
    obtain ⟨hab, hr⟩ := (Memory.rising_cons c rest).1 h
    rw [Memory.put]
    split
    · rename_i hlt
      refine (Memory.rising_cons _ _).2 ⟨fun e he => ?_, h⟩
      rcases List.mem_cons.1 he with he | he
      · exact he ▸ hlt
      · exact hlt.trans (hab e he)
    · split
      · rename_i heq
        exact (Memory.rising_cons _ _).2 ⟨heq ▸ hab, hr⟩
      · rename_i h1 h2
        refine (Memory.rising_cons _ _).2 ⟨fun e he => ?_, ih hr⟩
        rcases Memory.mem_put he with he | he
        · rw [he]
          show c.1 < a
          omega
        · exact hab e he

theorem Memory.rising_erase {m : Memory} (h : Memory.rising m = true) (a : Nat) :
    Memory.rising (Memory.erase m a) = true := by
  induction m with
  | nil => rfl
  | cons c rest ih =>
    obtain ⟨hab, hr⟩ := (Memory.rising_cons c rest).1 h
    rw [Memory.erase]
    split
    · exact ih hr
    · exact (Memory.rising_cons _ _).2 ⟨fun e he => hab e (Memory.mem_erase he), ih hr⟩

theorem Memory.rising_restrict {m : Memory} (h : Memory.rising m = true) (keep : Nat → Bool) :
    Memory.rising (Memory.restrict m keep) = true := by
  induction m with
  | nil => rfl
  | cons c rest ih =>
    obtain ⟨hab, hr⟩ := (Memory.rising_cons c rest).1 h
    rw [Memory.restrict, List.filter_cons]
    split
    · exact (Memory.rising_cons _ _).2 ⟨fun e he => hab e (Memory.mem_restrict he), ih hr⟩
    · exact ih hr

theorem Memory.wf_iff (blank : Option Byte) (size : Nat) (m : Memory) :
    Memory.wf blank size m = true ↔ Memory.rising m = true ∧ ∀ c ∈ m, c.1 < size ∧ some c.2 ≠ blank := by
  simp [Memory.wf]

/-- Writing a DataSpace byte inside the capacity keeps the canonical form. -/
theorem Memory.wf_writeDs {size : Nat} {m : Memory} (h : Memory.wf (some dsBlank) size m = true) {a : Nat}
    (ha : a < size) (v : Byte) : Memory.wf (some dsBlank) size (Memory.writeDs m a v) = true := by
  obtain ⟨hr, hc⟩ := (Memory.wf_iff ..).1 h
  rw [Memory.wf_iff, Memory.writeDs]
  split
  · exact ⟨Memory.rising_erase hr a, fun c hm => hc c (Memory.mem_erase hm)⟩
  · rename_i hv
    refine ⟨Memory.rising_put hr a v, fun c hm => ?_⟩
    rcases Memory.mem_put hm with rfl | hm
    · exact ⟨ha, by simpa using hv⟩
    · exact hc c hm

/-- Placing a byte in Flash inside the capacity keeps the canonical form. -/
theorem Memory.wf_put {size : Nat} {m : Memory} (h : Memory.wf none size m = true) {a : Nat} (ha : a < size)
    (v : Byte) : Memory.wf none size (Memory.put m a v) = true := by
  obtain ⟨hr, hc⟩ := (Memory.wf_iff ..).1 h
  rw [Memory.wf_iff]
  refine ⟨Memory.rising_put hr a v, fun c hm => ?_⟩
  rcases Memory.mem_put hm with rfl | hm
  · exact ⟨ha, by simp⟩
  · exact hc c hm

/-- Dropping entries keeps the canonical form. -/
theorem Memory.wf_restrict {blank : Option Byte} {size : Nat} {m : Memory} (h : Memory.wf blank size m = true)
    (keep : Nat → Bool) : Memory.wf blank size (Memory.restrict m keep) = true := by
  obtain ⟨hr, hc⟩ := (Memory.wf_iff ..).1 h
  rw [Memory.wf_iff]
  exact ⟨Memory.rising_restrict hr keep, fun c hm => hc c (Memory.mem_restrict hm)⟩

/-- A DataSpace that holds nothing but zeros is canonical, as reset leaves it. -/
theorem Memory.wf_nil (blank : Option Byte) (size : Nat) : Memory.wf blank size [] = true := rfl

end Sys2Proof.Machine
end

