-- ==== Sys2Proof/Laws/Ops.lean ====
section
/-!
SUPPORT. What each shared operation does, said once: reading the views of DataSpace after each update, when an access
completes and when it faults, how an instruction ends.
-/

namespace Sys2Proof.Machine

/-! ### Bytes and 16-bit values -/

theorem joinBytes_toNat (hi lo : Byte) : (joinBytes hi lo).toNat = 256 * hi.toNat + lo.toNat := by
  rw [joinBytes, BitVec.toNat_append, ← Nat.shiftLeft_add_eq_or_of_lt lo.isLt, Nat.shiftLeft_eq]
  omega

theorem lowByte_toNat (v : Word) : (lowByte v).toNat = v.toNat % 256 := by simp [lowByte, BitVec.extractLsb'_toNat]

theorem highByte_toNat (v : Word) : (highByte v).toNat = v.toNat / 256 := by
  have := v.isLt
  rw [highByte, BitVec.extractLsb'_toNat, Nat.shiftRight_eq_div_pow]
  omega

@[simp] theorem joinBytes_highByte_lowByte (v : Word) : joinBytes (highByte v) (lowByte v) = v := by
  apply BitVec.eq_of_toNat_eq
  rw [joinBytes_toNat, highByte_toNat, lowByte_toNat]
  omega

@[simp] theorem lowByte_joinBytes (hi lo : Byte) : lowByte (joinBytes hi lo) = lo := by
  apply BitVec.eq_of_toNat_eq
  rw [lowByte_toNat, joinBytes_toNat]
  omega

@[simp] theorem highByte_joinBytes (hi lo : Byte) : highByte (joinBytes hi lo) = hi := by
  apply BitVec.eq_of_toNat_eq
  rw [highByte_toNat, joinBytes_toNat]
  omega

/-! ### DataSpace bytes after each update -/

theorem State.putByte_byteAt (s : State) (a : Nat) (v : Byte) (b : Nat) :
    (s.putByte a v).byteAt b = if b = a then v else s.byteAt b := by
  by_cases h : b = a <;> simp [State.byteAt, h]

@[simp] theorem State.putByte_byteAt_same (s : State) (a : Nat) (v : Byte) : (s.putByte a v).byteAt a = v := by
  simp [State.putByte_byteAt]

theorem State.putByte_byteAt_ne (s : State) {a b : Nat} (v : Byte) (h : b ≠ a) :
    (s.putByte a v).byteAt b = s.byteAt b := by simp [State.putByte_byteAt, h]

theorem State.setReg_byteAt (s : State) (n : Reg) (v : Byte) (b : Nat) :
    (s.setReg n v).byteAt b = if b = n.toNat then v else s.byteAt b := s.putByte_byteAt ..

theorem State.setSreg_byteAt (s : State) (v : Byte) (b : Nat) :
    (s.setSreg v).byteAt b = if b = sregAddr then v else s.byteAt b := s.putByte_byteAt ..

theorem State.setRampz_byteAt (s : State) (v : Byte) (b : Nat) :
    (s.setRampz v).byteAt b = if b = rampzAddr then v else s.byteAt b := s.putByte_byteAt ..

theorem State.setFlags_byteAt (s : State) (f : Flags) (b : Nat) :
    (s.setFlags f).byteAt b = if b = sregAddr then packFlags s.sreg f else s.byteAt b := s.putByte_byteAt ..

theorem State.setSp_byteAt (s : State) (v : Word) (b : Nat) :
    (s.setSp v).byteAt b =
      if b = sphAddr then highByte v else if b = splAddr then lowByte v else s.byteAt b := by
  simp [State.setSp, State.putByte_byteAt]

theorem State.setPtr_byteAt (s : State) (p : Ptr) (v : Word) (b : Nat) :
    (s.setPtr p v).byteAt b =
      if b = (ptrHigh p).toNat then highByte v
      else if b = (ptrLow p).toNat then lowByte v else s.byteAt b := by
  simp [State.setPtr, State.setReg_byteAt]

theorem State.drawPtr_byteAt (s : State) (p : Ptr) (b : Nat) :
    (s.drawPtr p).byteAt b =
      if b = (ptrHigh p).toNat then Config.freeByte (s.draws + 1)
      else if b = (ptrLow p).toNat then Config.freeByte s.draws else s.byteAt b := by
  simp [State.drawPtr, State.setReg_byteAt]

theorem State.setRampzZ_byteAt (s : State) (v : BitVec 24) (b : Nat) :
    (s.setRampzZ v).byteAt b =
      if b = 31 then highByte (v.extractLsb' 0 16)
      else if b = 30 then lowByte (v.extractLsb' 0 16)
      else if b = rampzAddr then v.extractLsb' 16 8 else s.byteAt b := by
  simp [State.setRampzZ, State.setPtr_byteAt, State.setRampz_byteAt, ptrHigh, ptrLow]

theorem State.drawRampzZ_byteAt (s : State) (b : Nat) :
    s.drawRampzZ.byteAt b =
      if b = rampzAddr then Config.freeByte (s.draws + 2)
      else if b = 31 then Config.freeByte (s.draws + 1)
      else if b = 30 then Config.freeByte s.draws else s.byteAt b := by
  simp [State.drawRampzZ, State.drawPtr_byteAt, State.setRampz_byteAt, ptrHigh, ptrLow]

theorem State.aluWrite_byteAt (s : State) (d : Reg) (res : Byte) (f : Flags) (b : Nat) :
    (s.aluWrite d res f).byteAt b =
      if b = sregAddr then packFlags s.sreg f else if b = d.toNat then res else s.byteAt b := by
  have hd : sregAddr ≠ d.toNat := by have := d.isLt; simp only [sregAddr]; omega
  simp [State.aluWrite, State.setFlags_byteAt, State.setReg_byteAt, State.sreg, hd]

theorem State.aluCompare_byteAt (s : State) (f : Flags) (b : Nat) :
    (s.aluCompare f).byteAt b = if b = sregAddr then packFlags s.sreg f else s.byteAt b := by
  simp [State.aluCompare, State.setFlags_byteAt]

/-! ### Registers, SP and pointers read back -/

theorem State.setReg_reg (s : State) (n : Reg) (v : Byte) (m : Reg) :
    (s.setReg n v).reg m = if m = n then v else s.reg m := by
  simp [State.reg, State.setReg_byteAt, BitVec.toNat_inj]

/-- SP reads back as written (10_state.md R39). -/
@[simp] theorem State.setSp_sp (s : State) (v : Word) : (s.setSp v).sp = v := by
  simp [State.sp, State.setSp_byteAt, sphAddr, splAddr, joinBytes_highByte_lowByte]

/-- A pointer reads back as written (10_state.md R33). -/
@[simp] theorem State.setPtr_ptr (s : State) (p : Ptr) (v : Word) : (s.setPtr p v).ptr p = v := by
  cases p <;> simp [State.ptr, State.reg, State.setPtr_byteAt, ptrHigh, ptrLow, joinBytes_highByte_lowByte]

/-! ### When an access completes and when it faults -/

theorem State.memRead_eq (s : State) (a : Word) :
    s.memRead a = if a.toNat < s.cfg.dsSize then .ok (s.byteAt a.toNat)
      else .error { kind := .dataRange, info := a.toNat } := by
  by_cases h : a.toNat < s.cfg.dsSize <;> simp [State.memRead, h, Nat.not_le.2, Nat.not_lt.1]

theorem State.memWrite_eq (s : State) (a : Word) (v : Byte) :
    s.memWrite a v = if a.toNat < s.cfg.dsSize then .ok (s.putByte a.toNat v)
      else .error { kind := .dataRange, info := a.toNat } := by
  by_cases h : a.toNat < s.cfg.dsSize <;> simp [State.memWrite, h, Nat.not_le.2, Nat.not_lt.1]

theorem State.inSram_iff (s : State) (a : Word) :
    s.inSram a = true ↔ 0x60 ≤ a.toNat ∧ a.toNat < s.cfg.dsSize := by
  rw [State.inSram, sramBase, Bool.and_eq_true, decide_eq_true_eq, decide_eq_true_eq]

theorem State.flashFetch_eq (s : State) (w : PcWord) :
    s.flashFetch w = if w.toNat < s.cfg.flashWords then .ok (s.flashWord w.toNat)
      else .error { kind := .pcRange, info := w.toNat } := by
  by_cases h : w.toNat < s.cfg.flashWords <;> simp [State.flashFetch, h, Nat.not_le.2, Nat.not_lt.1]

/-- `FlashByte(b)` is the byte at `b` (20_memory.md R74). -/
theorem State.flashByte_eq (s : State) (b : Nat) :
    s.flashByte b = if b < 2 * s.cfg.flashWords then .ok (Memory.readFlash s.flash s.loads b)
      else .error { kind := .flashRange, info := b } := by
  unfold State.flashByte
  by_cases h : b < 2 * s.cfg.flashWords
  · rw [if_neg (by omega), if_pos h]
    by_cases hb : b % 2 = 0
    · rw [if_pos hb, State.flashWord, lowByte_joinBytes, show 2 * (b / 2) = b by omega]
    · rw [if_neg hb, State.flashWord, highByte_joinBytes, show 2 * (b / 2) + 1 = b by omega]
  · rw [if_pos (by omega), if_neg h]

@[simp] theorem State.finish_ok (s t : State) : s.finish (.ok t) = .next t := rfl

@[simp] theorem State.finish_error (s : State) (r : Raise) :
    s.finish (.error r) = .next (s.takeFault (some (s.flashWord s.pc.toNat)) r) := rfl

/-- An instruction that can fault ends in one of two ways: its own effect, or the fault it met first. -/
theorem State.finish_cases {s t : State} {e : Except Raise State} (h : s.finish e = .next t) :
    e = .ok t ∨ ∃ r, e = .error r ∧ t = s.takeFault (some (s.flashWord s.pc.toNat)) r := by
  cases e with
  | ok u => exact .inl (by simpa using h)
  | error r => exact .inr ⟨r, rfl, by simpa using h.symm⟩

/-! ### Flags -/

/-- The flags read back, and bits 6 and 7 as they were (10_state.md R34, R44). -/
theorem packFlags_bits (old : Byte) (f : Flags) :
    (packFlags old f).getLsbD 0 = f.c ∧ (packFlags old f).getLsbD 1 = f.z ∧ (packFlags old f).getLsbD 2 = f.n ∧
    (packFlags old f).getLsbD 3 = f.v ∧ (packFlags old f).getLsbD 4 = f.s ∧ (packFlags old f).getLsbD 5 = f.h ∧
    (packFlags old f).getLsbD 6 = old.getLsbD 6 ∧ (packFlags old f).getLsbD 7 = old.getLsbD 7 := by
  unfold packFlags
  refine ⟨?_, ?_, ?_, ?_, ?_, ?_, ?_, ?_⟩ <;> (repeat rw [BitVec.getLsbD_append]) <;> simp

end Sys2Proof.Machine
end

