-- ==== Sys2Proof/Laws/Effects.lean ====
section
/-!
SUPPORT. What each instruction's shared effect answers, by cases on the state: its own effect, or the first fault.
-/

namespace Sys2Proof.Machine

/-- A stack read completes just inside SRAM (20_memory.md R78). -/
theorem State.stackRead_eq (s : State) (a : Word) :
    s.stackRead a = if s.inSram a = true then .ok (s.byteAt a.toNat)
      else .error { kind := .stackRange, info := a.toNat } := rfl

/-- A stack write completes just inside SRAM (20_memory.md R78). -/
theorem State.stackWrite_eq (s : State) (a : Word) (v : Byte) :
    s.stackWrite a v = if s.inSram a = true then .ok (s.putByte a.toNat v)
      else .error { kind := .stackRange, info := a.toNat } := rfl

@[simp] theorem State.putByte_inSram (s : State) (b : Nat) (v : Byte) (a : Word) :
    (s.putByte b v).inSram a = s.inSram a := rfl

theorem State.inSram_congr {s t : State} (h : t.cfg = s.cfg) (a : Word) : t.inSram a = s.inSram a := by
  simp [State.inSram, h]

/-- The state CALL's three stores and SP - 3 leave (42_control_flow.md R204). -/
def State.framed (s : State) (ra : PcWord) : State :=
  (((s.putByte s.sp.toNat (ra.extractLsb' 0 8)).putByte (s.sp - 1).toNat (ra.extractLsb' 8 8)).putByte
    (s.sp - 2).toNat ((ra.extractLsb' 16 6).zeroExtend 8)).setSp (s.sp - 3)

@[simp] theorem State.framed_cfg (s : State) (ra : PcWord) : (s.framed ra).cfg = s.cfg := by
  simp [State.framed]

@[simp] theorem State.framed_flash (s : State) (ra : PcWord) : (s.framed ra).flash = s.flash := by
  simp [State.framed]

@[simp] theorem State.framed_pc (s : State) (ra : PcWord) : (s.framed ra).pc = s.pc := by
  simp [State.framed]

@[simp] theorem State.framed_fault (s : State) (ra : PcWord) : (s.framed ra).fault = s.fault := by
  simp [State.framed]

@[simp] theorem State.framed_callStack (s : State) (ra : PcWord) : (s.framed ra).callStack = s.callStack := by
  simp [State.framed]

@[simp] theorem State.framed_breakpoints (s : State) (ra : PcWord) : (s.framed ra).breakpoints = s.breakpoints := by
  simp [State.framed]

@[simp] theorem State.framed_instrCount (s : State) (ra : PcWord) : (s.framed ra).instrCount = s.instrCount := by
  simp [State.framed]

@[simp] theorem State.framed_delayedCycles (s : State) (ra : PcWord) : (s.framed ra).delayedCycles = s.delayedCycles := by
  simp [State.framed]

@[simp] theorem State.framed_loads (s : State) (ra : PcWord) : (s.framed ra).loads = s.loads := by
  simp [State.framed]

@[simp] theorem State.framed_draws (s : State) (ra : PcWord) : (s.framed ra).draws = s.draws := by
  simp [State.framed]

/-- SP after the call frame (42_control_flow.md R204). -/
@[simp] theorem State.framed_sp (s : State) (ra : PcWord) : (s.framed ra).sp = s.sp - 3 := State.setSp_sp ..

theorem State.framed_byteAt (s : State) (ra : PcWord) (b : Nat) :
    (s.framed ra).byteAt b =
      if b = sphAddr then highByte (s.sp - 3)
      else if b = splAddr then lowByte (s.sp - 3)
      else if b = (s.sp - 2).toNat then (ra.extractLsb' 16 6).zeroExtend 8
      else if b = (s.sp - 1).toNat then ra.extractLsb' 8 8
      else if b = s.sp.toNat then ra.extractLsb' 0 8 else s.byteAt b := by
  simp only [State.framed, State.setSp_byteAt, State.putByte_byteAt]

theorem State.pushFrame_eq (s : State) (ra : PcWord) :
    s.pushFrame ra =
      if s.inSram s.sp = true then
        if s.inSram (s.sp - 1) = true then
          if s.inSram (s.sp - 2) = true then .ok (s.framed ra)
          else .error { kind := .stackRange, info := (s.sp - 2).toNat }
        else .error { kind := .stackRange, info := (s.sp - 1).toNat }
      else .error { kind := .stackRange, info := s.sp.toNat } := by
  unfold State.pushFrame
  by_cases h0 : s.inSram s.sp = true <;> by_cases h1 : s.inSram (s.sp - 1) = true <;>
    by_cases h2 : s.inSram (s.sp - 2) = true <;>
    simp only [State.stackWrite_eq, State.putByte_inSram, h0, h1, h2, if_true, if_false, Bool.false_eq_true,
      State.framed]

theorem State.readFrame_eq (s : State) :
    s.readFrame =
      if s.inSram (s.sp + 1) = true then
        if s.inSram (s.sp + 2) = true then
          if s.inSram (s.sp + 3) = true then
            .ok ((s.byteAt (s.sp + 1).toNat).extractLsb' 0 6 ++ s.byteAt (s.sp + 2).toNat ++
              s.byteAt (s.sp + 3).toNat)
          else .error { kind := .stackRange, info := (s.sp + 3).toNat }
        else .error { kind := .stackRange, info := (s.sp + 2).toNat }
      else .error { kind := .stackRange, info := (s.sp + 1).toNat } := by
  unfold State.readFrame
  by_cases h0 : s.inSram (s.sp + 1) = true <;> by_cases h1 : s.inSram (s.sp + 2) = true <;>
    by_cases h2 : s.inSram (s.sp + 3) = true <;>
    simp only [State.stackRead_eq, h0, h1, h2, if_true, if_false, Bool.false_eq_true]

theorem State.callTo_eq (s : State) (k : PcWord) :
    s.callTo k =
      if s.inSram s.sp = true then
        if s.inSram (s.sp - 1) = true then
          if s.inSram (s.sp - 2) = true then .ok (((s.framed (s.pc + 2)).pushCall (s.pc + 2)).setPc k)
          else .error { kind := .stackRange, info := (s.sp - 2).toNat }
        else .error { kind := .stackRange, info := (s.sp - 1).toNat }
      else .error { kind := .stackRange, info := s.sp.toNat } := by
  rw [State.callTo, State.pushFrame_eq]
  split_ifs <;> rfl

theorem State.returnFrom_eq (s : State) :
    s.returnFrom =
      if s.inSram (s.sp + 1) = true then
        if s.inSram (s.sp + 2) = true then
          if s.inSram (s.sp + 3) = true then
            .ok (((s.setSp (s.sp + 3)).popCall).setPc
              ((s.byteAt (s.sp + 1).toNat).extractLsb' 0 6 ++ s.byteAt (s.sp + 2).toNat ++
                s.byteAt (s.sp + 3).toNat))
          else .error { kind := .stackRange, info := (s.sp + 3).toNat }
        else .error { kind := .stackRange, info := (s.sp + 2).toNat }
      else .error { kind := .stackRange, info := (s.sp + 1).toNat } := by
  rw [State.returnFrom, State.readFrame_eq]
  split_ifs <;> rfl

theorem State.skipIfEqual_eq (s : State) (d r : Reg) :
    s.skipIfEqual d r =
      if s.reg d = s.reg r then
        if (s.pc + 1).toNat < s.cfg.flashWords then
          .ok (s.setPc (s.pc + 1 + skipWords (s.flashWord (s.pc + 1).toNat)))
        else .error { kind := .pcRange, info := (s.pc + 1).toNat }
      else .ok (s.advance 1) := by
  rw [State.skipIfEqual, State.flashFetch_eq]
  split_ifs <;> rfl

theorem State.pushByte_eq (s : State) (v : Byte) :
    s.pushByte v =
      if s.inSram s.sp = true then .ok (((s.putByte s.sp.toNat v).setSp (s.sp - 1)).advance 1)
      else .error { kind := .stackRange, info := s.sp.toNat } := by
  rw [State.pushByte, State.stackWrite_eq]
  split_ifs <;> rfl

theorem State.popByte_eq (s : State) (d : Reg) :
    s.popByte d =
      if s.inSram (s.sp + 1) = true then
        .ok (((s.setReg d (s.byteAt (s.sp + 1).toNat)).setSp (s.sp + 1)).advance 1)
      else .error { kind := .stackRange, info := (s.sp + 1).toNat } := by
  rw [State.popByte, State.stackRead_eq]
  split_ifs <;> rfl

theorem State.loadDirect_eq (s : State) (d : Reg) (k : Word) :
    s.loadDirect d k =
      if k.toNat < s.cfg.dsSize then .ok ((s.setReg d (s.byteAt k.toNat)).advance 2)
      else .error { kind := .dataRange, info := k.toNat } := by
  rw [State.loadDirect, State.memRead_eq]
  split_ifs <;> rfl

theorem State.storeDirect_eq (s : State) (k : Word) (r : Reg) :
    s.storeDirect k r =
      if k.toNat < s.cfg.dsSize then .ok ((s.putByte k.toNat (s.reg r)).advance 2)
      else .error { kind := .dataRange, info := k.toNat } := by
  rw [State.storeDirect, State.memWrite_eq]
  split_ifs <;> rfl

/-- The state a load that completes leaves (43_load_store_io.md R243, R244). -/
def State.loaded (s : State) (p : Ptr) (m : PtrMode) (d : Reg) : State :=
  if writesBack m then
    if ptrHas p d then (s.drawPtr p).advance 1
    else ((s.setReg d (s.byteAt (effAddr m (s.ptr p)).toNat)).setPtr p (nextPtr m (s.ptr p))).advance 1
  else (s.setReg d (s.byteAt (effAddr m (s.ptr p)).toNat)).advance 1

@[simp] theorem State.loaded_cfg (s : State) (p : Ptr) (m : PtrMode) (d : Reg) :
    (s.loaded p m d).cfg = s.cfg := by
  rw [State.loaded]
  split_ifs <;> simp

@[simp] theorem State.loaded_flash (s : State) (p : Ptr) (m : PtrMode) (d : Reg) :
    (s.loaded p m d).flash = s.flash := by
  rw [State.loaded]
  split_ifs <;> simp

@[simp] theorem State.loaded_fault (s : State) (p : Ptr) (m : PtrMode) (d : Reg) :
    (s.loaded p m d).fault = s.fault := by
  rw [State.loaded]
  split_ifs <;> simp

@[simp] theorem State.loaded_callStack (s : State) (p : Ptr) (m : PtrMode) (d : Reg) :
    (s.loaded p m d).callStack = s.callStack := by
  rw [State.loaded]
  split_ifs <;> simp

@[simp] theorem State.loaded_breakpoints (s : State) (p : Ptr) (m : PtrMode) (d : Reg) :
    (s.loaded p m d).breakpoints = s.breakpoints := by
  rw [State.loaded]
  split_ifs <;> simp

@[simp] theorem State.loaded_instrCount (s : State) (p : Ptr) (m : PtrMode) (d : Reg) :
    (s.loaded p m d).instrCount = s.instrCount := by
  rw [State.loaded]
  split_ifs <;> simp

@[simp] theorem State.loaded_delayedCycles (s : State) (p : Ptr) (m : PtrMode) (d : Reg) :
    (s.loaded p m d).delayedCycles = s.delayedCycles := by
  rw [State.loaded]
  split_ifs <;> simp

@[simp] theorem State.loaded_pc (s : State) (p : Ptr) (m : PtrMode) (d : Reg) : (s.loaded p m d).pc = s.pc + 1 := by
  rw [State.loaded]
  split_ifs <;> simp

theorem State.loadIndirect_eq (s : State) (p : Ptr) (m : PtrMode) (d : Reg) :
    s.loadIndirect p m d =
      if (effAddr m (s.ptr p)).toNat < s.cfg.dsSize then .ok (s.loaded p m d)
      else .error { kind := .dataRange, info := (effAddr m (s.ptr p)).toNat } := by
  rw [State.loadIndirect, State.memRead_eq, State.loaded]
  split_ifs <;> rfl

@[simp] theorem State.storedByte_cfg (s : State) (p : Ptr) (m : PtrMode) (r : Reg) :
    (s.storedByte p m r).2.cfg = s.cfg := by
  rw [State.storedByte]
  split_ifs <;> simp

@[simp] theorem State.storedByte_flash (s : State) (p : Ptr) (m : PtrMode) (r : Reg) :
    (s.storedByte p m r).2.flash = s.flash := by
  rw [State.storedByte]
  split_ifs <;> simp

@[simp] theorem State.storedByte_pc (s : State) (p : Ptr) (m : PtrMode) (r : Reg) :
    (s.storedByte p m r).2.pc = s.pc := by
  rw [State.storedByte]
  split_ifs <;> simp

@[simp] theorem State.storedByte_fault (s : State) (p : Ptr) (m : PtrMode) (r : Reg) :
    (s.storedByte p m r).2.fault = s.fault := by
  rw [State.storedByte]
  split_ifs <;> simp

@[simp] theorem State.storedByte_callStack (s : State) (p : Ptr) (m : PtrMode) (r : Reg) :
    (s.storedByte p m r).2.callStack = s.callStack := by
  rw [State.storedByte]
  split_ifs <;> simp

@[simp] theorem State.storedByte_breakpoints (s : State) (p : Ptr) (m : PtrMode) (r : Reg) :
    (s.storedByte p m r).2.breakpoints = s.breakpoints := by
  rw [State.storedByte]
  split_ifs <;> simp

@[simp] theorem State.storedByte_instrCount (s : State) (p : Ptr) (m : PtrMode) (r : Reg) :
    (s.storedByte p m r).2.instrCount = s.instrCount := by
  rw [State.storedByte]
  split_ifs <;> simp

@[simp] theorem State.storedByte_delayedCycles (s : State) (p : Ptr) (m : PtrMode) (r : Reg) :
    (s.storedByte p m r).2.delayedCycles = s.delayedCycles := by
  rw [State.storedByte]
  split_ifs <;> simp

@[simp] theorem State.storedByte_ds (s : State) (p : Ptr) (m : PtrMode) (r : Reg) :
    (s.storedByte p m r).2.ds = s.ds := by
  rw [State.storedByte]
  split_ifs <;> simp

/-- The state a store that completes leaves (43_load_store_io.md R243, R244). -/
def State.stored (s : State) (p : Ptr) (m : PtrMode) (r : Reg) : State :=
  let t := (s.storedByte p m r).2.putByte (effAddr m (s.ptr p)).toNat (s.storedByte p m r).1
  if writesBack m then
    if ptrHasAddr p (effAddr m (s.ptr p)) then (t.drawPtr p).advance 1
    else (t.setPtr p (nextPtr m (s.ptr p))).advance 1
  else t.advance 1

@[simp] theorem State.stored_cfg (s : State) (p : Ptr) (m : PtrMode) (r : Reg) :
    (s.stored p m r).cfg = s.cfg := by
  simp only [State.stored]
  split_ifs <;> simp

@[simp] theorem State.stored_flash (s : State) (p : Ptr) (m : PtrMode) (r : Reg) :
    (s.stored p m r).flash = s.flash := by
  simp only [State.stored]
  split_ifs <;> simp

@[simp] theorem State.stored_fault (s : State) (p : Ptr) (m : PtrMode) (r : Reg) :
    (s.stored p m r).fault = s.fault := by
  simp only [State.stored]
  split_ifs <;> simp

@[simp] theorem State.stored_callStack (s : State) (p : Ptr) (m : PtrMode) (r : Reg) :
    (s.stored p m r).callStack = s.callStack := by
  simp only [State.stored]
  split_ifs <;> simp

@[simp] theorem State.stored_breakpoints (s : State) (p : Ptr) (m : PtrMode) (r : Reg) :
    (s.stored p m r).breakpoints = s.breakpoints := by
  simp only [State.stored]
  split_ifs <;> simp

@[simp] theorem State.stored_instrCount (s : State) (p : Ptr) (m : PtrMode) (r : Reg) :
    (s.stored p m r).instrCount = s.instrCount := by
  simp only [State.stored]
  split_ifs <;> simp

@[simp] theorem State.stored_delayedCycles (s : State) (p : Ptr) (m : PtrMode) (r : Reg) :
    (s.stored p m r).delayedCycles = s.delayedCycles := by
  simp only [State.stored]
  split_ifs <;> simp

@[simp] theorem State.stored_pc (s : State) (p : Ptr) (m : PtrMode) (r : Reg) : (s.stored p m r).pc = s.pc + 1 := by
  simp only [State.stored]
  split_ifs <;> simp

theorem State.storeIndirect_eq (s : State) (p : Ptr) (m : PtrMode) (r : Reg) :
    s.storeIndirect p m r =
      if (effAddr m (s.ptr p)).toNat < s.cfg.dsSize then .ok (s.stored p m r)
      else .error { kind := .dataRange, info := (effAddr m (s.ptr p)).toNat } := by
  simp only [State.storeIndirect, State.memWrite_eq, State.storedByte_cfg, State.stored]
  split_ifs <;> rfl

theorem State.loadProgram_eq (s : State) (inc : Bool) (d : Reg) :
    s.loadProgram inc d =
      if (s.ptr .z).toNat < 2 * s.cfg.flashWords then
        .ok (if inc then
            if ptrHas .z d then (s.drawPtr .z).advance 1
            else ((s.setReg d (Memory.readFlash s.flash s.loads (s.ptr .z).toNat)).setPtr .z (s.ptr .z + 1)).advance 1
          else (s.setReg d (Memory.readFlash s.flash s.loads (s.ptr .z).toNat)).advance 1)
      else .error { kind := .flashRange, info := (s.ptr .z).toNat } := by
  rw [State.loadProgram, State.flashByte_eq]
  split_ifs <;> rfl

theorem State.loadProgramExt_eq (s : State) (inc : Bool) (d : Reg) :
    s.loadProgramExt inc d =
      if s.rampzZ.toNat < 2 * s.cfg.flashWords then
        .ok (if inc then
            if ptrHas .z d then s.drawRampzZ.advance 1
            else ((s.setReg d (Memory.readFlash s.flash s.loads s.rampzZ.toNat)).setRampzZ (s.rampzZ + 1)).advance 1
          else (s.setReg d (Memory.readFlash s.flash s.loads s.rampzZ.toNat)).advance 1)
      else .error { kind := .flashRange, info := s.rampzZ.toNat } := by
  rw [State.loadProgramExt, State.flashByte_eq]
  split_ifs <;> rfl

/-- RAMPZ:Z as a number (43_load_store_io.md R265). -/
theorem State.rampzZ_toNat (s : State) : s.rampzZ.toNat = s.rampz.toNat * 0x10000 + (s.ptr .z).toNat := by
  rw [State.rampzZ, BitVec.toNat_append, ← Nat.shiftLeft_add_eq_or_of_lt (s.ptr .z).isLt, Nat.shiftLeft_eq]

/-! ### Fetch and step -/

/-- What fetch yields (20_memory.md R81). -/
theorem fetch_eq (s : State) :
    fetch s =
      if s.pc.toNat < s.cfg.flashWords then
        if twoWord (s.flashWord s.pc.toNat) = true then
          if (s.pc + 1).toNat < s.cfg.flashWords then
            dispatchWords (s.flashWord s.pc.toNat) (s.flashWord (s.pc + 1).toNat)
          else .error { op := some (s.flashWord s.pc.toNat), raise := { kind := .pcRange, info := (s.pc + 1).toNat } }
        else dispatchWords (s.flashWord s.pc.toNat) 0
      else .error { op := none, raise := { kind := .pcRange, info := s.pc.toNat } } := by
  rw [fetch, State.flashFetch_eq, State.flashFetch_eq]
  split_ifs <;> simp_all

/-- What a step that answers a next state has done: executed an instruction and counted it, or taken the fault fetch
met. -/
theorem step_cases {s t : State} (h : step s = .next t) :
    s.fault = none ∧
    ((∃ i u, fetch s = .ok i ∧ exec i s = .next u ∧ t = u.retire) ∨
      ∃ f, fetch s = .error f ∧ t = s.takeFault f.op f.raise) := by
  unfold step at h
  cases hf : s.fault with
  | some r => simp [hf] at h
  | none =>
    refine ⟨rfl, ?_⟩
    simp only [hf, runOne] at h
    cases hi : fetch s with
    | error f => exact .inr ⟨f, rfl, by simpa [hi] using h.symm⟩
    | ok i =>
      cases he : exec i s with
      | next u => exact .inl ⟨i, u, rfl, he, by simpa [hi, he, retireOutcome] using h.symm⟩
      | fault r => simp [hi, he, retireOutcome] at h
      | refused r => simp [hi, he, retireOutcome] at h

end Sys2Proof.Machine
end

