-- ==== Sys2Proof/Laws/Frames.lean ====
section
/-!
SUPPORT. How statements about an instruction are reached from its effect: completing, trapping, frames, and the flags
read back from a packed SREG.
-/

namespace Sys2Proof.Machine

open Sys2Proof.Safety

/-! ### Completing and trapping -/

/-- What taking a fault leaves (60_exceptions.md R300). -/
theorem State.takeFault_faulted (s : State) (op : Option Word) (r : Raise) :
    Faulted s (s.takeFault op r) r.kind op r.info := ⟨rfl, rfl, ⟨rfl, rfl, rfl, rfl, rfl⟩, rfl, rfl⟩

theorem traps_of_finish {i : Instr} {s : State} {e : Except Raise State} {k : FaultKind} {x : Nat}
    (h : exec i s = s.finish e) (he : e = .error { kind := k, info := x }) : Traps i s k x :=
  ⟨_, by rw [h, he]; rfl, s.takeFault_faulted _ { kind := k, info := x }⟩

theorem completes_of_finish {i : Instr} {s t : State} {e : Except Raise State} {P : State → Prop}
    (h : exec i s = s.finish e) (he : e = .ok t) (hp : P t) : Completes i s P :=
  ⟨t, by rw [h, he]; rfl, hp⟩

/-- A frame from the bytes and the fields one by one. -/
theorem frame_of {s t : State} {w : List Nat} (bytes : ∀ a, a ∉ w → t.byteAt a = s.byteAt a) (cfg : t.cfg = s.cfg)
    (flash : t.flash = s.flash) (loads : t.loads = s.loads) (breakpoints : t.breakpoints = s.breakpoints)
    (delayedCycles : t.delayedCycles = s.delayedCycles) (fault : t.fault = s.fault)
    (instrCount : t.instrCount = s.instrCount) (callStack : t.callStack = s.callStack) : Frame s t w :=
  ⟨bytes, ⟨cfg, flash, loads, breakpoints, delayedCycles⟩, fault, instrCount, callStack⟩

/-! ### The pointer forms -/

theorem exec_ldForm (s : State) (p : Ptr) (m : PtrMode) (d : Reg) :
    exec (ldForm p m d) s = s.finish (s.loadIndirect p m d) := by cases p <;> cases m <;> rfl

theorem exec_stForm (s : State) (p : Ptr) (m : PtrMode) (r : Reg) :
    exec (stForm p m r) s = s.finish (s.storeIndirect p m r) := by cases p <;> cases m <;> rfl

theorem ptrAddrs_eq (p : Ptr) : ptrAddrs p = [(ptrLow p).toNat, (ptrHigh p).toNat] := by cases p <;> rfl

theorem ptrHas_iff (p : Ptr) (d : Reg) : ptrHas p d = true ↔ d.toNat ∈ ptrAddrs p := by
  rw [ptrAddrs_eq]
  simp [ptrHas, BitVec.toNat_inj]

theorem ptrHasAddr_iff (p : Ptr) (a : Word) : ptrHasAddr p a = true ↔ a.toNat ∈ ptrAddrs p := by
  rw [ptrAddrs_eq]
  simp [ptrHasAddr]

theorem State.storedByte_byteAt (s : State) (p : Ptr) (m : PtrMode) (r : Reg) (b : Nat) :
    (s.storedByte p m r).2.byteAt b = s.byteAt b := by simp [State.byteAt]

/-! ### Flash bytes -/

/-- The two readings of a Flash byte agree (20_memory.md R74). -/
theorem flashByteAt_eq (s : State) (b : Nat) : flashByteAt s b = (Memory.readFlash s.flash s.loads b).toNat := by
  rw [flashByteAt, State.flashWord]
  by_cases h : b % 2 = 0
  · rw [if_pos h, ← lowByte_toNat, lowByte_joinBytes, show 2 * (b / 2) = b by omega]
  · rw [if_neg h, ← highByte_toNat, highByte_joinBytes, show 2 * (b / 2) + 1 = b by omega]

/-! ### Flags -/

theorem carryByte_eq_bitByte (c : Bool) : carryByte c = bitByte c := by cases c <;> rfl

theorem State.aluWrite_sreg (s : State) (d : Reg) (res : Byte) (f : Flags) :
    (s.aluWrite d res f).sreg = packFlags s.sreg f := by simp [State.sreg, State.aluWrite_byteAt]

theorem State.aluCompare_sreg (s : State) (f : Flags) : (s.aluCompare f).sreg = packFlags s.sreg f := by
  simp [State.sreg, State.aluCompare_byteAt]

/-- The six flags and the two upper bits of a packed SREG. -/
theorem State.flags_of_sreg {t : State} {old : Byte} {f : Flags} (h : t.sreg = packFlags old f) :
    t.flagC = f.c ∧ t.flagZ = f.z ∧ t.flagN = f.n ∧ t.flagV = f.v ∧ t.flagS = f.s ∧ t.flagH = f.h ∧
      t.sreg.getLsbD 6 = old.getLsbD 6 ∧ t.sreg.getLsbD 7 = old.getLsbD 7 := by
  simp only [State.flagC, State.flagZ, State.flagN, State.flagV, State.flagS, State.flagH, h]
  exact packFlags_bits old f

/-! ### Instructions one after another -/

theorem execAll_append (xs ys : List Instr) (s t : State) (h : execAll xs s = .next t) :
    execAll (xs ++ ys) s = execAll ys t := by
  induction xs generalizing s with
  | nil => cases h; rfl
  | cons i rest ih =>
    simp only [execAll, List.cons_append] at h ⊢
    split at h
    · exact ih _ h
    · cases h
    · cases h

/-! ### Nestings and host steps -/

theorem nesting_code_pair (r : Reg) (inner rest : Nesting) :
    (Nesting.pair r inner rest).code = Instr.push r :: (inner.code ++ Instr.pop r :: rest.code) := rfl

theorem nesting_depth_pair (r : Reg) (inner rest : Nesting) :
    (Nesting.pair r inner rest).depth = max (inner.depth + 1) rest.depth := rfl

theorem nesting_lastPushed_zero (r : Reg) (inner rest : Nesting) :
    (Nesting.pair r inner rest).lastPushed 0 = some ((rest.lastPushed 0).getD r) := by
  rw [Nesting.lastPushed.eq_def]
  cases h : rest.lastPushed 0 <;> simp [h]

theorem nesting_lastPushed_succ (r : Reg) (inner rest : Nesting) (j : Nat) :
    (Nesting.pair r inner rest).lastPushed (j + 1) = (rest.lastPushed (j + 1)).or (inner.lastPushed j) := by
  rw [Nesting.lastPushed.eq_def]
  cases h : rest.lastPushed (j + 1) <;> simp [h]

theorem hostSteps_succ {s u : State} {j c : Nat} (hc : (hostStep s).2 ≠ 0)
    (h : hostSteps j (hostStep s).1 = some (u, c)) : hostSteps (j + 1) s = some (u, (hostStep s).2 + c) := by
  rw [hostSteps, if_neg hc, h]

end Sys2Proof.Machine
end

