-- ==== Sys2Proof/Laws/Load.lean ====
section
/-!
SUPPORT. What a load's operations do to Flash, said once (60_exceptions.md R315).
-/

namespace Sys2Proof.Machine

open Sys2Proof.Safety

/-- Placing a record's bytes from byte address `b`: Flash alone changes, at those bytes alone, and stays canonical. -/
theorem placeBytes_ok {bytes : List Byte} {s t : State} {b : Nat} (h : placeBytes s b bytes = .ok t) :
    t = { s with flash := t.flash } ∧
    (∀ a, Memory.get t.flash a =
      match (if b ≤ a then bytes[a - b]? else none) with
      | some v => some v
      | none => Memory.get s.flash a) ∧
    (Memory.wf none (2 * s.cfg.flashWords) s.flash = true → Memory.wf none (2 * s.cfg.flashWords) t.flash = true) := by
  induction bytes generalizing s b with
  | nil =>
    simp only [placeBytes, Except.ok.injEq] at h
    subst h
    exact ⟨rfl, fun a => by simp, id⟩
  | cons v rest ih =>
    rw [placeBytes] at h
    split at h
    · rename_i hb
      obtain ⟨e, g, w⟩ := ih h
      refine ⟨by rw [e]; rfl, fun a => ?_, fun hw => w (Memory.wf_put hw hb.1 v)⟩
      rw [g, State.placeFlashByte_flash]
      by_cases ha : a = b
      · subst ha
        simp
      · rw [Memory.get_put_ne _ _ ha]
        by_cases hl : b + 1 ≤ a
        · rw [if_pos hl, if_pos (by omega), show a - b = (a - (b + 1)) + 1 by omega, List.getElem?_cons_succ]
        · rw [if_neg hl, if_neg (by omega)]
    · cases h

/-- Placing records: Flash alone changes, at the image's bytes alone, and stays canonical. -/
theorem placeRecords_ok {rs : List DataRecord} {s t : State} (h : placeRecords s rs = .ok t) :
    t = { s with flash := t.flash } ∧
    (∀ a, Memory.get t.flash a =
      match imageByte rs a with
      | some v => some v
      | none => Memory.get s.flash a) ∧
    (Memory.wf none (2 * s.cfg.flashWords) s.flash = true → Memory.wf none (2 * s.cfg.flashWords) t.flash = true) := by
  induction rs generalizing s with
  | nil =>
    simp only [placeRecords, Except.ok.injEq] at h
    subst h
    exact ⟨rfl, fun _ => rfl, id⟩
  | cons r rest ih =>
    rw [placeRecords] at h
    split at h
    · cases h
    · rename_i u hu
      obtain ⟨e, g, w⟩ := ih h
      obtain ⟨e', g', w'⟩ := placeBytes_ok hu
      have hc : u.cfg = s.cfg := by rw [e']
      refine ⟨by rw [e, e'], fun a => ?_, fun hw => hc ▸ w (hc ▸ w' hw)⟩
      rw [g, imageByte]
      cases imageByte rest a <;> simp [g']

/-- A record with a byte in word `w`, by its first and its last byte. -/
theorem recordCovers_iff (r : DataRecord) (w : Nat) :
    recordCovers r w = true ↔ 0 < r.bytes.length ∧ r.addr < 2 * w + 2 ∧ 2 * w < r.addr + r.bytes.length := by
  rw [recordCovers, Bool.and_eq_true, Bool.and_eq_true, decide_eq_true_eq, decide_eq_true_eq, decide_eq_true_eq,
    ← List.length_pos_iff, and_assoc]

/-- No record covers a word just when the image has neither of its bytes. -/
theorem no_record_covers_iff (rs : List DataRecord) (w : Nat) :
    rs.any (fun r => recordCovers r w) = false ↔ imageByte rs (2 * w) = none ∧ imageByte rs (2 * w + 1) = none := by
  induction rs with
  | nil => simp [imageByte]
  | cons r rest ih =>
    have hr : recordCovers r w = false ↔
        (if r.addr ≤ 2 * w then r.bytes[2 * w - r.addr]? else none) = none ∧
          (if r.addr ≤ 2 * w + 1 then r.bytes[2 * w + 1 - r.addr]? else none) = none := by
      rw [← Bool.not_eq_true, recordCovers_iff]
      split_ifs <;> simp only [List.getElem?_eq_none_iff, eq_self, and_true, true_and, iff_true] <;> omega
    rw [List.any_cons, Bool.or_eq_false_iff, ih, hr, imageByte, imageByte]
    cases imageByte rest (2 * w) <;> cases imageByte rest (2 * w + 1) <;> simp

end Sys2Proof.Machine
end

