-- ==== Sys2Proof/Laws/PerInstr.lean ====
section
/-!
SUPPORT. The words of every instruction, one lemma per constructor: one word or two, and TwoWord of the first says which
(30_encoding.md R101, R115), so that fetch reads a second word for just the instructions that have one.
-/

namespace Sys2Proof.Laws.EncodedWords

/-- The instruction has one word or two, two just when TwoWord holds of the first (30_encoding.md R101, R115). -/
def Statement (i : Instr) : Prop :=
  ((encode i).length = 1 ∧ twoWord ((encode i).getD 0 0) = false) ∨
    ((encode i).length = 2 ∧ twoWord ((encode i).getD 0 0) = true)

theorem of_one {i : Instr} {w : Word} (h : encode i = [w]) (t : twoWord w = false) : Statement i := by
  simp [Statement, h, t]

theorem of_two {i : Instr} {w w2 : Word} (h : encode i = [w, w2]) (t : twoWord w = true) : Statement i := by
  simp [Statement, h, t]

theorem add (d r : Reg) : Statement (.add d r) :=
  of_one rfl (by rw [twoWord_bits]; simp [encodeRR_bit])

theorem adc (d r : Reg) : Statement (.adc d r) :=
  of_one rfl (by rw [twoWord_bits]; simp [encodeRR_bit])

theorem sub (d r : Reg) : Statement (.sub d r) :=
  of_one rfl (by rw [twoWord_bits]; simp [encodeRR_bit])

theorem sbc (d r : Reg) : Statement (.sbc d r) :=
  of_one rfl (by rw [twoWord_bits]; simp [encodeRR_bit])

theorem cp (d r : Reg) : Statement (.cp d r) :=
  of_one rfl (by rw [twoWord_bits]; simp [encodeRR_bit])

theorem cpc (d r : Reg) : Statement (.cpc d r) :=
  of_one rfl (by rw [twoWord_bits]; simp [encodeRR_bit])

theorem and (d r : Reg) : Statement (.and d r) :=
  of_one rfl (by rw [twoWord_bits]; simp [encodeRR_bit])

theorem or (d r : Reg) : Statement (.or d r) :=
  of_one rfl (by rw [twoWord_bits]; simp [encodeRR_bit])

theorem eor (d r : Reg) : Statement (.eor d r) :=
  of_one rfl (by rw [twoWord_bits]; simp [encodeRR_bit])

theorem cpse (d r : Reg) : Statement (.cpse d r) :=
  of_one rfl (by rw [twoWord_bits]; simp [encodeRR_bit])

theorem subi (d : Reg) (k : Byte) : Statement (.subi d k) :=
  of_one rfl (by rw [twoWord_bits]; simp [encodeRK_bit])

theorem sbci (d : Reg) (k : Byte) : Statement (.sbci d k) :=
  of_one rfl (by rw [twoWord_bits]; simp [encodeRK_bit])

theorem cpi (d : Reg) (k : Byte) : Statement (.cpi d k) :=
  of_one rfl (by rw [twoWord_bits]; simp [encodeRK_bit])

theorem ori (d : Reg) (k : Byte) : Statement (.ori d k) :=
  of_one rfl (by rw [twoWord_bits]; simp [encodeRK_bit])

theorem ldi (d : Reg) (k : Byte) : Statement (.ldi d k) :=
  of_one rfl (by rw [twoWord_bits]; simp [encodeRK_bit])

theorem com (d : Reg) : Statement (.com d) :=
  of_one rfl (by rw [twoWord_bits]; simp [encodeR1_bit])

theorem rjmp (k : BitVec 12) : Statement (.rjmp k) :=
  of_one (w := encodeK12 k) rfl (by rw [twoWord_bits]; simp [encodeK12_bit])

theorem brbs (b : BitVec 3) (k : BitVec 7) : Statement (.brbs b k) :=
  of_one rfl (by rw [twoWord_bits]; simp [encodeBR_bit])

theorem brbc (b : BitVec 3) (k : BitVec 7) : Statement (.brbc b k) :=
  of_one rfl (by rw [twoWord_bits]; simp [encodeBR_bit])

theorem jmp (k : PcWord) : Statement (.jmp k) :=
  of_two (encodeK22_eq _ k) (by rw [twoWord_bits]; simp [firstK22_bit])

theorem call (k : PcWord) : Statement (.call k) :=
  of_two (encodeK22_eq _ k) (by rw [twoWord_bits]; simp [firstK22_bit])

theorem ret : Statement (.ret) :=
  of_one rfl (by decide)

theorem push (r : Reg) : Statement (.push r) :=
  of_one rfl (by rw [twoWord_bits]; simp [encodeR1_bit])

theorem pop (d : Reg) : Statement (.pop d) :=
  of_one rfl (by rw [twoWord_bits]; simp [encodeR1_bit])

theorem lds (d : Reg) (k : Word) : Statement (.lds d k) :=
  of_two rfl (by rw [twoWord_bits]; simp [encodeR1_bit])

theorem sts (k : Word) (r : Reg) : Statement (.sts k r) :=
  of_two rfl (by rw [twoWord_bits]; simp [encodeR1_bit])

theorem ldX (d : Reg) : Statement (.ldX d) :=
  of_one rfl (by rw [twoWord_bits]; simp [encodeR1_bit])

theorem ldXInc (d : Reg) : Statement (.ldXInc d) :=
  of_one rfl (by rw [twoWord_bits]; simp [encodeR1_bit])

theorem ldDecX (d : Reg) : Statement (.ldDecX d) :=
  of_one rfl (by rw [twoWord_bits]; simp [encodeR1_bit])

theorem ldY (d : Reg) : Statement (.ldY d) :=
  of_one rfl (by rw [twoWord_bits]; simp [encodeR1_bit])

theorem ldYInc (d : Reg) : Statement (.ldYInc d) :=
  of_one rfl (by rw [twoWord_bits]; simp [encodeR1_bit])

theorem ldDecY (d : Reg) : Statement (.ldDecY d) :=
  of_one rfl (by rw [twoWord_bits]; simp [encodeR1_bit])

theorem ldZ (d : Reg) : Statement (.ldZ d) :=
  of_one rfl (by rw [twoWord_bits]; simp [encodeR1_bit])

theorem ldZInc (d : Reg) : Statement (.ldZInc d) :=
  of_one rfl (by rw [twoWord_bits]; simp [encodeR1_bit])

theorem ldDecZ (d : Reg) : Statement (.ldDecZ d) :=
  of_one rfl (by rw [twoWord_bits]; simp [encodeR1_bit])

theorem stX (r : Reg) : Statement (.stX r) :=
  of_one rfl (by rw [twoWord_bits]; simp [encodeR1_bit])

theorem stXInc (r : Reg) : Statement (.stXInc r) :=
  of_one rfl (by rw [twoWord_bits]; simp [encodeR1_bit])

theorem stDecX (r : Reg) : Statement (.stDecX r) :=
  of_one rfl (by rw [twoWord_bits]; simp [encodeR1_bit])

theorem stY (r : Reg) : Statement (.stY r) :=
  of_one rfl (by rw [twoWord_bits]; simp [encodeR1_bit])

theorem stYInc (r : Reg) : Statement (.stYInc r) :=
  of_one rfl (by rw [twoWord_bits]; simp [encodeR1_bit])

theorem stDecY (r : Reg) : Statement (.stDecY r) :=
  of_one rfl (by rw [twoWord_bits]; simp [encodeR1_bit])

theorem stZ (r : Reg) : Statement (.stZ r) :=
  of_one rfl (by rw [twoWord_bits]; simp [encodeR1_bit])

theorem stZInc (r : Reg) : Statement (.stZInc r) :=
  of_one rfl (by rw [twoWord_bits]; simp [encodeR1_bit])

theorem stDecZ (r : Reg) : Statement (.stDecZ r) :=
  of_one rfl (by rw [twoWord_bits]; simp [encodeR1_bit])

theorem lpmZ (d : Reg) : Statement (.lpmZ d) :=
  of_one rfl (by rw [twoWord_bits]; simp [encodeR1_bit])

theorem lpmZInc (d : Reg) : Statement (.lpmZInc d) :=
  of_one rfl (by rw [twoWord_bits]; simp [encodeR1_bit])

theorem elpmZ (d : Reg) : Statement (.elpmZ d) :=
  of_one rfl (by rw [twoWord_bits]; simp [encodeR1_bit])

theorem elpmZInc (d : Reg) : Statement (.elpmZInc d) :=
  of_one rfl (by rw [twoWord_bits]; simp [encodeR1_bit])

theorem inIo (d : Reg) (a : BitVec 6) : Statement (.inIo d a) :=
  of_one rfl (by rw [twoWord_bits]; simp [encodeIO_bit])

theorem outIo (a : BitVec 6) (r : Reg) : Statement (.outIo a r) :=
  of_one rfl (by rw [twoWord_bits]; simp [encodeIO_bit])

end Sys2Proof.Laws.EncodedWords
end

