-- ==== Sys2Proof/Tests/Slice0.lean ====
section
/-!
SUPPORT. The model's own tests: the well-formedness smoke test, one word per instruction written out from the spec's
encoding, one step per instruction with the spec's own example, and a witness for every statement with hypotheses.
-/

namespace Sys2Proof.Tests

open Sys2Proof Sys2Proof.Machine Sys2Proof.Safety

/-! ### Well-formedness: a register below r16 in format RK is refused (30_encoding.md R106) -/

theorem test_wf_subi : WellFormed (.subi 15 0) = false ∧ WellFormed (.subi 16 0) = true := by decide
theorem test_wf_sbci : WellFormed (.sbci 15 0) = false ∧ WellFormed (.sbci 16 0) = true := by decide
theorem test_wf_cpi : WellFormed (.cpi 15 0) = false ∧ WellFormed (.cpi 31 0) = true := by decide
theorem test_wf_ori : WellFormed (.ori 0 0) = false ∧ WellFormed (.ori 16 0) = true := by decide
theorem test_wf_ldi : WellFormed (.ldi 15 0) = false ∧ WellFormed (.ldi 31 0) = true := by decide

/-! ### Decoding: each word is the row's encoding in spec/opcode_table.json with the operands' bits written in -/

theorem test_decode_add : decode 0b0000111101100011#16 0 = .ok (.add 22 19) := by decide
theorem test_decode_adc : decode 0b0001111101100011#16 0 = .ok (.adc 22 19) := by decide
theorem test_decode_sub : decode 0b0001101101100011#16 0 = .ok (.sub 22 19) := by decide
theorem test_decode_sbc : decode 0b0000101101100011#16 0 = .ok (.sbc 22 19) := by decide
theorem test_decode_cp : decode 0b0001011101100011#16 0 = .ok (.cp 22 19) := by decide
theorem test_decode_cpc : decode 0b0000011101100011#16 0 = .ok (.cpc 22 19) := by decide
theorem test_decode_and : decode 0b0010001101100011#16 0 = .ok (.and 22 19) := by decide
theorem test_decode_or : decode 0b0010101101100011#16 0 = .ok (.or 22 19) := by decide
theorem test_decode_eor : decode 0b0010011101100011#16 0 = .ok (.eor 22 19) := by decide
theorem test_decode_cpse : decode 0b0001001101100011#16 0 = .ok (.cpse 22 19) := by decide
theorem test_decode_subi : decode 0b0101101001010110#16 0 = .ok (.subi 21 0xA6) := by decide
theorem test_decode_sbci : decode 0b0100101001010110#16 0 = .ok (.sbci 21 0xA6) := by decide
theorem test_decode_cpi : decode 0b0011101001010110#16 0 = .ok (.cpi 21 0xA6) := by decide
theorem test_decode_ori : decode 0b0110101001010110#16 0 = .ok (.ori 21 0xA6) := by decide
theorem test_decode_ldi : decode 0b1110101001010110#16 0 = .ok (.ldi 21 0xA6) := by decide
theorem test_decode_com : decode 0b1001010101010000#16 0 = .ok (.com 21) := by decide
theorem test_decode_rjmp : decode 0b1100101001011100#16 0 = .ok (.rjmp 0xA5C) := by decide
theorem test_decode_brbs : decode 0b1111000101101110#16 0 = .ok (.brbs 6 45) := by decide
theorem test_decode_brbc : decode 0b1111010101101110#16 0 = .ok (.brbc 6 45) := by decide
theorem test_decode_jmp : decode 0b1001010101011100#16 0xbcde = .ok (.jmp 0x2abcde) := by decide
theorem test_decode_call : decode 0b1001010010101111#16 0x5a5a = .ok (.call 0x155a5a) := by decide
theorem test_decode_ret : decode 0b1001010100001000#16 0 = .ok .ret := by decide
theorem test_decode_push : decode 0b1001001101011111#16 0 = .ok (.push 21) := by decide
theorem test_decode_pop : decode 0b1001000101011111#16 0 = .ok (.pop 21) := by decide
theorem test_decode_lds : decode 0b1001000101010000#16 0x1234 = .ok (.lds 21 0x1234) := by decide
theorem test_decode_sts : decode 0b1001001101010000#16 0x1234 = .ok (.sts 0x1234 21) := by decide
theorem test_decode_ldX : decode 0b1001000101011100#16 0 = .ok (.ldX 21) := by decide
theorem test_decode_ldXInc : decode 0b1001000101011101#16 0 = .ok (.ldXInc 21) := by decide
theorem test_decode_ldDecX : decode 0b1001000101011110#16 0 = .ok (.ldDecX 21) := by decide
theorem test_decode_ldY : decode 0b1000000101011000#16 0 = .ok (.ldY 21) := by decide
theorem test_decode_ldYInc : decode 0b1001000101011001#16 0 = .ok (.ldYInc 21) := by decide
theorem test_decode_ldDecY : decode 0b1001000101011010#16 0 = .ok (.ldDecY 21) := by decide
theorem test_decode_ldZ : decode 0b1000000101010000#16 0 = .ok (.ldZ 21) := by decide
theorem test_decode_ldZInc : decode 0b1001000101010001#16 0 = .ok (.ldZInc 21) := by decide
theorem test_decode_ldDecZ : decode 0b1001000101010010#16 0 = .ok (.ldDecZ 21) := by decide
theorem test_decode_stX : decode 0b1001001101011100#16 0 = .ok (.stX 21) := by decide
theorem test_decode_stXInc : decode 0b1001001101011101#16 0 = .ok (.stXInc 21) := by decide
theorem test_decode_stDecX : decode 0b1001001101011110#16 0 = .ok (.stDecX 21) := by decide
theorem test_decode_stY : decode 0b1000001101011000#16 0 = .ok (.stY 21) := by decide
theorem test_decode_stYInc : decode 0b1001001101011001#16 0 = .ok (.stYInc 21) := by decide
theorem test_decode_stDecY : decode 0b1001001101011010#16 0 = .ok (.stDecY 21) := by decide
theorem test_decode_stZ : decode 0b1000001101010000#16 0 = .ok (.stZ 21) := by decide
theorem test_decode_stZInc : decode 0b1001001101010001#16 0 = .ok (.stZInc 21) := by decide
theorem test_decode_stDecZ : decode 0b1001001101010010#16 0 = .ok (.stDecZ 21) := by decide
theorem test_decode_lpmZ : decode 0b1001000101010100#16 0 = .ok (.lpmZ 21) := by decide
theorem test_decode_lpmZInc : decode 0b1001000101010101#16 0 = .ok (.lpmZInc 21) := by decide
theorem test_decode_elpmZ : decode 0b1001000101010110#16 0 = .ok (.elpmZ 21) := by decide
theorem test_decode_elpmZInc : decode 0b1001000101010111#16 0 = .ok (.elpmZInc 21) := by decide
theorem test_decode_inIo : decode 0b1011010011011011#16 0 = .ok (.inIo 13 0x2B) := by decide
theorem test_decode_outIo : decode 0b1011110011011011#16 0 = .ok (.outIo 0x2B 13) := by decide

/-- Words with no row (30_encoding.md R120; 95_test_vectors.md). -/
theorem test_decode_illegal :
    decode 0x0000 0 = .error (.illegalInstruction 0x0000) ∧ decode 0xFFFF 0 = .error (.illegalInstruction 0xFFFF) ∧
    decode 0x9003 0 = .error (.illegalInstruction 0x9003) ∧ decode 0x9518 0 = .error (.illegalInstruction 0x9518) := by
  decide

/-- The table's numbering of bits: a JMP's second word counts on from bit 16. -/
theorem test_table_word :
    decodeTableWord 32 0x0100940C = some (.jmp 0x0100) ∧ decodeTableWord 16 0x9000 = some (.lds 0 0) ∧
    decodeTableWord 16 0x9508 = some .ret ∧ decodeTableWord 16 0 = none := by decide

/-! ### One step -/

/-- The machine after reset. -/
def new : State := State.reset

/-- The machine after reset with a Flash of 0x20000 words (43_load_store_io.md R265's example). -/
def big : State := { State.reset with cfg := { defaultParams with flashWords := 0x20000 } }

/-- A register set. -/
def put (n : Reg) (v : Byte) (s : State) : State := s.setReg n v

/-- SREG set. -/
def flags (v : Byte) (s : State) : State := s.setSreg v

/-- Words in Flash from word address `a`. -/
def place (s : State) (a : Nat) (ws : List Word) : State :=
  match ws with
  | [] => s
  | w :: rest => place (s.placeFlashWord a w) (a + 1) rest

/-- Words in Flash from word address `a`, and the pc there. -/
def placed (s : State) (a : Nat) (ws : List Word) : State := (place s a ws).setPc (BitVec.ofNat 22 a)

/-- The state after one step. -/
def after (s : State) : Option State :=
  match step s with
  | .next t => some t
  | .fault _ => none
  | .refused _ => none

/-- R146, its example. -/
theorem test_add_example :
    (after (placed (put 16 0x05 <| put 17 0x03 new) 0 [0x0F01])).map (fun t => (t.reg 16, t.sreg)) = some (0x08, 0x00) := by decide

/-- R147, its example. -/
theorem test_adc_example :
    (after (placed (put 24 0xFF <| flags 0x01 new) 0 [0x1F89])).map (fun t => (t.reg 24, t.sreg)) = some (0x00, 0x33) := by decide

/-- R148, its example. -/
theorem test_sub_example :
    (after (placed (put 16 0x10 <| put 17 0x01 new) 0 [0x1B01])).map (fun t => (t.reg 16, t.sreg)) = some (0x0F, 0x30) := by decide

/-- R149, its example. -/
theorem test_sbc_example :
    (after (placed (flags 0x03 new) 0 [0x0B13])).map (fun t => (t.reg 17, t.sreg)) = some (0xFF, 0x35) := by decide

/-- R152, its example. -/
theorem test_cp_example :
    (after (placed (put 0 0x42 <| put 1 0x42 new) 0 [0x1401])).map (fun t => (t.reg 0, t.reg 1, t.sreg)) = some (0x42, 0x42, 0x02) := by decide

/-- R153, its example. -/
theorem test_cpc_example :
    (after (placed new 0 [0x0423])).map (fun t => (t.reg 2, t.sreg)) = some (0x00, 0x00) := by decide

/-- R155, its example. -/
theorem test_and_example :
    (after (placed (put 16 0xF0 <| put 17 0x0F new) 0 [0x2301])).map (fun t => (t.reg 16, t.sreg)) = some (0x00, 0x02) := by decide

/-- R156, its example. -/
theorem test_or_example :
    (after (placed (put 16 0x80 <| put 17 0x01 <| flags 0x08 new) 0 [0x2B01])).map (fun t => (t.reg 16, t.sreg)) = some (0x81, 0x1C) := by decide

/-- R157, its example. -/
theorem test_eor_example :
    (after (placed (put 5 0x3C new) 0 [0x2455])).map (fun t => (t.reg 5, t.sreg)) = some (0x00, 0x02) := by decide

/-- R209, its example. -/
theorem test_cpse_example :
    (after (placed (put 1 0x07 <| put 2 0x07 new) 0 [0x1012, 0x940E, 0x0010])).map (fun t => (t.pc, t.sreg)) = some (3, 0x00) := by decide

/-- R150, its example. -/
theorem test_subi_example :
    (after (placed new 0 [0x5800])).map (fun t => (t.reg 16, t.sreg)) = some (0x80, 0x1D) := by decide

/-- R151, its example. -/
theorem test_sbci_example :
    (after (placed (flags 0x02 new) 0 [0x4010])).map (fun t => (t.reg 17, t.sreg)) = some (0x00, 0x02) := by decide

/-- R154, its example. -/
theorem test_cpi_example :
    (after (placed (put 16 0x05 new) 0 [0x3100])).map (fun t => (t.reg 16, t.sreg)) = some (0x05, 0x05) := by decide

/-- R158, its example. -/
theorem test_ori_example :
    (after (placed (put 16 0xF0 new) 0 [0x600F])).map (fun t => (t.reg 16, t.sreg)) = some (0xFF, 0x04) := by decide

/-- R240, its example. -/
theorem test_ldi_example :
    (after (placed new 0 [0xE005])).map (fun t => (t.reg 16, t.sreg)) = some (0x05, 0x00) := by decide

/-- R159, its example. -/
theorem test_com_example :
    (after (placed new 0 [0x9400])).map (fun t => (t.reg 0, t.sreg)) = some (0xFF, 0x05) := by decide

/-- R202, its example. -/
theorem test_rjmp_example :
    (after (placed new 0x10 [0xCFFF])).map (fun t => (t.pc, t.sreg)) = some (0x10, 0x00) := by decide

/-- R210, its example. -/
theorem test_brbs_example :
    (after (placed (flags 0x02 new) 0x20 [0xF011])).map (fun t => (t.pc, t.sreg)) = some (0x23, 0x02) := by decide

/-- R211, its example. -/
theorem test_brbc_example :
    (after (placed new 0x20 [0xF7E9])).map (fun t => (t.pc, t.sreg)) = some (0x1E, 0x00) := by decide

/-- R203, its example. -/
theorem test_jmp_example :
    (after (placed new 0 [0x940C, 0x0100])).map (fun t => (t.pc, t.sp)) = some (0x100, 0x0000) := by decide

/-- R206, its example. -/
theorem test_call_example :
    (after (placed (new.setSp 0x08FF) 4 [0x940E, 0x0010])).map (fun t => (t.pc, t.sp, t.byteAt 0x8FF, t.byteAt 0x8FE, t.callStack)) = some (0x10, 0x08FC, 0x06, 0x00, [6]) := by decide

/-- R207, its example. -/
theorem test_ret_example :
    (after (placed ((new.putByte 0x8FF 0x06).setSp 0x08FC) 0x10 [0x9508])).map (fun t => (t.pc, t.sp)) = some (6, 0x08FF) := by decide

/-- R212, its example. -/
theorem test_push_example :
    (after (placed (put 16 0xAB <| new.setSp 0x08FF) 0 [0x930F])).map (fun t => (t.byteAt 0x8FF, t.sp)) = some (0xAB, 0x08FE) := by decide

/-- R213, its example. -/
theorem test_pop_example :
    (after (placed ((new.putByte 0x8FF 0xAB).setSp 0x08FE) 0 [0x911F])).map (fun t => (t.reg 17, t.sp)) = some (0xAB, 0x08FF) := by decide

/-- R241, its example. -/
theorem test_lds_example :
    (after (placed (new.putByte 0x100 0x5A) 0 [0x9000, 0x0100])).map (fun t => (t.reg 0, t.pc)) = some (0x5A, 2) := by decide

/-- R242, its example. -/
theorem test_sts_example :
    (after (placed (put 16 0x77 new) 0 [0x9300, 0x0100])).map (fun t => (t.byteAt 0x100, t.pc)) = some (0x77, 2) := by decide

/-- R245, its example. -/
theorem test_ldX_example :
    (after (placed ((new.putByte 0x100 0x5A).setPtr .x 0x0100) 0 [0x900C])).map (fun t => (t.reg 0, t.ptr .x)) = some (0x5A, 0x0100) := by decide

/-- R246, its example. -/
theorem test_ldXInc_example :
    (after (placed ((new.putByte 0x100 0x5A).setPtr .x 0x0100) 0 [0x900D])).map (fun t => (t.reg 0, t.ptr .x)) = some (0x5A, 0x0101) := by decide

/-- R247, its example. -/
theorem test_ldDecX_example :
    (after (placed ((new.putByte 0x100 0x5A).setPtr .x 0x0101) 0 [0x900E])).map (fun t => (t.reg 0, t.ptr .x)) = some (0x5A, 0x0100) := by decide

/-- R248, its example. -/
theorem test_ldY_example :
    (after (placed ((new.putByte 0x200 0x11).setPtr .y 0x0200) 0 [0x8018])).map (fun t => (t.reg 1, t.ptr .y)) = some (0x11, 0x0200) := by decide

/-- R249, its example. -/
theorem test_ldYInc_example :
    (after (placed ((new.putByte 0x200 0x11).setPtr .y 0x0200) 0 [0x9019])).map (fun t => (t.reg 1, t.ptr .y)) = some (0x11, 0x0201) := by decide

/-- R250, its example. -/
theorem test_ldDecY_example :
    (after (placed ((new.putByte 0x200 0x11).setPtr .y 0x0201) 0 [0x901A])).map (fun t => (t.reg 1, t.ptr .y)) = some (0x11, 0x0200) := by decide

/-- R251, its example. -/
theorem test_ldZ_example :
    (after (placed ((new.putByte 0x5F 0x02).setPtr .z 0x005F) 0 [0x8020])).map (fun t => (t.reg 2, t.ptr .z)) = some (0x02, 0x005F) := by decide

/-- R252, its example. -/
theorem test_ldZInc_example :
    (after (placed ((new.putByte 0x300 0x22).setPtr .z 0x0300) 0 [0x9021])).map (fun t => (t.reg 2, t.ptr .z)) = some (0x22, 0x0301) := by decide

/-- R253, its example. -/
theorem test_ldDecZ_example :
    (after (placed ((new.putByte 0x300 0x22).setPtr .z 0x0301) 0 [0x9022])).map (fun t => (t.reg 2, t.ptr .z)) = some (0x22, 0x0300) := by decide

/-- R254, its example. -/
theorem test_stX_example :
    (after (placed ((put 0 0x99 new).setPtr .x 0x0100) 0 [0x920C])).map (fun t => (t.byteAt 0x100, t.ptr .x)) = some (0x99, 0x0100) := by decide

/-- R255, its example. -/
theorem test_stXInc_example :
    (after (placed ((put 0 0x99 new).setPtr .x 0x0100) 0 [0x920D])).map (fun t => (t.byteAt 0x100, t.ptr .x)) = some (0x99, 0x0101) := by decide

/-- R256, its example. -/
theorem test_stDecX_example :
    (after (placed ((put 0 0x99 new).setPtr .x 0x0101) 0 [0x920E])).map (fun t => (t.byteAt 0x100, t.ptr .x)) = some (0x99, 0x0100) := by decide

/-- R257, its example. -/
theorem test_stY_example :
    (after (placed ((put 1 0x44 new).setPtr .y 0x0200) 0 [0x8218])).map (fun t => (t.byteAt 0x200, t.ptr .y)) = some (0x44, 0x0200) := by decide

/-- R258, its example. -/
theorem test_stYInc_example :
    (after (placed ((put 1 0x44 new).setPtr .y 0x0200) 0 [0x9219])).map (fun t => (t.byteAt 0x200, t.ptr .y)) = some (0x44, 0x0201) := by decide

/-- R259, its example. -/
theorem test_stDecY_example :
    (after (placed ((put 1 0x44 new).setPtr .y 0x0201) 0 [0x921A])).map (fun t => (t.byteAt 0x200, t.ptr .y)) = some (0x44, 0x0200) := by decide

/-- R260, its example. -/
theorem test_stZ_example :
    (after (placed ((put 2 0x55 new).setPtr .z 0x0300) 0 [0x8220])).map (fun t => (t.byteAt 0x300, t.ptr .z)) = some (0x55, 0x0300) := by decide

/-- R261, its example. -/
theorem test_stZInc_example :
    (after (placed ((put 2 0x55 new).setPtr .z 0x0300) 0 [0x9221])).map (fun t => (t.byteAt 0x300, t.ptr .z)) = some (0x55, 0x0301) := by decide

/-- R262, its example. -/
theorem test_stDecZ_example :
    (after (placed ((put 2 0x55 new).setPtr .z 0x0301) 0 [0x9222])).map (fun t => (t.byteAt 0x300, t.ptr .z)) = some (0x55, 0x0300) := by decide

/-- R263, its example. -/
theorem test_lpmZ_example :
    (after (placed ((new.placeFlashWord 0x10 0x1234).setPtr .z 0x0021) 0 [0x9004])).map (fun t => (t.reg 0, t.ptr .z)) = some (0x12, 0x0021) := by decide

/-- R264, its example. -/
theorem test_lpmZInc_example :
    (after (placed ((new.placeFlashWord 0x10 0x1234).setPtr .z 0x0020) 0 [0x9005])).map (fun t => (t.reg 0, t.ptr .z)) = some (0x34, 0x0021) := by decide

/-- R265, its example. -/
theorem test_elpmZ_example :
    (after (placed ((big.placeFlashWord 0x18000 0xBEEF).setRampz 0x03) 0 [0x9006])).map (fun t => (t.reg 0, t.rampz)) = some (0xEF, 0x03) := by decide

/-- R266, its example. -/
theorem test_elpmZInc_example :
    (after (placed (((big.placeFlashWord 0xFFFF 0xA55A).setRampz 0x01).setPtr .z 0xFFFF) 0 [0x9007])).map (fun t => (t.reg 0, t.rampz, t.ptr .z)) = some (0xA5, 0x02, 0x0000) := by decide

/-- R267, its example. -/
theorem test_inIo_example :
    (after (placed (flags 0x03 new) 0 [0xB70F])).map (fun t => (t.reg 16, t.sreg)) = some (0x03, 0x03) := by decide

/-- R268, its example. -/
theorem test_outIo_example :
    (after (placed (put 17 0x08 <| new.putByte 0x5D 0xFF) 0 [0xBF1E])).map (fun t => (t.sp, t.pc)) = some (0x08FF, 1) := by decide

/-! ### Witnesses: for each statement with hypotheses, a state and operands that meet them, at the edges of their ranges -/

/-- The last word of Flash, 0x3FF, holding `w`. -/
def atEnd (w : Word) : State := placed new 0x3FF [w]

/-- A Faulted core. -/
def faulted : State :=
  { new with fault := some { kind := .pcRange, addr := 5, op := none, info := 0x400 }, delayedCycles := -3 }

theorem test_witness_encode_undoes_decode :
    decode 0x940D 0x2345 = .ok (.jmp 0x12345) ∧ twoWord 0x940D = true ∧
    decode 0x0F01 0x2345 = .ok (.add 16 17) ∧ twoWord 0x0F01 = false := by decide

theorem test_witness_no_row : (∀ row ∈ tableRows, rowMatches 0x0000 row = false) ∧
    (∀ row ∈ tableRows, rowMatches 0xFFFF row = false) := by simp [tableRows, rowMatches]

/-- A one-word instruction in the last word of Flash, a two-word one in the last two. -/
theorem test_witness_step_runs :
    (Running (atEnd 0x0F01) ∧ (atEnd 0x0F01).pc.toNat < (atEnd 0x0F01).cfg.flashWords ∧
      decode (fetchedWord (atEnd 0x0F01)) 0 = .ok (.add 16 17)) ∧
    (let s := placed new 0x3FE [0x940C, 0x0100]
     Running s ∧ twoWord (fetchedWord s) = true ∧ (s.pc + 1).toNat < s.cfg.flashWords ∧
      decode (fetchedWord s) (s.flashWord (s.pc + 1).toNat) = .ok (.jmp 0x100)) :=
  ⟨⟨rfl, by decide, by decide⟩, rfl, by decide, by decide, by decide⟩

theorem test_witness_illegal :
    Running (atEnd 0xFFFF) ∧ (atEnd 0xFFFF).pc.toNat < (atEnd 0xFFFF).cfg.flashWords ∧
      ∀ row ∈ tableRows, rowMatches (fetchedWord (atEnd 0xFFFF)) row = false :=
  ⟨rfl, by decide, by rw [show fetchedWord (atEnd 0xFFFF) = 0xFFFF by decide]; exact test_witness_no_row.2⟩

/-- An illegal word's step: 60_exceptions.md R300, R301. -/
theorem test_illegal_step :
    (after (atEnd 0xFFFF)).map (fun t => (t.fault, t.ds, t.instrCount)) =
      some (some { kind := .illegalInstruction, addr := 0x3FF, op := some 0xFFFF, info := 0xFFFF }, [], 0) ∧
    (hostStep (atEnd 0xFFFF)).2 = 0 := by decide

theorem test_witness_pc_range :
    (Running (new.setPc 0x400) ∧ (new.setPc 0x400).cfg.flashWords ≤ (new.setPc 0x400).pc.toNat) ∧
    (Running (atEnd 0x940C) ∧ (atEnd 0x940C).pc.toNat < (atEnd 0x940C).cfg.flashWords ∧
      (atEnd 0x940C).cfg.flashWords ≤ ((atEnd 0x940C).pc + 1).toNat ∧
      twoWord (fetchedWord (atEnd 0x940C)) = true) ∧
    ((atEnd 0x1012).reg 1 = (atEnd 0x1012).reg 2 ∧ (atEnd 0x1012).cfg.flashWords ≤ ((atEnd 0x1012).pc + 1).toNat) ∧
    ∃ t f, Running (atEnd 0x1012) ∧ exec (.cpse 1 2) (atEnd 0x1012) = .next t ∧ t.fault = some f ∧ f.kind = .pcRange :=
  ⟨⟨rfl, by decide⟩, ⟨rfl, by decide, by decide, by decide⟩, ⟨by decide, by decide⟩, _, _, rfl, rfl, rfl, rfl⟩

/-- The three fetches' records: 60_exceptions.md R302. -/
theorem test_pc_range_records :
    (after (new.setPc 0x400)).map (·.fault) =
      some (some { kind := .pcRange, addr := 0x400, op := none, info := 0x400 }) ∧
    (after (atEnd 0x940C)).map (·.fault) =
      some (some { kind := .pcRange, addr := 0x3FF, op := some 0x940C, info := 0x400 }) ∧
    (after (atEnd 0x1012)).map (·.fault) =
      some (some { kind := .pcRange, addr := 0x3FF, op := some 0x1012, info := 0x400 }) := by decide

/-- The last word of a Flash of 2^22 words, holding `w`; word 0 holds 0x940E, which is also the first word of a CALL. -/
def atTop (w : Word) : State :=
  placed ({ new with cfg := { defaultParams with flashWords := 0x400000 } }.placeFlashWord 0 0x940E) 0x3FFFFF [w]

/-- There the word after is word 0 and the pc after that 1: JMP's target word, and CPSE over a two-word instruction
(10_state.md R36, R38; 20_memory.md R81). -/
theorem test_wrap_at_the_top :
    (after (atTop 0x940C)).map (fun t => (t.pc, t.fault)) = some (0x00940E, none) ∧
    (after (atTop 0x1012)).map (fun t => (t.pc, t.fault)) = some (2, none) := by decide

/-- A one-byte program: byte 0x42 at byte address 5, then the end-of-file record (60_exceptions.md R316, R317). -/
def image : List Char :=
  [':', '0', '1', '0', '0', '0', '5', '0', '0', '4', '2', 'B', '8', '\r', '\n'] ++
  [':', '0', '0', '0', '0', '0', '0', '0', '1', 'F', 'F', '\r', '\n']

/-- A load's bytes in Flash: byte 5 is the high byte of word 2 (60_exceptions.md R315). -/
theorem test_load : (hostLoadProgram new image).toOption.map (·.flash) = some [(5, 0x42)] ∧
    hostLoadProgram new [] = .error .emptyFile ∧ hostLoadProgram new [':'] = .error .malformed := by decide

/-- A second load: the other byte of word 2 stays, word 3, which no record covers, is no longer placed (R315). -/
theorem test_second_load :
    (hostLoadProgram { new with flash := [(4, 0x11), (6, 0x22)], loads := 1 } image).toOption.map
      (fun t => (t.flash, t.loads)) = some ([(4, 0x11), (5, 0x42)], 2) := by decide

theorem test_witness_loaded :
    (∃ t, hostLoadProgram new image = .ok t) ∧ imageByte [{ addr := 5, bytes := [0x42] }] 5 = some 0x42 ∧
    imageByte [{ addr := 5, bytes := [0x42] }] 4 = none ∧ imageByte [{ addr := 5, bytes := [0x42] }] 6 = none ∧
    parseRecords image.length image = .ok [{ addr := 5, bytes := [0x42] }] := ⟨⟨_, rfl⟩, by decide⟩

theorem test_witness_faulted :
    (∃ f, faulted.fault = some f) ∧ 0 < ((4 : Nat) : Int) + faulted.delayedCycles ∧
    ((3 : Nat) : Int) + faulted.delayedCycles ≤ 0 ∧ ∃ t, hostLoadProgram faulted image = .ok t :=
  ⟨⟨_, rfl⟩, by decide, by decide, _, rfl⟩

theorem test_witness_precise : ∃ t f, step (atEnd 0xFFFF) = .next t ∧ t.fault = some f := ⟨_, _, rfl, rfl⟩

theorem test_reset_inv : MachineInv State.reset := by
  unfold MachineInv
  decide

theorem test_witness_step_keeps_inv :
    MachineInv (placed new 0 [0xE005]) ∧ ∃ t, step (placed new 0 [0xE005]) = .next t := by
  refine ⟨?_, _, rfl⟩
  unfold MachineInv
  decide

theorem test_witness_step_completes : ∃ t, step (placed new 0 [0xE005]) = .next t ∧ t.fault = none := ⟨_, rfl, rfl⟩

/-- One instruction of each use of SREG. -/
theorem test_witness_sreg :
    (sregUse (.ldi 16 5) = .untouched ∧ ∃ t, exec (.ldi 16 5) new = .next t) ∧
    (sregUse (.add 16 17) = .flagsOnly ∧ ∃ t, exec (.add 16 17) new = .next t) ∧
    (sregUse (.outIo 0x3F 0) = .dataByte ∧ ∃ t, exec (.outIo 0x3F 0) new = .next t) :=
  ⟨⟨rfl, _, rfl⟩, ⟨rfl, _, rfl⟩, rfl, _, rfl⟩

/-- An instruction that completes and one that faults. -/
theorem test_witness_exec :
    Running new ∧ (∃ t, exec (.ldi 16 5) new = .next t ∧ t.fault = none) ∧
    ∃ t, exec .ret new = .next t ∧ t.fault ≠ none :=
  ⟨rfl, ⟨_, rfl, rfl⟩, _, rfl, by decide⟩

/-- Two states that differ in all the host's bookkeeping. -/
theorem test_witness_same_core :
    let s := placed new 0 [0x940E, 0x0010]
    let s' := { s with callStack := [7], breakpoints := [1], instrCount := 9, delayedCycles := -2 }
    SameCore s s' ∧ ∃ t, step s = .next t :=
  ⟨⟨rfl, rfl, rfl, rfl, rfl, rfl, rfl, rfl, rfl⟩, _, rfl⟩

theorem test_witness_upper : upperReg 16 = true ∧ upperReg 31 = true ∧ upperReg 15 = false := by decide

theorem test_witness_word_add : (25 : Reg) ≠ 24 ∧ (27 : Reg) ≠ 24 := by decide

/-- CALL completes from SP 0x62 up to the top of SRAM, 0x8FF, and traps on its first, second and third byte at SP 0x5F
and 0x900, 0x60, 0x61 (42_control_flow.md R206). -/
theorem test_witness_call :
    (new.setSp 0x62).inSram 0x62 = true ∧ (new.setSp 0x62).inSram 0x61 = true ∧ (new.setSp 0x62).inSram 0x60 = true ∧
    new.inSram 0x8FF = true ∧ new.inSram 0x5F = false ∧ new.inSram 0x900 = false ∧
    (new.setSp 0x60).inSram (new.setSp 0x60).sp = true ∧ (new.setSp 0x60).inSram ((new.setSp 0x60).sp - 1) = false ∧
    (new.setSp 0x61).inSram ((new.setSp 0x61).sp - 1) = true ∧
    (new.setSp 0x61).inSram ((new.setSp 0x61).sp - 2) = false := by decide

/-- CALL's two ends: 42_control_flow.md R206's corner cases. -/
theorem test_call_edges :
    (after (placed (new.setSp 0x62) 0 [0x940E, 0x0010])).map (fun t => (t.sp, t.fault)) = some (0x5F, none) ∧
    (after (placed (new.setSp 0x61) 0 [0x940E, 0x0010])).map (fun t => (t.sp, t.byteAt 0x61, t.fault)) =
      some (0x61, 0, some { kind := .stackRange, addr := 0, op := some 0x940E, info := 0x5F }) := by decide

/-- The second words of the two-word instructions at the last word of Flash. -/
theorem test_witness_second_word :
    (fetchedWord (atEnd 0x940D) &&& 0xFE0E = 0x940C) ∧ (fetchedWord (atEnd 0x95FE) &&& 0xFE0E = 0x940E) ∧
    (fetchedWord (atEnd 0x91F0) &&& 0xFE0F = 0x9000) ∧ (fetchedWord (atEnd 0x9300) &&& 0xFE0F = 0x9200) ∧
    (atEnd 0x940D).pc.toNat < (atEnd 0x940D).cfg.flashWords ∧
    (atEnd 0x940D).cfg.flashWords ≤ ((atEnd 0x940D).pc + 1).toNat ∧ (atEnd 0x940D).fault = none := by decide

/-- RET completes from SP 0x5F to 0x8FC and traps on its first, second and third byte at SP 0x5E and 0x8FF, 0x8FE, 0x8FD
(42_control_flow.md R207). -/
theorem test_witness_ret :
    (new.inSram (0x5F + 1) = true ∧ new.inSram (0x5F + 2) = true ∧ new.inSram (0x5F + 3) = true) ∧
    (new.inSram (0x8FC + 1) = true ∧ new.inSram (0x8FC + 2) = true ∧ new.inSram (0x8FC + 3) = true) ∧
    new.inSram (0x5E + 1) = false ∧ new.inSram (0x8FF + 1) = false ∧
    (new.inSram (0x8FE + 1) = true ∧ new.inSram (0x8FE + 2) = false) ∧
    (new.inSram (0x8FD + 1) = true ∧ new.inSram (0x8FD + 2) = true ∧ new.inSram (0x8FD + 3) = false) := by decide

/-- RET's last SP that does not fault and the first that does: 42_control_flow.md R207's corner cases. -/
theorem test_ret_edges :
    (after (placed (new.setSp 0x8FC) 0 [0x9508])).map (fun t => (t.sp, t.fault)) = some (0x8FF, none) ∧
    (after (placed (new.setSp 0x8FD) 0 [0x9508])).map (fun t => (t.sp, t.fault)) =
      some (0x8FD, some { kind := .stackRange, addr := 0, op := some 0x9508, info := 0x900 }) := by decide

theorem test_witness_cpse :
    (put 1 7 new).reg 1 ≠ (put 1 7 new).reg 2 ∧
    (new.reg 1 = new.reg 2 ∧ ((new.setPc 0x3FE).pc + 1).toNat < new.cfg.flashWords) ∧
    new.cfg.flashWords ≤ ((new.setPc 0x3FF).pc + 1).toNat := by decide

/-- CPSE over a one-word and over a two-word instruction: 70_reset_and_hazards.md R363. -/
theorem test_cpse_cycles :
    (hostStep (placed new 0 [0x1012, 0xE005])).2 = 2 ∧ (hostStep (placed new 0 [0x1012, 0x940E])).2 = 3 := by decide

/-- CPSE in the last word but one of Flash. -/
theorem test_witness_cpse_cycles :
    let s := placed new 0x3FE [0x1012, 0xE005]
    Running s ∧ s.pc.toNat < s.cfg.flashWords ∧ (s.pc + 1).toNat < s.cfg.flashWords ∧
      decode (fetchedWord s) 0 = .ok (.cpse 1 2) ∧ s.reg 1 = s.reg 2 :=
  ⟨rfl, by decide, by decide, by decide, rfl⟩

theorem test_witness_push : new.inSram 0x60 = true ∧ new.inSram 0x8FF = true ∧ new.inSram 0x5F = false ∧
    new.inSram 0x900 = false := by decide

theorem test_witness_pop : new.inSram (0x5F + 1) = true ∧ new.inSram (0x8FE + 1) = true ∧
    new.inSram (0x5E + 1) = false ∧ new.inSram (0x8FF + 1) = false ∧ new.inSram (0xFFFF + 1) = false := by decide

/-- Two registers pushed down to the first byte of SRAM. -/
theorem test_witness_nested : ∀ k : Nat, k < [16, (17 : Reg)].length →
    (new.setSp 0x61).inSram ((new.setSp 0x61).sp - BitVec.ofNat 16 k) = true := by decide

/-- PUSH, PUSH, POP, POP of two registers. -/
theorem test_nested :
    (match execAll [.push 16, .push 17, .pop 17, .pop 16] (put 16 1 <| put 17 2 <| new.setSp 0x61) with
      | .next t => some (t.reg 16, t.reg 17, t.sp, t.byteAt 0x61, t.byteAt 0x60)
      | .fault _ => none
      | .refused _ => none) = some (1, 2, 0x61, 1, 2) := by decide

/-- PUSH a, PUSH b, POP b, PUSH c, POP c, POP a. -/
def nesting : Nesting := .pair 16 (.pair 17 .empty (.pair 18 .empty .empty)) .empty

theorem test_witness_nesting :
    nesting.code = [.push 16, .push 17, .pop 17, .push 18, .pop 18, .pop 16] ∧ nesting.depth = 2 ∧
    nesting.lastPushed 0 = some 16 ∧ nesting.lastPushed 1 = some 18 ∧ nesting.lastPushed 2 = none ∧
    (∀ k : Nat, k < nesting.depth → (new.setSp 0x61).inSram ((new.setSp 0x61).sp - BitVec.ofNat 16 k) = true) := by decide

/-- After CALL the state itself is one that RET returns from. -/
theorem test_witness_call_ret :
    ∃ t, exec (.call 0x10) (new.setSp 0x62) = .next t ∧ t.cfg = t.cfg ∧ t.sp = 0x5F ∧ t.byteAt 0x62 = 2 :=
  ⟨_, rfl, rfl, by decide, by decide⟩

theorem test_witness_direct :
    (0x8FF : Word).toNat < new.cfg.dsSize ∧ new.cfg.dsSize ≤ (0x900 : Word).toNat ∧ 0x20 ≤ new.cfg.dsSize := by decide

/-- X, Y and Z at the last byte of DataSpace, one past it, and at 0, below which is 0xFFFF; a register of the pointer and
one that is not. -/
theorem test_witness_indirect : ∀ p : Ptr, p ∈ [Ptr.x, .y, .z] →
    ((new.setPtr p 0x8FF).ptr p).toNat < new.cfg.dsSize ∧ ((new.setPtr p 0x900).ptr p - 1).toNat < new.cfg.dsSize ∧
    new.cfg.dsSize ≤ ((new.setPtr p 0x900).ptr p).toNat ∧ new.cfg.dsSize ≤ (new.ptr p - 1).toNat ∧
    (ptrLow p).toNat ∈ ptrAddrs p ∧ (0 : Reg).toNat ∉ ptrAddrs p ∧
    (new.ptr p).toNat ∉ ptrAddrs p ∧ ((new.setPtr p 1).ptr p - 1).toNat ∉ ptrAddrs p := by decide

/-- The overlaps of ST: a stored register of the pointer with EA elsewhere, and EA on the pointer's own registers, in each
write-back mode. -/
theorem test_witness_st_overlap : ∀ p : Ptr, p ∈ [Ptr.x, .y, .z] →
    (∀ m, m ∈ [PtrMode.postInc, .preDec] → m ≠ .plain ∧
      (effAddr m ((new.setPtr p 0x100).ptr p)).toNat < new.cfg.dsSize ∧
      (effAddr m ((new.setPtr p 0x100).ptr p)).toNat ∉ ptrAddrs p) ∧
    (effAddr .postInc ((new.setPtr p ((ptrLow p).zeroExtend 16)).ptr p)).toNat ∈ ptrAddrs p ∧
    (effAddr .preDec ((new.setPtr p ((ptrHigh p).zeroExtend 16 + 1)).ptr p)).toNat ∈ ptrAddrs p := by decide

/-- An indirect load past DataSpace, and the last that is not: 60_exceptions.md R303. -/
theorem test_indirect_edges :
    (after (placed (new.setPtr .x 0x8FF) 0 [0x900D])).map (fun t => (t.ptr .x, t.fault)) = some (0x900, none) ∧
    (after (placed (new.setPtr .x 0x900) 0 [0x900D])).map (fun t => (t.ptr .x, t.fault)) =
      some (0x900, some { kind := .dataRange, addr := 0, op := some 0x900D, info := 0x900 }) := by decide

/-- LPM at the last byte of Flash and one past it; a register of Z and one that is not. -/
theorem test_witness_lpm :
    ((new.setPtr .z 0x7FF).ptr .z).toNat < 2 * new.cfg.flashWords ∧
    2 * new.cfg.flashWords ≤ ((new.setPtr .z 0x800).ptr .z).toNat ∧
    (0 : Reg) ≠ 30 ∧ (0 : Reg) ≠ 31 ∧ ((31 : Reg) = 30 ∨ (31 : Reg) = 31) := by decide

/-- ELPM at the last byte of a Flash of 2^17 words and one past it. -/
theorem test_witness_elpm :
    (let s := (big.setRampz 0x03).setPtr .z 0xFFFF
     s.rampz.toNat * 0x10000 + (s.ptr .z).toNat < 2 * s.cfg.flashWords) ∧
    (let s := big.setRampz 0x04
     2 * s.cfg.flashWords ≤ s.rampz.toNat * 0x10000 + (s.ptr .z).toNat) := by decide

theorem test_witness_out : (new.setSreg 0xFF).sreg = 0xFF ∧ ioAddr 0x3F = 0x5F ∧ ioAddr 0x3B = 0x5B := by decide

/-- `run` with a breakpoint at word 2, from word 0: LDI, LDI, then it stops (60_exceptions.md R313). -/
theorem test_witness_run :
    let s := hostSetBreakpoint (placed new 0 [0xE005, 0xE013]) 2
    s.cfg.wf = true ∧
      (hostRun 3 s 0).map (fun r => (r.1.pc, r.1.instrCount, r.1.fault, r.2)) = some (2, 2, none, 2) := by decide

/-- `simulate` of a budget one short of RJMP's two cycles carries -1; on a Faulted core it returns false
(60_exceptions.md R312). -/
theorem test_witness_simulate :
    (let r := hostSimulate (placed new 0 [0xCFFF]) 1
     new.cfg.wf = true ∧ r.2 = true ∧ r.1.delayedCycles = -1 ∧ r.1.pc = 0) ∧
    (let r := hostSimulate faulted 4
     faulted.cfg.wf = true ∧ r.2 = false ∧ r.1.delayedCycles = 0) := by decide

/-- Bytes up to the last one of Flash, and one past it. -/
theorem test_witness_placed :
    (placeBytes new 0x7FE [0x12, 0x34]).toOption.map (·.flash) = some [(0x7FE, 0x12), (0x7FF, 0x34)] ∧
    placeBytes new 0x7FF [0x12, 0x34] = .error (.beyondCapacity 0x800) := by decide

theorem test_breakpoints :
    (hostSetBreakpoint (hostSetBreakpoint (hostSetBreakpoint new 5) 2) 5).breakpoints = [2, 5] ∧
    (hostRemoveBreakpoint (hostSetBreakpoint (hostSetBreakpoint new 5) 2) 5).breakpoints = [2] := by decide

end Sys2Proof.Tests
end

section
/-!
PROOFS. The state family (10_state.md): what a completing instruction may change, said once for all instructions; then
the invariant, the frames, the pc, CallStack, and the noninterference of the host's bookkeeping.
-/

namespace Sys2Proof.Machine

open Sys2Proof.Safety

/-! ### The updates an instruction is made of -/

/-- The DataSpace bytes instruction `i` may write from `s`: inside DataSpace, or among the addresses that exist at every
capacity, and SREG's only when the table of 10_state.md R43 lists `i`. -/
def MayWrite (i : Instr) (s : State) (a : Nat) : Prop :=
  (a < 0x60 ∨ a < s.cfg.dsSize) ∧ (a = sregAddr → sregUse i ≠ .untouched)

theorem mayWrite_reg (i : Instr) (s : State) (n : Reg) : MayWrite i s n.toNat := by
  have hn := n.isLt
  exact ⟨.inl (by omega), fun h => by rw [sregAddr] at h; omega⟩

/-- The stack instructions' bytes: SREG is below SRAM. -/
theorem mayWrite_of_inSram (i : Instr) {s : State} {a : Word} (h : s.inSram a = true) : MayWrite i s a.toNat := by
  obtain ⟨hlo, hhi⟩ := (s.inSram_iff a).1 h
  exact ⟨.inr hhi, fun h => by rw [sregAddr] at h; omega⟩

/-- A data write inside DataSpace may reach any byte, SREG too (10_state.md R45). -/
theorem mayWrite_of_dataByte {i : Instr} {s : State} {a : Nat} (h : sregUse i = .dataByte)
    (ha : a < 0x60 ∨ a < s.cfg.dsSize) : MayWrite i s a := ⟨ha, fun _ => by rw [h]; decide⟩

/-- `t` comes from `s` by updates open to instruction `i`: of the pc, CallStack, the count of free values, and the
DataSpace bytes `i` may write. -/
inductive Updates (i : Instr) (s : State) : State → Prop where
  | refl : Updates i s s
  | setPc {t : State} (u : Updates i s t) (p : PcWord) : Updates i s (t.setPc p)
  | tick {t : State} (u : Updates i s t) (n : Nat) : Updates i s (t.tick n)
  | pushCall {t : State} (u : Updates i s t) (ra : PcWord) : Updates i s (t.pushCall ra)
  | popCall {t : State} (u : Updates i s t) : Updates i s t.popCall
  | putByte {t : State} (u : Updates i s t) {a : Nat} (h : MayWrite i s a) (v : Byte) : Updates i s (t.putByte a v)

namespace Updates

variable {i : Instr} {s t : State}

theorem advance (u : Updates i s t) (n : PcWord) : Updates i s (t.advance n) := u.setPc _

theorem setReg (u : Updates i s t) (n : Reg) (v : Byte) : Updates i s (t.setReg n v) :=
  u.putByte (mayWrite_reg i s n) v

theorem setFlags (u : Updates i s t) (h : sregUse i = .flagsOnly) (f : Flags) : Updates i s (t.setFlags f) :=
  u.putByte ⟨.inl (by decide), fun _ => by rw [h]; decide⟩ _

theorem setSp (u : Updates i s t) (v : Word) : Updates i s (t.setSp v) :=
  (u.putByte ⟨.inl (by decide), fun h => absurd h (by decide)⟩ _).putByte
    ⟨.inl (by decide), fun h => absurd h (by decide)⟩ _

theorem setRampz (u : Updates i s t) (v : Byte) : Updates i s (t.setRampz v) :=
  u.putByte ⟨.inl (by decide), fun h => absurd h (by decide)⟩ v

theorem setPtr (u : Updates i s t) (p : Ptr) (v : Word) : Updates i s (t.setPtr p v) := (u.setReg _ _).setReg _ _

theorem drawPtr (u : Updates i s t) (p : Ptr) : Updates i s (t.drawPtr p) := ((u.setReg _ _).setReg _ _).tick 2

theorem setRampzZ (u : Updates i s t) (v : BitVec 24) : Updates i s (t.setRampzZ v) := (u.setRampz _).setPtr _ _

theorem drawRampzZ (u : Updates i s t) : Updates i s t.drawRampzZ := ((u.drawPtr _).setRampz _).tick 1

theorem storedByte (p : Ptr) (m : PtrMode) (r : Reg) : Updates i s (s.storedByte p m r).2 := by
  rw [State.storedByte]
  split_ifs
  · exact refl.tick 1
  · exact refl

/-- No update reaches what no instruction writes (10_state.md R61, 60_exceptions.md R320). -/
theorem host (u : Updates i s t) : HostPartKept s t := by
  induction u with
  | refl => exact ⟨rfl, rfl, rfl, rfl, rfl⟩
  | setPc _ _ ih | tick _ _ ih | pushCall _ _ ih | popCall _ ih | putByte _ _ _ ih =>
    exact ⟨ih.cfg, ih.flash, ih.loads, ih.breakpoints, ih.delayedCycles⟩

/-- No update records a fault. -/
theorem fault (u : Updates i s t) : t.fault = s.fault := by
  induction u with
  | refl => rfl
  | setPc _ _ ih | tick _ _ ih | pushCall _ _ ih | popCall _ ih | putByte _ _ _ ih => exact ih

/-- DataSpace stays canonical and inside its capacity, where every address below SRAM exists. -/
theorem ds_wf (u : Updates i s t) (hc : 0x60 < s.cfg.dsSize)
    (hs : Memory.wf (some dsBlank) s.cfg.dsSize s.ds = true) :
    Memory.wf (some dsBlank) s.cfg.dsSize t.ds = true := by
  induction u with
  | refl => exact hs
  | setPc _ _ ih | tick _ _ ih | pushCall _ _ ih | popCall _ ih => exact ih
  | putByte _ h v ih =>
    obtain ⟨ha, -⟩ := h
    exact Memory.wf_writeDs ih (by omega) v

/-- An instruction the table of 10_state.md R43 does not list leaves SREG alone. -/
theorem sreg (u : Updates i s t) (h : sregUse i = .untouched) : t.sreg = s.sreg := by
  induction u with
  | refl => rfl
  | setPc _ _ ih | tick _ _ ih | pushCall _ _ ih | popCall _ ih => exact ih
  | putByte _ hw v ih =>
    obtain ⟨-, hlisted⟩ := hw
    rw [State.sreg, State.putByte_byteAt_ne _ v fun ha => hlisted ha.symm h]
    exact ih

end Updates

/-! ### What a completing instruction does -/

/-- Instruction `i`, completing in `t` from `s`: only updates open to it, with the pc of 10_state.md R36 and the
CallStack of R48. -/
structure Completed (i : Instr) (s t : State) : Prop where
  updates : Updates i s t
  pc : t.pc = pcAfter i s
  callStack : t.callStack = callsAfter i s

section Effects

/-! Each shared effect, for any instruction `i` that it is the effect of: `hp` and `hc` say where `i` leaves the pc and
CallStack. -/

variable {i : Instr} {s t : State}

theorem completed_aluWrite (hu : sregUse i = .flagsOnly) (hp : pcAfter i s = s.pc + 1)
    (hc : callsAfter i s = s.callStack) (d : Reg) (res : Byte) (f : Flags) : Completed i s (s.aluWrite d res f) :=
  ⟨((Updates.refl.setReg d res).setFlags hu f).advance 1, hp.symm, hc.symm⟩

theorem completed_aluCompare (hu : sregUse i = .flagsOnly) (hp : pcAfter i s = s.pc + 1)
    (hc : callsAfter i s = s.callStack) (f : Flags) : Completed i s (s.aluCompare f) :=
  ⟨(Updates.refl.setFlags hu f).advance 1, hp.symm, hc.symm⟩

theorem completed_setReg (hp : pcAfter i s = s.pc + 1) (hc : callsAfter i s = s.callStack) (d : Reg) (v : Byte) :
    Completed i s ((s.setReg d v).advance 1) :=
  ⟨(Updates.refl.setReg d v).advance 1, hp.symm, hc.symm⟩

/-- A displacement is added to a+1 as a signed number, modulo 2^22 (42_control_flow.md R201). -/
theorem relTarget_eq_ofInt {n : Nat} (s : State) (k : BitVec n) :
    relTarget s k = BitVec.ofInt 22 (s.pc.toNat + 1 + k.toInt) := by
  rw [relTarget, BitVec.signExtend, BitVec.ofInt_add, BitVec.ofInt_add, BitVec.ofInt_natCast, BitVec.ofNat_toNat,
    BitVec.setWidth_eq]
  rfl

theorem completed_rjmp (k : BitVec 12) : Completed (.rjmp k) s (s.setPc (relTarget s k)) :=
  ⟨Updates.refl.setPc _, relTarget_eq_ofInt s k, rfl⟩

theorem updates_branchIf (taken : Bool) (k : BitVec 7) : Updates i s (s.branchIf taken k) := by
  cases taken
  · exact Updates.refl.advance 1
  · exact Updates.refl.setPc _

theorem State.branchIf_pc (s : State) (taken : Bool) (k : BitVec 7) :
    (s.branchIf taken k).pc = if taken then BitVec.ofInt 22 (s.pc.toNat + 1 + k.toInt) else s.pc + 1 := by
  cases taken
  · rfl
  · exact relTarget_eq_ofInt s k

theorem State.branchIf_callStack (s : State) (taken : Bool) (k : BitVec 7) :
    (s.branchIf taken k).callStack = s.callStack := by cases taken <;> rfl

theorem completed_brbs (b : BitVec 3) (k : BitVec 7) : Completed (.brbs b k) s (s.branchIf (s.sregBit b) k) :=
  ⟨updates_branchIf _ k, s.branchIf_pc _ k, s.branchIf_callStack _ k⟩

theorem completed_brbc (b : BitVec 3) (k : BitVec 7) : Completed (.brbc b k) s (s.branchIf (!s.sregBit b) k) := by
  refine ⟨updates_branchIf _ k, (s.branchIf_pc _ k).trans ?_, s.branchIf_callStack _ k⟩
  change _ = if s.sregBit b then _ else _
  cases s.sregBit b <;> rfl

/-- CPSE's skip reaches a+2 or a+3 by the width of the word skipped (42_control_flow.md R208). -/
theorem add_one_skipWords (p : PcWord) (w : Word) : p + 1 + skipWords w = if twoWord w then p + 3 else p + 2 := by
  rw [skipWords]
  split_ifs <;> exact BitVec.add_assoc p 1 _

theorem pcAfter_cpse (s : State) (d r : Reg) :
    pcAfter (.cpse d r) s =
      if s.reg d = s.reg r then
        if twoWord (s.flashWord (s.pc + 1).toNat) then s.pc + 3 else s.pc + 2
      else s.pc + 1 := rfl

theorem completed_skipIfEqual {d r : Reg} (h : s.skipIfEqual d r = .ok t) : Completed (.cpse d r) s t := by
  rw [State.skipIfEqual_eq] at h
  split_ifs at h with heq hin
  · cases h
    exact ⟨Updates.refl.setPc _, by rw [pcAfter_cpse, if_pos heq, ← add_one_skipWords, State.setPc_pc], rfl⟩
  · cases h
    exact ⟨Updates.refl.advance 1, by rw [pcAfter_cpse, if_neg heq, State.advance_pc], rfl⟩

theorem updates_framed (ra : PcWord) (h0 : s.inSram s.sp = true) (h1 : s.inSram (s.sp - 1) = true)
    (h2 : s.inSram (s.sp - 2) = true) : Updates i s (s.framed ra) :=
  (((Updates.refl.putByte (mayWrite_of_inSram i h0) _).putByte (mayWrite_of_inSram i h1) _).putByte
    (mayWrite_of_inSram i h2) _).setSp _

theorem completed_callTo {k : PcWord} (h : s.callTo k = .ok t) : Completed (.call k) s t := by
  rw [State.callTo_eq] at h
  split_ifs at h with h0 h1 h2
  cases h
  exact ⟨((updates_framed _ h0 h1 h2).pushCall _).setPc k, rfl, rfl⟩

/-- The popped address is the three bytes' value modulo 2^22 (42_control_flow.md R207). -/
theorem frame_value (hi mid lo : Byte) :
    hi.extractLsb' 0 6 ++ mid ++ lo = BitVec.ofNat 22 (hi.toNat * 0x10000 + mid.toNat * 0x100 + lo.toNat) := by
  apply BitVec.eq_of_toNat_eq
  have hm := mid.isLt
  have hl := lo.isLt
  rw [BitVec.toNat_append, BitVec.toNat_append, ← Nat.shiftLeft_add_eq_or_of_lt hm, ← Nat.shiftLeft_add_eq_or_of_lt hl,
    BitVec.extractLsb'_toNat, BitVec.toNat_ofNat]
  simp only [Nat.shiftLeft_eq, Nat.shiftRight_zero]
  omega

theorem completed_returnFrom (h : s.returnFrom = .ok t) : Completed .ret s t := by
  rw [State.returnFrom_eq] at h
  split_ifs at h
  cases h
  exact ⟨((Updates.refl.setSp _).popCall).setPc _, frame_value .., rfl⟩

theorem completed_pushByte {r : Reg} (h : s.pushByte (s.reg r) = .ok t) : Completed (.push r) s t := by
  rw [State.pushByte_eq] at h
  split_ifs at h with h0
  cases h
  exact ⟨((Updates.refl.putByte (mayWrite_of_inSram _ h0) _).setSp _).advance 1, rfl, rfl⟩

theorem completed_popByte {d : Reg} (h : s.popByte d = .ok t) : Completed (.pop d) s t := by
  rw [State.popByte_eq] at h
  split_ifs at h
  cases h
  exact ⟨((Updates.refl.setReg d _).setSp _).advance 1, rfl, rfl⟩

theorem completed_loadDirect {d : Reg} {k : Word} (h : s.loadDirect d k = .ok t) : Completed (.lds d k) s t := by
  rw [State.loadDirect_eq] at h
  split_ifs at h
  cases h
  exact ⟨(Updates.refl.setReg d _).advance 2, rfl, rfl⟩

theorem completed_storeDirect {k : Word} {r : Reg} (h : s.storeDirect k r = .ok t) : Completed (.sts k r) s t := by
  rw [State.storeDirect_eq] at h
  split_ifs at h with hk
  cases h
  exact ⟨(Updates.refl.putByte (mayWrite_of_dataByte rfl (.inr hk)) _).advance 2, rfl, rfl⟩

theorem updates_loaded (p : Ptr) (m : PtrMode) (d : Reg) : Updates i s (s.loaded p m d) := by
  rw [State.loaded]
  split_ifs
  · exact (Updates.refl.drawPtr p).advance 1
  · exact ((Updates.refl.setReg d _).setPtr p _).advance 1
  · exact (Updates.refl.setReg d _).advance 1

theorem completed_loadIndirect {p : Ptr} {m : PtrMode} {d : Reg} (hp : pcAfter i s = s.pc + 1)
    (hc : callsAfter i s = s.callStack) (h : s.loadIndirect p m d = .ok t) : Completed i s t := by
  rw [State.loadIndirect_eq] at h
  split_ifs at h
  cases h
  exact ⟨updates_loaded p m d, by rw [hp, State.loaded_pc], by rw [hc, State.loaded_callStack]⟩

theorem updates_stored (hu : sregUse i = .dataByte) (p : Ptr) (m : PtrMode) (r : Reg)
    (ha : (effAddr m (s.ptr p)).toNat < s.cfg.dsSize) : Updates i s (s.stored p m r) := by
  have u := (Updates.storedByte p m r).putByte (mayWrite_of_dataByte hu (.inr ha)) (s.storedByte p m r).1
  rw [State.stored]
  split_ifs
  · exact (u.drawPtr p).advance 1
  · exact (u.setPtr p _).advance 1
  · exact u.advance 1

theorem completed_storeIndirect {p : Ptr} {m : PtrMode} {r : Reg} (hu : sregUse i = .dataByte)
    (hp : pcAfter i s = s.pc + 1) (hc : callsAfter i s = s.callStack) (h : s.storeIndirect p m r = .ok t) :
    Completed i s t := by
  rw [State.storeIndirect_eq] at h
  split_ifs at h with ha
  cases h
  exact ⟨updates_stored hu p m r ha, by rw [hp, State.stored_pc], by rw [hc, State.stored_callStack]⟩

theorem completed_loadProgram {inc : Bool} {d : Reg} (hp : pcAfter i s = s.pc + 1)
    (hc : callsAfter i s = s.callStack) (h : s.loadProgram inc d = .ok t) : Completed i s t := by
  rw [State.loadProgram_eq] at h
  split_ifs at h <;> cases h
  · exact ⟨(Updates.refl.drawPtr .z).advance 1, hp.symm, hc.symm⟩
  · exact ⟨((Updates.refl.setReg d _).setPtr .z _).advance 1, hp.symm, hc.symm⟩
  · exact completed_setReg hp hc d _

theorem completed_loadProgramExt {inc : Bool} {d : Reg} (hp : pcAfter i s = s.pc + 1)
    (hc : callsAfter i s = s.callStack) (h : s.loadProgramExt inc d = .ok t) : Completed i s t := by
  rw [State.loadProgramExt_eq] at h
  split_ifs at h <;> cases h
  · exact ⟨Updates.refl.drawRampzZ.advance 1, hp.symm, hc.symm⟩
  · exact ⟨((Updates.refl.setReg d _).setRampzZ _).advance 1, hp.symm, hc.symm⟩
  · exact completed_setReg hp hc d _

/-- I/O addresses lie below SRAM (20_memory.md R71). -/
theorem ioAddr_lt (a : BitVec 6) : ioAddr a < 0x60 := by
  have ha := a.isLt
  rw [ioAddr, ioBase]
  omega

theorem completed_outIo (a : BitVec 6) (r : Reg) :
    Completed (.outIo a r) s ((s.putByte (ioAddr a) (s.reg r)).advance 1) :=
  ⟨(Updates.refl.putByte (mayWrite_of_dataByte rfl (.inl (ioAddr_lt a))) _).advance 1, rfl, rfl⟩

end Effects

/-- An instruction that answers a next state has completed in it, or taken a fault: what every fact about all
instructions is derived from. -/
def Ended (i : Instr) (s t : State) : Prop :=
  Completed i s t ∨ ∃ r, t = s.takeFault (some (fetchedWord s)) r

theorem ended_of_next {i : Instr} {s t u : State} (h : (.next u : Result) = .next t) (hu : Completed i s u) :
    Ended i s t := by
  cases h
  exact .inl hu

theorem ended_of_finish {i : Instr} {s t : State} {e : Except Raise State} (h : s.finish e = .next t)
    (he : e = .ok t → Completed i s t) : Ended i s t :=
  (State.finish_cases h).imp he fun ⟨r, _, ht⟩ => ⟨r, ht⟩

theorem exec_ended {i : Instr} {s t : State} (h : exec i s = .next t) : Ended i s t := by
  cases i with
  | add | adc | sub | sbc | and | or | eor | subi | sbci | ori | com =>
    exact ended_of_next h (completed_aluWrite rfl rfl rfl ..)
  | cp | cpc | cpi => exact ended_of_next h (completed_aluCompare rfl rfl rfl _)
  | ldi | inIo => exact ended_of_next h (completed_setReg rfl rfl ..)
  | outIo a r => exact ended_of_next h (completed_outIo a r)
  | rjmp k => exact ended_of_next h (completed_rjmp k)
  | brbs b k => exact ended_of_next h (completed_brbs b k)
  | brbc b k => exact ended_of_next h (completed_brbc b k)
  | jmp k => exact ended_of_next h ⟨Updates.refl.setPc k, rfl, rfl⟩
  | cpse => exact ended_of_finish h completed_skipIfEqual
  | call => exact ended_of_finish h completed_callTo
  | ret => exact ended_of_finish h completed_returnFrom
  | push => exact ended_of_finish h completed_pushByte
  | pop => exact ended_of_finish h completed_popByte
  | lds => exact ended_of_finish h completed_loadDirect
  | sts => exact ended_of_finish h completed_storeDirect
  | ldX | ldXInc | ldDecX | ldY | ldYInc | ldDecY | ldZ | ldZInc | ldDecZ =>
    exact ended_of_finish h (completed_loadIndirect rfl rfl)
  | stX | stXInc | stDecX | stY | stYInc | stDecY | stZ | stZInc | stDecZ =>
    exact ended_of_finish h (completed_storeIndirect rfl rfl rfl)
  | lpmZ | lpmZInc => exact ended_of_finish h (completed_loadProgram rfl rfl)
  | elpmZ | elpmZInc => exact ended_of_finish h (completed_loadProgramExt rfl rfl)

/-- An instruction that ends with no fault recorded has completed. -/
theorem Ended.completed {i : Instr} {s t : State} (h : Ended i s t) (ht : t.fault = none) : Completed i s t := by
  obtain h | ⟨r, rfl⟩ := h
  · exact h
  · cases ht

/-- An ALU instruction ends with its six flags packed over the old SREG (10_state.md R44, R45). -/
theorem exec_sreg_of_flagsOnly {i : Instr} {s t : State} (hi : sregUse i = .flagsOnly) (h : exec i s = .next t) :
    ∃ f, t.sreg = packFlags s.sreg f := by
  cases i with
  | add | adc | sub | sbc | and | or | eor | subi | sbci | ori | com =>
    cases h
    exact ⟨_, s.aluWrite_sreg ..⟩
  | cp | cpc | cpi =>
    cases h
    exact ⟨_, s.aluCompare_sreg _⟩
  | _ => cases hi

/-! ### What a step does -/

theorem Ended.host {i : Instr} {s t : State} (h : Ended i s t) : HostPartKept s t := by
  obtain h | ⟨r, rfl⟩ := h
  · exact h.updates.host
  · exact (s.takeFault_faulted _ r).host

theorem State.retire_eq (s : State) : s.retire = s ∨ s.retire = s.count := by
  rw [State.retire]
  split_ifs
  · exact .inl rfl
  · exact .inr rfl

@[simp] theorem State.retire_ds (s : State) : s.retire.ds = s.ds := by
  obtain h | h := s.retire_eq <;> rw [h]
  rfl

theorem hostPartKept_retire {s t : State} (h : HostPartKept s t) : HostPartKept s t.retire := by
  obtain ht | ht := t.retire_eq <;> rw [ht]
  · exact h
  · exact ⟨h.cfg, h.flash, h.loads, h.breakpoints, h.delayedCycles⟩

theorem step_hostPartKept {s t : State} (h : step s = .next t) : HostPartKept s t := by
  obtain ⟨-, ⟨i, u, -, he, rfl⟩ | ⟨f, -, rfl⟩⟩ := step_cases h
  · exact hostPartKept_retire (exec_ended he).host
  · exact (s.takeFault_faulted ..).host

theorem Ended.ds_wf {i : Instr} {s t : State} (h : Ended i s t) (hc : 0x60 < s.cfg.dsSize)
    (hs : Memory.wf (some dsBlank) s.cfg.dsSize s.ds = true) :
    Memory.wf (some dsBlank) s.cfg.dsSize t.ds = true := by
  obtain h | ⟨r, rfl⟩ := h
  · exact h.updates.ds_wf hc hs
  · exact hs

theorem step_ds_wf {s t : State} (h : step s = .next t) (hc : 0x60 < s.cfg.dsSize)
    (hs : Memory.wf (some dsBlank) s.cfg.dsSize s.ds = true) :
    Memory.wf (some dsBlank) s.cfg.dsSize t.ds = true := by
  obtain ⟨-, ⟨i, u, -, he, rfl⟩ | ⟨f, -, rfl⟩⟩ := step_cases h
  · rw [State.retire_ds]
    exact (exec_ended he).ds_wf hc hs
  · exact hs

/-- DataSpace holds at least every address below SRAM (00_scope.md R8). -/
theorem dsSize_of_wf {p : Params} (h : p.wf = true) : 0x60 < p.dsSize := by
  simp only [Params.wf, Bool.and_eq_true, decide_eq_true_eq] at h
  obtain ⟨⟨⟨-, h⟩, -⟩, -⟩ := h
  exact h

/-! ### The part of the state a step reads -/

/-- The state with the host's bookkeeping (10_state.md R54) and the cycle counts blanked. -/
def State.coreOnly (s : State) : State :=
  { s with
    cfg := { s.cfg with cycles := [] }
    callStack := []
    breakpoints := []
    instrCount := 0
    delayedCycles := 0 }

theorem sameCore_iff (s t : State) : SameCore s t ↔ t.coreOnly = s.coreOnly := by
  constructor
  · intro h
    simp only [State.coreOnly, h.flashWords, h.dsSize, h.sRule, h.flash, h.loads, h.ds, h.pc, h.fault, h.draws]
  · intro h
    simp only [State.coreOnly, State.mk.injEq, Params.mk.injEq] at h
    obtain ⟨⟨hw, hd, hr, -⟩, hf, hds, hpc, hfault, -, -, -, -, hl, hn⟩ := h
    exact ⟨hw, hd, hr, hf, hl, hds, hpc, hfault, hn⟩

/-- Two results of one test have the same image where their branches have. -/
theorem ite_image_congr {α β : Type} {f : α → β} {c : Prop} [Decidable c] {x y x' y' : α} (hx : f x = f x')
    (hy : f y = f y') : f (if c then x else y) = f (if c then x' else y') := by
  split_ifs
  · exact hx
  · exact hy

namespace State

/-! Each effect with a test computes the core of its answer from the core: the tests look at the core alone. -/

theorem branchIf_coreOnly (s : State) (taken : Bool) (k : BitVec 7) :
    (s.coreOnly.branchIf taken k).coreOnly = (s.branchIf taken k).coreOnly := ite_image_congr rfl rfl

theorem skipIfEqual_coreOnly (s : State) (d r : Reg) :
    (s.coreOnly.skipIfEqual d r).map coreOnly = (s.skipIfEqual d r).map coreOnly := by
  rw [skipIfEqual_eq, skipIfEqual_eq]
  exact ite_image_congr (ite_image_congr rfl rfl) rfl

theorem callTo_coreOnly (s : State) (k : PcWord) :
    (s.coreOnly.callTo k).map coreOnly = (s.callTo k).map coreOnly := by
  rw [callTo_eq, callTo_eq]
  exact ite_image_congr (ite_image_congr (ite_image_congr rfl rfl) rfl) rfl

theorem returnFrom_coreOnly (s : State) : s.coreOnly.returnFrom.map coreOnly = s.returnFrom.map coreOnly := by
  rw [returnFrom_eq, returnFrom_eq]
  exact ite_image_congr (ite_image_congr (ite_image_congr rfl rfl) rfl) rfl

theorem pushByte_coreOnly (s : State) (v : Byte) :
    (s.coreOnly.pushByte v).map coreOnly = (s.pushByte v).map coreOnly := by
  rw [pushByte_eq, pushByte_eq]
  exact ite_image_congr rfl rfl

theorem popByte_coreOnly (s : State) (d : Reg) :
    (s.coreOnly.popByte d).map coreOnly = (s.popByte d).map coreOnly := by
  rw [popByte_eq, popByte_eq]
  exact ite_image_congr rfl rfl

theorem loadDirect_coreOnly (s : State) (d : Reg) (k : Word) :
    (s.coreOnly.loadDirect d k).map coreOnly = (s.loadDirect d k).map coreOnly := by
  rw [loadDirect_eq, loadDirect_eq]
  exact ite_image_congr rfl rfl

theorem storeDirect_coreOnly (s : State) (k : Word) (r : Reg) :
    (s.coreOnly.storeDirect k r).map coreOnly = (s.storeDirect k r).map coreOnly := by
  rw [storeDirect_eq, storeDirect_eq]
  exact ite_image_congr rfl rfl

theorem loaded_coreOnly (s : State) (p : Ptr) (m : PtrMode) (d : Reg) :
    (s.coreOnly.loaded p m d).coreOnly = (s.loaded p m d).coreOnly :=
  ite_image_congr (ite_image_congr rfl rfl) rfl

theorem loadIndirect_coreOnly (s : State) (p : Ptr) (m : PtrMode) (d : Reg) :
    (s.coreOnly.loadIndirect p m d).map coreOnly = (s.loadIndirect p m d).map coreOnly := by
  rw [loadIndirect_eq, loadIndirect_eq]
  exact ite_image_congr (congrArg Except.ok (s.loaded_coreOnly p m d)) rfl

theorem stored_coreOnly (s : State) (p : Ptr) (m : PtrMode) (r : Reg) :
    (s.coreOnly.stored p m r).coreOnly = (s.stored p m r).coreOnly := by
  rw [stored, stored, storedByte, storedByte]
  cases writesBack m && ptrHas p r with
  | true => exact ite_image_congr (ite_image_congr rfl rfl) rfl
  | false => exact ite_image_congr (ite_image_congr rfl rfl) rfl

theorem storeIndirect_coreOnly (s : State) (p : Ptr) (m : PtrMode) (r : Reg) :
    (s.coreOnly.storeIndirect p m r).map coreOnly = (s.storeIndirect p m r).map coreOnly := by
  rw [storeIndirect_eq, storeIndirect_eq]
  exact ite_image_congr (congrArg Except.ok (s.stored_coreOnly p m r)) rfl

theorem loadProgram_coreOnly (s : State) (inc : Bool) (d : Reg) :
    (s.coreOnly.loadProgram inc d).map coreOnly = (s.loadProgram inc d).map coreOnly := by
  rw [loadProgram_eq, loadProgram_eq]
  exact ite_image_congr (congrArg Except.ok (ite_image_congr (ite_image_congr rfl rfl) rfl)) rfl

theorem loadProgramExt_coreOnly (s : State) (inc : Bool) (d : Reg) :
    (s.coreOnly.loadProgramExt inc d).map coreOnly = (s.loadProgramExt inc d).map coreOnly := by
  rw [loadProgramExt_eq, loadProgramExt_eq]
  exact ite_image_congr (congrArg Except.ok (ite_image_congr (ite_image_congr rfl rfl) rfl)) rfl

end State

/-- An outcome with the core alone of its next state. -/
def outcomeCore (o : Result) : Result :=
  match o with
  | .next t => .next t.coreOnly
  | .fault r => .fault r
  | .refused r => .refused r

theorem State.finish_coreOnly {s : State} {e e' : Except Raise State}
    (h : e'.map State.coreOnly = e.map State.coreOnly) :
    outcomeCore (s.coreOnly.finish e') = outcomeCore (s.finish e) := by
  cases e with
  | ok t =>
    cases e' with
    | ok t' => exact congrArg Host.Outcome.next (Except.ok.inj h)
    | error r' => cases h
  | error r =>
    cases e' with
    | ok t' => cases h
    | error r' =>
      cases Except.error.inj h
      rfl

theorem exec_coreOnly (i : Instr) (s : State) : outcomeCore (exec i s.coreOnly) = outcomeCore (exec i s) := by
  cases i with
  | cpse d r => exact State.finish_coreOnly (s.skipIfEqual_coreOnly d r)
  | call k => exact State.finish_coreOnly (s.callTo_coreOnly k)
  | ret => exact State.finish_coreOnly s.returnFrom_coreOnly
  | push r => exact State.finish_coreOnly (s.pushByte_coreOnly _)
  | pop d => exact State.finish_coreOnly (s.popByte_coreOnly d)
  | lds d k => exact State.finish_coreOnly (s.loadDirect_coreOnly d k)
  | sts k r => exact State.finish_coreOnly (s.storeDirect_coreOnly k r)
  | ldX | ldXInc | ldDecX | ldY | ldYInc | ldDecY | ldZ | ldZInc | ldDecZ =>
    exact State.finish_coreOnly (s.loadIndirect_coreOnly ..)
  | stX | stXInc | stDecX | stY | stYInc | stDecY | stZ | stZInc | stDecZ =>
    exact State.finish_coreOnly (s.storeIndirect_coreOnly ..)
  | lpmZ | lpmZInc => exact State.finish_coreOnly (s.loadProgram_coreOnly ..)
  | elpmZ | elpmZInc => exact State.finish_coreOnly (s.loadProgramExt_coreOnly ..)
  | brbs | brbc => exact congrArg Host.Outcome.next (s.branchIf_coreOnly ..)
  | _ => rfl

theorem fetch_coreOnly (s : State) : fetch s.coreOnly = fetch s := rfl

theorem State.retire_coreOnly (s : State) : s.retire.coreOnly = s.coreOnly := by
  obtain h | h := s.retire_eq <;> rw [h]
  rfl

theorem outcomeCore_retireOutcome (o : Result) : outcomeCore (retireOutcome o) = outcomeCore o := by
  cases o with
  | next t => exact congrArg Host.Outcome.next t.retire_coreOnly
  | fault r => rfl
  | refused r => rfl

/-- A step computes the core of its answer from the core of its state. -/
theorem step_coreOnly (s : State) : outcomeCore (step s.coreOnly) = outcomeCore (step s) := by
  have hrun : outcomeCore (runOne s.coreOnly) = outcomeCore (runOne s) := by
    rw [runOne, runOne, fetch_coreOnly]
    cases fetch s with
    | ok i => simp only [outcomeCore_retireOutcome, exec_coreOnly]
    | error f => rfl
  rw [step, step, show s.coreOnly.fault = s.fault from rfl]
  cases s.fault with
  | none => exact hrun
  | some r => rfl

theorem next_of_outcomeCore {o : Result} {t : State} (h : outcomeCore o = .next t) :
    ∃ t', o = .next t' ∧ t'.coreOnly = t := by
  cases o with
  | next t' => exact ⟨t', rfl, by simpa [outcomeCore] using h⟩
  | fault r => cases h
  | refused r => cases h

/-! ### Views of DataSpace -/

/-- A byte is the sum of its bits. -/
theorem byte_toNat_eq_bits (b : Byte) :
    b.toNat = (b.getLsbD 0).toNat + 2 * (b.getLsbD 1).toNat + 4 * (b.getLsbD 2).toNat + 8 * (b.getLsbD 3).toNat +
      16 * (b.getLsbD 4).toNat + 32 * (b.getLsbD 5).toNat + 64 * (b.getLsbD 6).toNat + 128 * (b.getLsbD 7).toNat := by
  have hb := b.isLt
  simp only [BitVec.getLsbD, Nat.toNat_testBit]
  omega

theorem ptrLow_ne_ptrHigh (p : Ptr) : (ptrLow p).toNat ≠ (ptrHigh p).toNat := by cases p <;> decide

/-- A register's number as an address. -/
theorem regAddr_toNat (n : Reg) : (n.zeroExtend 16 : Word).toNat = n.toNat :=
  BitVec.toNat_setWidth_of_le (by decide)

end Sys2Proof.Machine

namespace Sys2Proof.Proofs

open Sys2Proof.Machine Sys2Proof.Safety

/-- Settles O13: HostPartKept carries the invariant's fixed parts over, and every DataSpace write is inside the
capacity. -/
theorem stepKeepsInvariant : Obligations.StepKeepsInvariant := by
  intro s t ⟨hcfg, hds, hflash, hbreak, hcarry⟩ h
  have k := step_hostPartKept h
  have hwf := step_ds_wf h (dsSize_of_wf hcfg) hds
  rw [MachineInv, k.cfg, k.flash, k.breakpoints, k.delayedCycles]
  exact ⟨hcfg, hwf, hflash, hbreak, hcarry⟩

/-- Settles O15: no update an instruction is made of reaches the host's part, nor does taking a fault. -/
theorem noStepWritesFlash : Obligations.NoStepWritesFlash := fun _ _ => step_hostPartKept

/-- Settles O17: the table of 10_state.md R43 bounds the writes of what it leaves out, and ALU flags are packed over the
old SREG. -/
theorem sregIsWrittenAsListed : Obligations.SregIsWrittenAsListed := by
  intro i s t h
  cases hu : sregUse i with
  | untouched =>
    obtain hc | ⟨r, rfl⟩ := exec_ended h
    · exact hc.updates.sreg hu
    · rfl
  | flagsOnly =>
    obtain ⟨f, hf⟩ := exec_sreg_of_flagsOnly hu h
    obtain ⟨-, -, -, -, -, -, h6, h7⟩ := State.flags_of_sreg hf
    exact ⟨h6, h7⟩
  | dataByte => trivial

/-- Settles O18: an instruction that records no fault has completed. -/
theorem pcAfterEachInstruction : Obligations.PcAfterEachInstruction :=
  fun _ _ _ _ h ht => ((exec_ended h).completed ht).pc

/-- Settles O19: completing and faulting are told apart by the fault record, which no completion writes. -/
theorem callStackFollowsCallsAndReturns : Obligations.CallStackFollowsCallsAndReturns := by
  intro i s t hs h
  obtain hc | ⟨r, rfl⟩ := exec_ended h
  · rw [if_pos (hc.updates.fault.trans hs), hc.callStack]
  · rfl

/-- Settles O20: a step commutes with blanking what the two states differ in. -/
theorem hostBookkeepingIsNeverRead : Obligations.HostBookkeepingIsNeverRead := by
  intro s s' t hsame h
  have hstep : outcomeCore (step s') = .next t.coreOnly := by
    calc outcomeCore (step s') = outcomeCore (step s'.coreOnly) := (step_coreOnly s').symm
      _ = outcomeCore (step s.coreOnly) := by rw [(sameCore_iff s s').1 hsame]
      _ = outcomeCore (step s) := step_coreOnly s
      _ = .next t.coreOnly := by rw [h]; rfl
  obtain ⟨t', ht', hcore⟩ := next_of_outcomeCore hstep
  exact ⟨t', ht', (sameCore_iff t t').2 hcore⟩

/-- Settles O45: the address of register n is in range, and its byte is the register. -/
theorem registersAreMemoryMapped : Obligations.RegistersAreMemoryMapped := by
  intro s d n hsize
  have hn : (n.zeroExtend 16 : Word).toNat < s.cfg.dsSize := by
    have := n.isLt
    rw [regAddr_toNat]
    omega
  refine ⟨completes_of_finish rfl (by rw [State.loadDirect_eq, if_pos hn]) ?_,
    completes_of_finish rfl (by rw [State.storeDirect_eq, if_pos hn]) ?_⟩
  · rw [State.reg, State.advance_byteAt, State.setReg_byteAt, if_pos rfl, regAddr_toNat, State.reg]
  · have hread (m : Reg) : ((s.putByte (n.zeroExtend 16 : Word).toNat (s.reg d)).advance 2).reg m =
        if m = n then s.reg d else s.reg m := by
      rw [regAddr_toNat]
      exact s.setReg_reg n (s.reg d) m
    exact ⟨(hread n).trans (if_pos rfl), fun m hm => (hread m).trans (if_neg hm)⟩

/-- Settles O12: reset empties DataSpace and touches no other part of the invariant. -/
theorem resetMeetsInvariant : Obligations.ResetMeetsInvariant := by
  refine ⟨⟨by decide, rfl, rfl, rfl, by decide⟩, fun s ⟨hcfg, _, hflash, hbreak, hcarry⟩ => ?_⟩
  exact ⟨hcfg, Memory.wf_nil .., hflash, hbreak, hcarry⟩

/-- Settles O21, by the arithmetic of joined and split bytes. -/
theorem viewsAreTheirBytes : Obligations.ViewsAreTheirBytes := by
  intro s v
  refine ⟨joinBytes_toNat .., joinBytes_toNat .., joinBytes_toNat .., joinBytes_toNat .., byte_toNat_eq_bits _, rfl,
    fun p => ?_, fun p => ?_, ?_, ?_⟩
  · rw [State.setPtr_byteAt, if_neg (ptrLow_ne_ptrHigh p), if_pos rfl, lowByte_toNat]
  · rw [State.setPtr_byteAt, if_pos rfl, highByte_toNat]
  · exact lowByte_toNat v ▸ congrArg _ (s.setSp_byteAt v splAddr)
  · exact highByte_toNat v ▸ congrArg _ (s.setSp_byteAt v sphAddr)

end Sys2Proof.Proofs
end

section
/-!
PROOFS. The memory family (20_memory.md): a direct load after a direct store, and a step as fetch and then the decoded
instruction.
-/

namespace Sys2Proof.Machine

open Sys2Proof.Safety

/-! ### Direct accesses inside DataSpace -/

theorem completes_lds {s : State} {d : Reg} {k : Word} {P : State → Prop} (hk : k.toNat < s.cfg.dsSize)
    (hp : P ((s.setReg d (s.byteAt k.toNat)).advance 2)) : Completes (.lds d k) s P :=
  completes_of_finish rfl (by rw [State.loadDirect_eq, if_pos hk]) hp

theorem completes_sts {s : State} {k : Word} {r : Reg} {P : State → Prop} (hk : k.toNat < s.cfg.dsSize)
    (hp : P ((s.putByte k.toNat (s.reg r)).advance 2)) : Completes (.sts k r) s P :=
  completes_of_finish rfl (by rw [State.storeDirect_eq, if_pos hk]) hp

/-! ### Every instruction answers a next state -/

theorem State.finish_next (s : State) (e : Except Raise State) : ∃ t, s.finish e = .next t := by
  cases e with
  | ok t => exact ⟨t, s.finish_ok t⟩
  | error r => exact ⟨_, s.finish_error r⟩

/-- No instruction stops the machine: it completes or takes its fault (60_exceptions.md R300). -/
theorem exec_next (i : Instr) (s : State) : ∃ t, exec i s = .next t := by
  cases i with
  | add | adc | sub | sbc | cp | cpc | and | or | eor | subi | sbci | cpi | ori | com
  | ldi | inIo | outIo | rjmp | brbs | brbc | jmp => exact ⟨_, rfl⟩
  | cpse | call | ret | push | pop | lds | sts
  | ldX | ldXInc | ldDecX | ldY | ldYInc | ldDecY | ldZ | ldZInc | ldDecZ
  | stX | stXInc | stDecX | stY | stYInc | stDecY | stZ | stZInc | stDecZ
  | lpmZ | lpmZInc | elpmZ | elpmZInc => exact s.finish_next _

/-! ### Fetch and step, forwards -/

theorem dispatchWords_of_decode {op w2 : Word} {i : Instr} (h : decode op w2 = .ok i) :
    dispatchWords op w2 = .ok i := by rw [dispatchWords, h]

/-- Fetch yields what the words at the pc decode to, the second read only where the first is a two-word one
(20_memory.md R81). -/
theorem fetch_of_decode {s : State} {i : Instr} (hpc : s.pc.toNat < s.cfg.flashWords)
    (hpc2 : twoWord (fetchedWord s) = true → (s.pc + 1).toNat < s.cfg.flashWords)
    (h : decode (fetchedWord s) (if twoWord (fetchedWord s) then s.flashWord (s.pc + 1).toNat else 0) = .ok i) :
    fetch s = .ok i := by
  rw [fetch_eq, if_pos hpc, ← fetchedWord]
  by_cases htwo : twoWord (fetchedWord s) = true
  · rw [if_pos htwo] at h
    rw [if_pos htwo, if_pos (hpc2 htwo), dispatchWords_of_decode h]
  · rw [if_neg htwo] at h
    rw [if_neg htwo, dispatchWords_of_decode h]

theorem step_of_fetch {s t : State} {i : Instr} (hs : Running s) (hf : fetch s = .ok i) (he : exec i s = .next t) :
    step s = .next t.retire := by
  rw [Running] at hs
  simp only [step, hs, runOne, hf, he, retireOutcome]

end Sys2Proof.Machine

namespace Sys2Proof.Proofs

open Sys2Proof.Machine Sys2Proof.Safety

/-- Settles O44: STS leaves the capacity as it was, so LDS completes too, and what it reads is the byte at its address
after the store. -/
theorem loadReadsTheLastStore : Obligations.LoadReadsTheLastStore := by
  intro s k a r d hk ha
  refine completes_sts hk (completes_lds ha ?_)
  rw [State.reg, State.advance_byteAt, State.setReg_byteAt, if_pos rfl, State.advance_byteAt, State.putByte_byteAt]
  simp only [BitVec.toNat_inj]

/-- Settles O6: fetch yields the decoded instruction, its execution answers a next state, and the step retires it. -/
theorem stepRunsTheDecodedInstruction : Obligations.StepRunsTheDecodedInstruction := by
  intro s i hs hpc hpc2 hdec
  obtain ⟨t, ht⟩ := exec_next i s
  exact ⟨t, ht, step_of_fetch hs (fetch_of_decode hpc hpc2 hdec) ht⟩

end Sys2Proof.Proofs
end

section
/-!
PROOFS. The encoding family (30_encoding.md): the decoder reads a word by the row of the opcode table whose fixed bits
the word has, and by the fields that row's format names; the encoder writes that row and those fields.
-/

namespace Sys2Proof

open Sys2Proof.Safety Sys2Proof.Laws

/-! ### The rows of the opcode table -/

/-- An instruction's row of the opcode table: `Instr` lists its constructors in the table's order. -/
def rowOf (i : Instr) : Word × Word := tableRows.getD i.ctorIdx (0, 0)

/-- The instructions that `op` and `w2` would be by their fields alone, one of each row in the table's order. -/
def rowInstrs (op w2 : Word) : List Instr :=
  let d := fieldD5 op
  let r := fieldR5 op
  let u := fieldD4 op
  let k := fieldK8 op
  [.add d r, .adc d r, .sub d r, .sbc d r, .cp d r, .cpc d r, .and d r, .or d r, .eor d r, .cpse d r,
   .subi u k, .sbci u k, .cpi u k, .ori u k, .ldi u k, .com d, .rjmp (fieldK12 op),
   .brbs (fieldS3 op) (fieldK7 op), .brbc (fieldS3 op) (fieldK7 op), .jmp (fieldK22 op w2), .call (fieldK22 op w2),
   .ret, .push d, .pop d, .lds d w2, .sts w2 d,
   .ldX d, .ldXInc d, .ldDecX d, .ldY d, .ldYInc d, .ldDecY d, .ldZ d, .ldZInc d, .ldDecZ d,
   .stX d, .stXInc d, .stDecX d, .stY d, .stYInc d, .stDecY d, .stZ d, .stZInc d, .stDecZ d,
   .lpmZ d, .lpmZInc d, .elpmZ d, .elpmZInc d, .inIo d (fieldA6 op), .outIo (fieldA6 op) d]

theorem rowMatches_iff (op : Word) (row : Word × Word) : rowMatches op row = true ↔ op &&& row.1 = row.2 := beq_iff_eq

theorem rowOf_rowInstrs (op w2 : Word) : (rowInstrs op w2).map rowOf = tableRows := rfl

theorem rowOf_mem_tableRows (i : Instr) : rowOf i ∈ tableRows := by
  have hi : i.ctorIdx < tableRows.length := by cases i <;> exact of_decide_eq_true rfl
  rw [rowOf, List.getD_eq_getElem _ _ hi]
  exact List.getElem_mem hi

/-- Any two rows have a bit fixed in both at different values. -/
theorem tableRows_disjoint : tableRows.Pairwise fun row row' => row.2 &&& row'.1 ≠ row'.2 &&& row.1 := by decide

/-- So no word has the fixed bits of two rows. -/
theorem filter_rowMatches_length_le_one (op : Word) : (tableRows.filter (rowMatches op)).length ≤ 1 := by
  have hpair := tableRows_disjoint.filter (rowMatches op)
  match hf : tableRows.filter (rowMatches op) with
  | [] => simp
  | [_] => simp
  | row :: row' :: rest =>
    have hmem (x : Word × Word) (hx : x ∈ row :: row' :: rest) : op &&& x.1 = x.2 :=
      (rowMatches_iff op x).1 (List.mem_filter.1 (hf ▸ hx)).2
    rw [hf] at hpair
    refine absurd ?_ (List.rel_of_pairwise_cons hpair List.mem_cons_self)
    rw [← hmem row (by simp), ← hmem row' (by simp)]
    ac_rfl

/-! ### Operands are fields -/

theorem toNat_append_eq_add {m n : Nat} (x : BitVec m) (y : BitVec n) :
    (x ++ y).toNat = x.toNat * 2 ^ n + y.toNat := by
  rw [BitVec.toNat_append, ← Nat.shiftLeft_add_eq_or_of_lt y.isLt, Nat.shiftLeft_eq]

theorem toNat_extractLsb'_eq_div_mod (w : Word) (start len : Nat) :
    (w.extractLsb' start len).toNat = w.toNat / 2 ^ start % 2 ^ len := by
  rw [BitVec.extractLsb'_toNat, Nat.shiftRight_eq_div_pow]

@[simp] theorem atD5_iff (d : Reg) (op : Word) : atD5 d op = true ↔ d = fieldD5 op := by
  rw [atD5, decide_eq_true_iff, ← BitVec.toNat_inj, fieldD5, toNat_extractLsb'_eq_div_mod]
  rfl

@[simp] theorem atR5_iff (r : Reg) (op : Word) : atR5 r op = true ↔ r = fieldR5 op := by
  rw [atR5, decide_eq_true_iff, ← BitVec.toNat_inj, fieldR5, toNat_append_eq_add]
  simp only [toNat_extractLsb'_eq_div_mod]
  omega

@[simp] theorem atD4_iff (d : Reg) (op : Word) : atD4 d op = true ↔ d = fieldD4 op := by
  rw [atD4, decide_eq_true_iff, ← BitVec.toNat_inj, fieldD4, toNat_append_eq_add, toNat_extractLsb'_eq_div_mod]
  rfl

@[simp] theorem atK8_iff (k : Byte) (op : Word) : atK8 k op = true ↔ k = fieldK8 op := by
  rw [atK8, decide_eq_true_iff, ← BitVec.toNat_inj, fieldK8, toNat_append_eq_add]
  simp only [toNat_extractLsb'_eq_div_mod]
  omega

@[simp] theorem atA6_iff (a : BitVec 6) (op : Word) : atA6 a op = true ↔ a = fieldA6 op := by
  rw [atA6, decide_eq_true_iff, ← BitVec.toNat_inj, fieldA6, toNat_append_eq_add]
  simp only [toNat_extractLsb'_eq_div_mod]
  omega

@[simp] theorem atBR_iff (b : BitVec 3) (k : BitVec 7) (op : Word) :
    atBR b k op = true ↔ b = fieldS3 op ∧ k = fieldK7 op := by
  rw [atBR, Bool.and_eq_true, decide_eq_true_iff, decide_eq_true_iff, ← BitVec.toNat_inj, ← BitVec.toNat_inj, fieldS3,
    fieldK7, toNat_extractLsb'_eq_div_mod, toNat_extractLsb'_eq_div_mod]
  omega

@[simp] theorem atK12_iff (k : BitVec 12) (op : Word) : k.toNat = op.toNat % 0x1000 ↔ k = fieldK12 op := by
  rw [← BitVec.toNat_inj, fieldK12, toNat_extractLsb'_eq_div_mod]
  omega

@[simp] theorem atK22_iff (k : PcWord) (op w2 : Word) : atK22 k op w2 = true ↔ k = fieldK22 op w2 := by
  rw [atK22, decide_eq_true_iff, ← BitVec.toNat_inj, fieldK22, toNat_append_eq_add, toNat_append_eq_add]
  simp only [toNat_extractLsb'_eq_div_mod]
  omega

theorem upperReg_fieldD4 (op : Word) : upperReg (fieldD4 op) = true := by
  have h : (fieldD4 op).toNat = 16 + op.toNat / 16 % 16 := of_decide_eq_true ((atD4_iff _ op).2 rfl)
  rw [upperReg, decide_eq_true_iff]
  omega

theorem operandsAt_rowInstrs (op w2 : Word) : ∀ i ∈ rowInstrs op w2, operandsAt i op w2 = true := by
  simp only [rowInstrs, List.forall_mem_cons, operandsAt, Bool.and_eq_true, decide_eq_true_iff, atD5_iff, atR5_iff,
    atD4_iff, atK8_iff, atA6_iff, atBR_iff, atK12_iff, atK22_iff]
  simp

/-! ### The decoder reads rows and fields -/

/-- The mask of the top six bits leaves the level-1 key (30_encoding.md R110). -/
theorem and_key_eq (op : Word) : op &&& 0xFC00#16 = op.extractLsb' 10 6 ++ 0#10 := by
  ext i hi
  rw [BitVec.getElem_and, BitVec.getElem_append]
  interval_cases i <;> simp

/-- A row that fixes no bit below the level-1 key is found by the level-1 table alone. -/
theorem rowMatches_of_level1 {op mask pat : Word} {e : Entry} (hl : level1 (bucketOf op) = e)
    (hmask : 0xFC00#16 &&& mask = mask)
    (hkey : ∀ b : BitVec 6, level1 b.toNat = e → (b ++ 0#10) &&& mask = pat) : rowMatches op (mask, pat) = true := by
  rw [rowMatches_iff, ← hmask, ← BitVec.and_assoc, and_key_eq]
  exact hkey _ hl

/-- A row's fixed bits settle the entry of the level-1 table. -/
theorem level1_of_rowMatches {op mask pat : Word} (h : rowMatches op (mask, pat) = true)
    (hkey : ∀ b : BitVec 6, b &&& mask.extractLsb' 10 6 = pat.extractLsb' 10 6 →
      level1 b.toNat = level1 (bucketOf pat)) : level1 (bucketOf op) = level1 (bucketOf pat) :=
  hkey _ (by rw [← BitVec.extractLsb'_and, (rowMatches_iff op _).1 h])

/-- What the decoder may answer for `op` and `w2`: an instruction whose row has its fixed bits in `op` and whose operands
are the fields, or that `op` is illegal (30_encoding.md R116). -/
def ReadsRow (op w2 : Word) (e : Except DecodeError Instr) : Prop :=
  (∃ i, e = .ok i ∧ rowMatches op (rowOf i) = true ∧ operandsAt i op w2 = true) ∨ e = .error (.illegalInstruction op)

theorem readsRow_ok {op w2 : Word} {i : Instr} (hrow : rowMatches op (rowOf i) = true)
    (hmem : i ∈ rowInstrs op w2) : ReadsRow op w2 (.ok i) :=
  .inl ⟨i, rfl, hrow, operandsAt_rowInstrs op w2 i hmem⟩

theorem rowMatches_R1 {op p : Word} (h : (op &&& 0xFE0F#16).toNat = p.toNat) : rowMatches op (0xFE0F#16, p) = true :=
  (rowMatches_iff ..).2 (BitVec.eq_of_toNat_eq h)

theorem decodeL2x20_reads (op w2 : Word) : ReadsRow op w2 (decodeL2x20 op) := by
  unfold decodeL2x20
  split
  case h_5 => exact .inr rfl
  all_goals
    next h => exact readsRow_ok (rowMatches_R1 h) (by simp [rowInstrs])

theorem decodeL2x24_reads (op w2 : Word) : ReadsRow op w2 (decodeL2x24 op w2) := by
  unfold decodeL2x24
  split
  case h_23 => exact .inr rfl
  all_goals
    next h => exact readsRow_ok (rowMatches_R1 h) (by simp [rowInstrs])

theorem decodeL2x25_reads (op w2 : Word) : ReadsRow op w2 (decodeL2x25 op w2) := by
  unfold decodeL2x25
  split_ifs with hret hcom hjmp hcall
  · subst hret
    exact readsRow_ok rfl (by simp [rowInstrs])
  · exact readsRow_ok ((rowMatches_iff ..).2 hcom) (by simp [rowInstrs])
  · exact readsRow_ok ((rowMatches_iff ..).2 hjmp) (by simp [rowInstrs])
  · exact readsRow_ok ((rowMatches_iff ..).2 hcall) (by simp [rowInstrs])
  · exact .inr rfl

theorem decode_reads (op w2 : Word) : ReadsRow op w2 (decode op w2) := by
  unfold decode
  cases hl : level1 (bucketOf op) with
  | illegal => exact .inr rfl
  | l2x20 => exact decodeL2x20_reads op w2
  | l2x24 => exact decodeL2x24_reads op w2
  | l2x25 => exact decodeL2x25_reads op w2
  | cpc | sbc | add | cpse | cp | sub | adc | and | eor | or | cpi | sbci | subi | ori | inIo | outIo | rjmp | ldi
  | brbs | brbc =>
    exact readsRow_ok (rowMatches_of_level1 hl (by decide) (by decide)) (by simp [rowInstrs])

theorem rowMatches_of_decode {op w2 : Word} {i : Instr} (h : decode op w2 = .ok i) :
    rowMatches op (rowOf i) = true ∧ operandsAt i op w2 = true := by
  obtain ⟨j, hj, hread⟩ | hill := decode_reads op w2
  · cases hj.symm.trans h
    exact hread
  · cases hill.symm.trans h

theorem mask_of_rowMatches {op mask pat : Word} (h : rowMatches op (mask, pat) = true) : op &&& mask = pat :=
  (rowMatches_iff op _).1 h

/-- RET's row fixes all its bits. -/
theorem ret_of_rowMatches {op : Word} (h : rowMatches op (rowOf .ret) = true) : op = 0x9508#16 :=
  BitVec.and_allOnes.symm.trans (mask_of_rowMatches h)

theorem ne_ret_of_mask {op mask pat : Word} (h : op &&& mask = pat) (hret : 0x9508#16 &&& mask ≠ pat) :
    op ≠ 0x9508#16 := by
  rintro rfl
  exact hret h

/-- JMP's and CALL's mask leaves out one bit of COM's. -/
theorem ne_com_of_mask {op pat : Word} (h : op &&& 0xFE0E#16 = pat) (hcom : 0x9400#16 ≠ pat) :
    op &&& 0xFE0F#16 ≠ 0x9400#16 := fun hop =>
  hcom <| calc
    0x9400#16 = op &&& 0xFE0F#16 &&& 0xFE0E#16 := by rw [hop]; rfl
    _ = pat := by rw [BitVec.and_assoc]; exact h

theorem decodeL2x25_com {op : Word} (w2 : Word) (h : op &&& 0xFE0F#16 = 0x9400#16) :
    decodeL2x25 op w2 = .ok (.com (fieldD5 op)) := by
  rw [decodeL2x25, if_neg (ne_ret_of_mask h (by decide)), if_pos h]

theorem decodeL2x25_jmp {op : Word} (w2 : Word) (h : op &&& 0xFE0E#16 = 0x940C#16) :
    decodeL2x25 op w2 = .ok (.jmp (fieldK22 op w2)) := by
  rw [decodeL2x25, if_neg (ne_ret_of_mask h (by decide)), if_neg (ne_com_of_mask h (by decide)), if_pos h]

theorem decodeL2x25_call {op : Word} (w2 : Word) (h : op &&& 0xFE0E#16 = 0x940E#16) :
    decodeL2x25 op w2 = .ok (.call (fieldK22 op w2)) := by
  have hjmp : op &&& 0xFE0E#16 ≠ 0x940C#16 := by
    rw [h]
    decide
  rw [decodeL2x25, if_neg (ne_ret_of_mask h (by decide)), if_neg (ne_com_of_mask h (by decide)), if_neg hjmp, if_pos h]

/-- The decoder answers the instruction of the row `op` has the fixed bits of, with the fields as operands. -/
theorem decode_of_rowMatches {op w2 : Word} {i : Instr} (hrow : rowMatches op (rowOf i) = true)
    (hops : operandsAt i op w2 = true) : decode op w2 = .ok i := by
  cases i with
  | add | adc | sub | sbc | cp | cpc | and | or | eor | cpse | subi | sbci | cpi | ori | ldi | brbs | brbc | inIo
  | outIo =>
    simp only [operandsAt, Bool.and_eq_true, atD5_iff, atR5_iff, atD4_iff, atK8_iff, atBR_iff, atA6_iff] at hops
    obtain ⟨rfl, rfl⟩ := hops
    rw [decode, level1_of_rowMatches hrow (by decide)]
    rfl
  | rjmp =>
    obtain rfl := (atK12_iff ..).1 (of_decide_eq_true hops)
    rw [decode, level1_of_rowMatches hrow (by decide)]
    rfl
  | ldY | ldZ | stY | stZ =>
    obtain rfl := (atD5_iff ..).1 hops
    rw [decode, level1_of_rowMatches hrow (by decide)]
    show decodeL2x20 op = _
    rw [decodeL2x20, mask_of_rowMatches (mask := 0xFE0F#16) hrow]
    rfl
  | push | pop | ldX | ldXInc | ldDecX | ldYInc | ldDecY | ldZInc | ldDecZ | stX | stXInc | stDecX | stYInc | stDecY
  | stZInc | stDecZ | lpmZ | lpmZInc | elpmZ | elpmZInc =>
    obtain rfl := (atD5_iff ..).1 hops
    rw [decode, level1_of_rowMatches hrow (by decide)]
    show decodeL2x24 op w2 = _
    rw [decodeL2x24, mask_of_rowMatches (mask := 0xFE0F#16) hrow]
    rfl
  | lds | sts =>
    simp only [operandsAt, Bool.and_eq_true, atD5_iff, decide_eq_true_iff] at hops
    obtain ⟨rfl, rfl⟩ := hops
    rw [decode, level1_of_rowMatches hrow (by decide)]
    show decodeL2x24 op _ = _
    rw [decodeL2x24, mask_of_rowMatches (mask := 0xFE0F#16) hrow]
    rfl
  | com =>
    obtain rfl := (atD5_iff ..).1 hops
    rw [decode, level1_of_rowMatches hrow (by decide)]
    exact decodeL2x25_com w2 (mask_of_rowMatches hrow)
  | jmp =>
    obtain rfl := (atK22_iff ..).1 hops
    rw [decode, level1_of_rowMatches hrow (by decide)]
    exact decodeL2x25_jmp w2 (mask_of_rowMatches hrow)
  | call =>
    obtain rfl := (atK22_iff ..).1 hops
    rw [decode, level1_of_rowMatches hrow (by decide)]
    exact decodeL2x25_call w2 (mask_of_rowMatches hrow)
  | ret =>
    rw [ret_of_rowMatches hrow]
    rfl

/-! ### The encoder writes rows and fields -/

theorem encodeRR_mask (o : BitVec 6) (d r : Reg) : encodeRR o d r &&& 0xFC00#16 = encodeRR o 0 0 := by
  ext i hi
  rw [BitVec.getElem_and, encodeRR_bit, encodeRR_bit]
  interval_cases i <;> simp

theorem encodeRK_mask (o : BitVec 4) (d : Reg) (k : Byte) : encodeRK o d k &&& 0xF000#16 = encodeRK o 0 0 := by
  ext i hi
  rw [BitVec.getElem_and, encodeRK_bit, encodeRK_bit]
  interval_cases i <;> simp

theorem encodeIO_mask (o : BitVec 5) (d : Reg) (a : BitVec 6) : encodeIO o d a &&& 0xF800#16 = encodeIO o 0 0 := by
  ext i hi
  rw [BitVec.getElem_and, encodeIO_bit, encodeIO_bit]
  interval_cases i <;> simp

theorem encodeBR_mask (o : BitVec 6) (b : BitVec 3) (k : BitVec 7) :
    encodeBR o b k &&& 0xFC00#16 = encodeBR o 0 0 := by
  ext i hi
  rw [BitVec.getElem_and, encodeBR_bit, encodeBR_bit]
  interval_cases i <;> simp

theorem encodeK12_mask (k : BitVec 12) : encodeK12 k &&& 0xF000#16 = encodeK12 0 := by
  ext i hi
  rw [BitVec.getElem_and, encodeK12_bit, encodeK12_bit]
  interval_cases i <;> simp

theorem firstK22_mask (o : BitVec 3) (k : PcWord) : firstK22 o k &&& 0xFE0E#16 = firstK22 o 0 := by
  ext i hi
  rw [BitVec.getElem_and, firstK22_bit, firstK22_bit]
  interval_cases i <;> simp

theorem rowMatches_encode (i : Instr) : rowMatches ((encode i).getD 0 0) (rowOf i) = true := by
  rw [rowMatches_iff]
  cases i with
  | add | adc | sub | sbc | cp | cpc | and | or | eor | cpse => exact encodeRR_mask ..
  | subi | sbci | cpi | ori | ldi => exact encodeRK_mask ..
  | rjmp => exact encodeK12_mask ..
  | brbs | brbc => exact encodeBR_mask ..
  | jmp | call => exact firstK22_mask ..
  | ret => rfl
  | inIo | outIo => exact encodeIO_mask ..
  | com | push | pop | lds | sts | ldX | ldXInc | ldDecX | ldY | ldYInc | ldDecY | ldZ | ldZInc | ldDecZ | stX | stXInc
  | stDecX | stY | stYInc | stDecY | stZ | stZInc | stDecZ | lpmZ | lpmZInc | elpmZ | elpmZInc =>
    exact encodeR1_mask ..

/-- The operands of a well-formed instruction are the fields of its words. -/
theorem operandsAt_encode {i : Instr} (h : WellFormed i = true) :
    operandsAt i ((encode i).getD 0 0) ((encode i).getD 1 0) = true := by
  cases i with
  | add | adc | sub | sbc | cp | cpc | and | or | eor | cpse =>
    simp [operandsAt, encode, fieldD5_encodeRR, fieldR5_encodeRR]
  | subi | sbci | cpi | ori | ldi => simp [operandsAt, encode, fieldD4_encodeRK _ _ _ h, fieldK8_encodeRK]
  | rjmp k => exact decide_eq_true ((atK12_iff ..).2 (fieldK12_encodeK12 k).symm)
  | brbs | brbc => simp [operandsAt, encode, fieldS3_encodeBR, fieldK7_encodeBR]
  | jmp | call => simp [operandsAt, encode, encodeK22_eq, fieldK22_firstK22]
  | ret => rfl
  | inIo | outIo => simp [operandsAt, encode, fieldD5_encodeIO, fieldA6_encodeIO]
  | com | push | pop | lds | sts | ldX | ldXInc | ldDecX | ldY | ldYInc | ldDecY | ldZ | ldZInc | ldDecZ | stX | stXInc
  | stDecX | stY | stYInc | stDecY | stZ | stZInc | stDecZ | lpmZ | lpmZInc | elpmZ | elpmZInc =>
    simp [operandsAt, encode, fieldD5_encodeR1]

theorem encodedWords (i : Instr) : EncodedWords.Statement i := by
  open EncodedWords in
  cases i <;>
    simp only [add, adc, sub, sbc, cp, cpc, EncodedWords.and, EncodedWords.or, eor, cpse, subi, sbci, cpi, ori, ldi,
      com, rjmp, brbs, brbc, jmp, call, ret, push, pop, lds, sts, ldX, ldXInc, ldDecX, ldY, ldYInc, ldDecY, ldZ, ldZInc,
      ldDecZ, stX, stXInc, stDecX, stY, stYInc, stDecY, stZ, stZInc, stDecZ, lpmZ, lpmZInc, elpmZ, elpmZInc, inIo,
      outIo]

/-- Every well-formed instruction has the encoding of its row. -/
theorem hasRow {i : Instr} (h : WellFormed i = true) : HasRow i (rowOf i).1 (rowOf i).2 (encode i).length where
  length := rfl
  fixed := (rowMatches_iff ..).1 (rowMatches_encode i)
  two := by
    obtain ⟨hlen, htwo⟩ | ⟨hlen, htwo⟩ := encodedWords i
    · rw [htwo, hlen]
      rfl
    · rw [htwo, hlen]
      rfl
  operands := operandsAt_encode h
  read := decode_of_rowMatches (rowMatches_encode i) (operandsAt_encode h)

/-! ### Words from rows and fields -/

/-- The bits of a field that a row's mask covers are the row's. -/
theorem extractLsb'_of_rowMatches {op mask pat : Word} (h : rowMatches op (mask, pat) = true) {start len : Nat}
    (hmask : mask.extractLsb' start len = BitVec.allOnes len) :
    op.extractLsb' start len = pat.extractLsb' start len := by
  rw [← mask_of_rowMatches h, BitVec.extractLsb'_and, hmask, BitVec.and_allOnes]

theorem encodeRR_of_rowMatches {op pat : Word} {o : BitVec 6} (h : rowMatches op (0xFC00#16, pat) = true)
    (ho : pat.extractLsb' 10 6 = o) : encodeRR o (fieldD5 op) (fieldR5 op) = op := by
  rw [← ho, ← extractLsb'_of_rowMatches h rfl]
  ext i hi
  rw [encodeRR_bit]
  interval_cases i <;> simp [fieldD5, fieldR5_bit]

theorem encodeRK_of_rowMatches {op pat : Word} {o : BitVec 4} (h : rowMatches op (0xF000#16, pat) = true)
    (ho : pat.extractLsb' 12 4 = o) : encodeRK o (fieldD4 op) (fieldK8 op) = op := by
  rw [← ho, ← extractLsb'_of_rowMatches h rfl]
  ext i hi
  rw [encodeRK_bit]
  interval_cases i <;> simp [fieldD4_bit, fieldK8_bit]

theorem encodeR1_of_rowMatches {op pat : Word} {o : BitVec 7} {low : BitVec 4}
    (h : rowMatches op (0xFE0F#16, pat) = true) (ho : pat.extractLsb' 9 7 = o) (hlow : pat.extractLsb' 0 4 = low) :
    encodeR1 o (fieldD5 op) low = op := by
  rw [← ho, ← hlow, ← extractLsb'_of_rowMatches h rfl, ← extractLsb'_of_rowMatches h rfl]
  ext i hi
  rw [encodeR1_bit]
  interval_cases i <;> simp [fieldD5]

theorem encodeIO_of_rowMatches {op pat : Word} {o : BitVec 5} (h : rowMatches op (0xF800#16, pat) = true)
    (ho : pat.extractLsb' 11 5 = o) : encodeIO o (fieldD5 op) (fieldA6 op) = op := by
  rw [← ho, ← extractLsb'_of_rowMatches h rfl]
  ext i hi
  rw [encodeIO_bit]
  interval_cases i <;> simp [fieldD5, fieldA6_bit]

theorem encodeBR_of_rowMatches {op pat : Word} {o : BitVec 6} (h : rowMatches op (0xFC00#16, pat) = true)
    (ho : pat.extractLsb' 10 6 = o) : encodeBR o (fieldS3 op) (fieldK7 op) = op := by
  rw [← ho, ← extractLsb'_of_rowMatches h rfl]
  ext i hi
  rw [encodeBR_bit]
  interval_cases i <;> simp [fieldS3, fieldK7]

theorem encodeK12_of_rowMatches {op : Word} (h : rowMatches op (0xF000#16, 0xC000#16) = true) :
    encodeK12 (fieldK12 op) = op := by
  rw [encodeK12, ← show op.extractLsb' 12 4 = 0b1100#4 from extractLsb'_of_rowMatches h rfl, fieldK12]
  exact (BitVec.extractLsb'_append_extractLsb'_eq_extractLsb' rfl).trans (BitVec.extractLsb'_eq_self)

theorem encodeK22_of_rowMatches {op pat : Word} {o : BitVec 3} (w2 : Word) (h : rowMatches op (0xFE0E#16, pat) = true)
    (hhigh : pat.extractLsb' 9 7 = 0b1001010#7) (ho : pat.extractLsb' 1 3 = o) :
    encodeK22 o (fieldK22 op w2) = [op, w2] := by
  have hfirst : firstK22 o (fieldK22 op w2) = op := by
    rw [← ho, ← extractLsb'_of_rowMatches h rfl]
    ext i hi
    rw [firstK22_bit, ← hhigh, ← extractLsb'_of_rowMatches h rfl]
    interval_cases i <;> simp [fieldK22_bit]
  have hsecond : (fieldK22 op w2).extractLsb' 0 16 = w2 := by
    ext i hi
    rw [BitVec.getElem_extractLsb', Nat.zero_add, BitVec.getLsbD_eq_getElem (by omega), fieldK22_bit, if_pos hi,
      BitVec.getLsbD_eq_getElem hi]
  rw [encodeK22_eq, hfirst, hsecond]

/-- A row and its fields are all the bits of an instruction's words. -/
theorem encode_of_rowMatches {op w2 : Word} {i : Instr} (hrow : rowMatches op (rowOf i) = true)
    (hops : operandsAt i op w2 = true) : encode i = [op] ∨ encode i = [op, w2] := by
  cases i with
  | add | adc | sub | sbc | cp | cpc | and | or | eor | cpse =>
    simp only [operandsAt, Bool.and_eq_true, atD5_iff, atR5_iff] at hops
    obtain ⟨rfl, rfl⟩ := hops
    exact .inl (congrArg (List.cons · []) (encodeRR_of_rowMatches hrow rfl))
  | subi | sbci | cpi | ori | ldi =>
    simp only [operandsAt, Bool.and_eq_true, atD4_iff, atK8_iff] at hops
    obtain ⟨rfl, rfl⟩ := hops
    exact .inl (congrArg (List.cons · []) (encodeRK_of_rowMatches hrow rfl))
  | rjmp =>
    obtain rfl := (atK12_iff ..).1 (of_decide_eq_true hops)
    exact .inl (congrArg (List.cons · []) (encodeK12_of_rowMatches hrow))
  | brbs | brbc =>
    obtain ⟨rfl, rfl⟩ := (atBR_iff ..).1 hops
    exact .inl (congrArg (List.cons · []) (encodeBR_of_rowMatches hrow rfl))
  | jmp | call =>
    obtain rfl := (atK22_iff ..).1 hops
    exact .inr (encodeK22_of_rowMatches w2 hrow rfl rfl)
  | ret => exact .inl (congrArg (List.cons · []) (ret_of_rowMatches hrow).symm)
  | lds | sts =>
    simp only [operandsAt, Bool.and_eq_true, atD5_iff, decide_eq_true_iff] at hops
    obtain ⟨rfl, rfl⟩ := hops
    exact .inr (congrArg (List.cons · [_]) (encodeR1_of_rowMatches hrow rfl rfl))
  | inIo | outIo =>
    simp only [operandsAt, Bool.and_eq_true, atD5_iff, atA6_iff] at hops
    obtain ⟨rfl, rfl⟩ := hops
    exact .inl (congrArg (List.cons · []) (encodeIO_of_rowMatches hrow rfl))
  | com | push | pop | ldX | ldXInc | ldDecX | ldY | ldYInc | ldDecY | ldZ | ldZInc | ldDecZ | stX | stXInc | stDecX
  | stY | stYInc | stDecY | stZ | stZInc | stDecZ | lpmZ | lpmZInc | elpmZ | elpmZInc =>
    obtain rfl := (atD5_iff ..).1 hops
    exact .inl (congrArg (List.cons · []) (encodeR1_of_rowMatches hrow rfl rfl))

/-- An operand that is field d4 is a register that the field can name (30_encoding.md R106). -/
theorem wellFormed_of_operandsAt {op w2 : Word} {i : Instr} (h : operandsAt i op w2 = true) : WellFormed i = true := by
  cases i with
  | subi | sbci | cpi | ori | ldi =>
    simp only [operandsAt, Bool.and_eq_true, atD4_iff] at h
    obtain ⟨rfl, -⟩ := h
    exact upperReg_fieldD4 op
  | _ => rfl

/-- The words of an instruction are the first word, and the second just when TwoWord says so. -/
theorem encode_of_decode {op w2 : Word} {i : Instr} (h : decode op w2 = .ok i) :
    encode i = if twoWord op then [op, w2] else [op] := by
  obtain ⟨hrow, hops⟩ := rowMatches_of_decode h
  have hwords := encodedWords i
  obtain henc | henc := encode_of_rowMatches hrow hops
  · have htwo : twoWord op = false := by simpa [EncodedWords.Statement, henc] using hwords
    rw [henc, htwo]
    rfl
  · have htwo : twoWord op = true := by simpa [EncodedWords.Statement, henc] using hwords
    rw [henc, htwo]
    rfl

/-! ### Words as Flash holds them -/

theorem bytes_append (w : Word) : (w.extractLsb' 8 8 ++ w.extractLsb' 0 8 : Word) = w :=
  Machine.joinBytes_highByte_lowByte w

theorem decodeBytes_oneWord {w : Word} {i : Instr} (htwo : twoWord w = false) (h : decode w 0 = .ok i)
    (rest : List Byte) : decodeBytes (wordBytes [w] ++ rest) = .ok (i, rest) := by
  simp only [wordBytes, List.cons_append, List.nil_append, decodeBytes, bytes_append, htwo, h]
  rfl

theorem decodeBytes_twoWords {w w2 : Word} {i : Instr} (htwo : twoWord w = true) (h : decode w w2 = .ok i)
    (rest : List Byte) : decodeBytes (wordBytes [w, w2] ++ rest) = .ok (i, rest) := by
  simp only [wordBytes, List.cons_append, List.nil_append, decodeBytes, bytes_append, htwo, h]
  rfl

/-! ### The admitted words -/

theorem decode_of_mem_rowInstrs {op w2 : Word} {i : Instr} (hmem : i ∈ rowInstrs op w2)
    (hrow : rowMatches op (rowOf i) = true) : decode op w2 = .ok i :=
  decode_of_rowMatches hrow (operandsAt_rowInstrs op w2 i hmem)

theorem exists_decode_iff (op w2 : Word) :
    (∃ i, decode op w2 = .ok i) ↔ ∃ row ∈ tableRows, rowMatches op row = true := by
  constructor
  · rintro ⟨i, h⟩
    exact ⟨rowOf i, rowOf_mem_tableRows i, (rowMatches_of_decode h).1⟩
  · rintro ⟨row, hmem, hrow⟩
    obtain ⟨i, hi, rfl⟩ := List.mem_map.1 (rowOf_rowInstrs op w2 ▸ hmem)
    exact ⟨i, decode_of_mem_rowInstrs hi hrow⟩

/-- A mask widened by one bit splits a pattern in two. -/
theorem and_or_twoPow_cases {op mask pat : Word} (bit : Nat) (h : op &&& mask = pat) :
    op &&& (mask ||| BitVec.twoPow 16 bit) = pat ∨
      op &&& (mask ||| BitVec.twoPow 16 bit) = pat ||| BitVec.twoPow 16 bit := by
  rw [BitVec.and_or_distrib_left, h, BitVec.and_twoPow]
  split
  · exact .inr rfl
  · exact .inl BitVec.or_zero

/-- TwoWord's two masks are those of two rows each, with one bit left out. -/
theorem rows_of_twoWord {op : Word} (h : twoWord op = true) :
    op &&& 0xFE0F#16 = 0x9000#16 ∨ op &&& 0xFE0F#16 = 0x9200#16 ∨
      op &&& 0xFE0E#16 = 0x940C#16 ∨ op &&& 0xFE0E#16 = 0x940E#16 := by
  rw [twoWord, Bool.or_eq_true, beq_iff_eq, beq_iff_eq] at h
  obtain h | h := h
  · obtain h | h := and_or_twoPow_cases 9 h
    · exact .inl h
    · exact .inr (.inl h)
  · obtain h | h := and_or_twoPow_cases 1 h
    · exact .inr (.inr (.inl h))
    · exact .inr (.inr (.inr h))

end Sys2Proof

namespace Sys2Proof.Proofs

open Sys2Proof.Safety Sys2Proof.Laws

/-- Settles O1: the encoder's words have the instruction's row and its operands as fields, and the decoder reads just
those. -/
theorem decodeUndoesEncode : Obligations.DecodeUndoesEncode := by
  intro i rest h
  have hread := (hasRow h).read
  obtain ⟨hlen, htwo⟩ | ⟨hlen, htwo⟩ := encodedWords i
  · obtain ⟨w, henc⟩ := List.length_eq_one_iff.1 hlen
    rw [henc] at hread htwo ⊢
    exact decodeBytes_oneWord htwo hread rest
  · obtain ⟨w, w2, henc⟩ := List.length_eq_two.1 hlen
    rw [henc] at hread htwo ⊢
    exact decodeBytes_twoWords htwo hread rest

/-- Settles O2: the decoder reads a row and its fields, and these are all the bits of the words. -/
theorem encodeUndoesDecode : Obligations.EncodeUndoesDecode := by
  intro op w2 i h
  have hops := (rowMatches_of_decode h).2
  exact ⟨wellFormed_of_operandsAt hops, hops, encode_of_decode h⟩

/-- Settles O3: the decoder answers the row's instruction, two rows differ in a bit both fix, and what is not read is
illegal. -/
theorem admittedWordsAreTheTable : Obligations.AdmittedWordsAreTheTable := by
  intro op w2
  refine ⟨exists_decode_iff op w2, filter_rowMatches_length_le_one op, fun hnone => ?_⟩
  obtain ⟨i, -, hrow, -⟩ | hill := decode_reads op w2
  · exact absurd hrow (Bool.eq_false_iff.1 (hnone _ (rowOf_mem_tableRows i)))
  · exact hill

/-- Settles O4: TwoWord's formula splits into the rows of the four, and an instruction of two words has a two-word first
word. -/
theorem twoWordIsLdsStsJmpCall : Obligations.TwoWordIsLdsStsJmpCall := by
  intro op
  refine ⟨rfl, fun h => ?_, ?_⟩
  · have hread (i : Instr) (hmem : i ∈ rowInstrs op 0) (hrow : op &&& (rowOf i).1 = (rowOf i).2) :
        decode op 0 = .ok i := decode_of_mem_rowInstrs hmem ((rowMatches_iff ..).2 hrow)
    obtain hlds | hsts | hjmp | hcall := rows_of_twoWord h
    · exact ⟨0, .lds (fieldD5 op) 0, hread _ (by simp [rowInstrs]) hlds, by simp⟩
    · exact ⟨0, .sts 0 (fieldD5 op), hread _ (by simp [rowInstrs]) hsts, by simp⟩
    · exact ⟨0, .jmp (fieldK22 op 0), hread _ (by simp [rowInstrs]) hjmp, by simp⟩
    · exact ⟨0, .call (fieldK22 op 0), hread _ (by simp [rowInstrs]) hcall, by simp⟩
  · rintro ⟨w2, i, h, hform⟩
    have henc := encode_of_decode h
    by_contra htwo
    rw [if_neg htwo] at henc
    obtain ⟨d, k, rfl⟩ | ⟨k, r, rfl⟩ | ⟨k, rfl⟩ | ⟨k, rfl⟩ := hform <;> simp [encode, encodeK22] at henc

end Sys2Proof.Proofs
end

section
/-!
PROOFS. The ALU family (41_alu.md): what the two ends of an ALU instruction leave, the flags read back from the packed
SREG, their arithmetic reading, and 16-bit comparison and addition by two instructions.
-/

namespace Sys2Proof.Machine

open Sys2Proof.Safety

/-! ### What the two ends of an ALU instruction leave -/

theorem reg_ne_sregAddr (n : Reg) : n.toNat ≠ sregAddr := by
  have hn := n.isLt
  rw [sregAddr]
  omega

theorem State.aluWrite_reg (s : State) (d : Reg) (res : Byte) (f : Flags) (n : Reg) :
    (s.aluWrite d res f).reg n = if n = d then res else s.reg n := by
  rw [State.reg, State.aluWrite_byteAt, if_neg (reg_ne_sregAddr n)]
  simp only [BitVec.toNat_inj, State.reg]

theorem State.aluCompare_reg (s : State) (f : Flags) (n : Reg) : (s.aluCompare f).reg n = s.reg n := by
  rw [State.reg, State.aluCompare_byteAt, if_neg (reg_ne_sregAddr n), State.reg]

theorem State.aluWrite_frame (s : State) (d : Reg) (res : Byte) (f : Flags) :
    Frame s (s.aluWrite d res f) [d.toNat, 0x5F] := by
  refine frame_of (fun a ha => ?_) rfl rfl rfl rfl rfl rfl rfl rfl
  simp only [List.mem_cons, List.not_mem_nil, or_false, not_or] at ha
  obtain ⟨hd, hsreg⟩ := ha
  rw [State.aluWrite_byteAt, sregAddr, if_neg hsreg, if_neg hd]

theorem State.aluCompare_frame (s : State) (f : Flags) : Frame s (s.aluCompare f) [0x5F] := by
  refine frame_of (fun a ha => ?_) rfl rfl rfl rfl rfl rfl rfl rfl
  rw [State.aluCompare_byteAt, sregAddr, if_neg (List.ne_of_not_mem_cons ha)]

/-- Two instructions one after the other write among the bytes that either writes. -/
theorem frame_trans {s t u : State} {v w x : List Nat} (hst : Frame s t v) (htu : Frame t u w) (hv : v ⊆ x)
    (hw : w ⊆ x) : Frame s u x :=
  frame_of (fun a ha => (htu.bytes a fun h => ha (hw h)).trans (hst.bytes a fun h => ha (hv h)))
    (htu.host.cfg.trans hst.host.cfg) (htu.host.flash.trans hst.host.flash) (htu.host.loads.trans hst.host.loads)
    (htu.host.breakpoints.trans hst.host.breakpoints) (htu.host.delayedCycles.trans hst.host.delayedCycles)
    (htu.fault.trans hst.fault) (htu.instrCount.trans hst.instrCount) (htu.callStack.trans hst.callStack)

/-! ### Flags read back -/

theorem addResult_eq (d r : Byte) (cin : Bool) : addResult d r cin = d + r + bitByte cin := by
  rw [addResult, carryByte_eq_bitByte]

theorem subResult_eq (d r : Byte) (cin : Bool) : subResult d r cin = d - r - bitByte cin := by
  rw [subResult, carryByte_eq_bitByte]

/-- S and the upper bits of a SREG packed with an S that obeys S_RULE. -/
theorem signAndUpper_of_sreg {s t : State} {f : Flags} (h : t.sreg = packFlags s.sreg f)
    (hsign : f.s = signFlag s.cfg.sRule f.n f.v f.h) : SignAndUpper s t := by
  obtain ⟨-, -, hn, hv, hs, hh, h6, h7⟩ := State.flags_of_sreg h
  refine ⟨?_, h6, h7⟩
  rw [hs, hn, hv, hh, hsign]
  rfl

theorem addFlagsSet_of_sreg {s t : State} {d r : Byte} {cin : Bool}
    (h : t.sreg = packFlags s.sreg (addFlags s.cfg.sRule d r cin)) : AddFlagsSet s t d r (addResult d r cin) :=
  have ⟨hc, hz, hn, hv, _, hh, _, _⟩ := State.flags_of_sreg h
  ⟨hh, hv, hn, hz, hc, signAndUpper_of_sreg h rfl⟩

theorem subFlagsSet_of_sreg {s t : State} {d r : Byte} {cin chain : Bool}
    (h : t.sreg = packFlags s.sreg (subFlags s.cfg.sRule d r cin (!chain || s.flagZ))) :
    SubFlagsSet s t d r (subResult d r cin) chain :=
  have ⟨hc, hz, hn, hv, _, hh, _, _⟩ := State.flags_of_sreg h
  ⟨hh, hv, hn, hz, hc, signAndUpper_of_sreg h rfl⟩

theorem logicFlagsSet_of_sreg {s t : State} {res : Byte} {c : Bool}
    (h : t.sreg = packFlags s.sreg (logicFlags s.cfg.sRule s res c)) : LogicFlagsSet s t res c :=
  have ⟨hc, hz, hn, hv, _, hh, _, _⟩ := State.flags_of_sreg h
  ⟨hn, hz, hc, hv, hh, signAndUpper_of_sreg h rfl⟩

/-! ### The four shared effects -/

theorem State.additive_reg_same (s : State) (d : Reg) (r : Byte) (cin : Bool) :
    (s.additive d r cin).reg d = addResult (s.reg d) r cin := (s.aluWrite_reg ..).trans (if_pos rfl)

theorem State.additive_reg_ne (s : State) {d n : Reg} (h : n ≠ d) (r : Byte) (cin : Bool) :
    (s.additive d r cin).reg n = s.reg n := (s.aluWrite_reg ..).trans (if_neg h)

theorem State.additive_done (s : State) (d : Reg) (r : Byte) (cin : Bool) :
    AddDone d r cin s (s.additive d r cin) where
  result := (s.additive_reg_same d r cin).trans (addResult_eq ..)
  flags := addResult_eq (s.reg d) r cin ▸ addFlagsSet_of_sreg (s.aluWrite_sreg ..)
  pc := s.aluWrite_pc ..
  frame := s.aluWrite_frame ..

/-- Z's condition is ANDed with the old Z when `chain`, with 1 when not (41_alu.md R143). -/
theorem State.subtractive_done (s : State) (d : Reg) (r : Byte) (cin chain : Bool) :
    SubDone d r cin chain s (s.subtractive d r cin (!chain || s.flagZ)) where
  result := by rw [State.subtractive, State.aluWrite_reg, if_pos rfl, subResult_eq]
  flags := subResult_eq (s.reg d) r cin ▸ subFlagsSet_of_sreg (s.aluWrite_sreg ..)
  pc := s.aluWrite_pc ..
  frame := s.aluWrite_frame ..

theorem State.compare_done (s : State) (d : Reg) (r : Byte) (cin chain : Bool) :
    CompareDone d r cin chain s (s.compare d r cin (!chain || s.flagZ)) where
  flags := subResult_eq (s.reg d) r cin ▸ subFlagsSet_of_sreg (s.aluCompare_sreg _)
  pc := s.aluCompare_pc _
  frame := s.aluCompare_frame _

theorem State.logical_done (s : State) (d : Reg) (res : Byte) (c : Bool) :
    LogicDone d res c s (s.logical d res c) where
  result := by rw [State.logical, State.aluWrite_reg, if_pos rfl]
  flags := logicFlagsSet_of_sreg (s.aluWrite_sreg ..)
  pc := s.aluWrite_pc ..
  frame := s.aluWrite_frame ..

/-! ### Bits, digits and carries -/

theorem byte_bit7 (b : Byte) : b.getLsbD 7 = decide (128 ≤ b.toNat) := BitVec.msb_eq_decide b

theorem byte_bit3 (b : Byte) : b.getLsbD 3 = decide (8 ≤ b.toNat % 16) := by
  rw [← BitVec.testBit_toNat, Nat.testBit_eq_decide_div_mod_eq, decide_eq_decide]
  omega

theorem byte_toInt_cases (b : Byte) :
    b.toNat < 128 ∧ b.toInt = b.toNat ∨ 128 ≤ b.toNat ∧ b.toInt = b.toNat - 256 := by
  rw [BitVec.toInt_eq_toNat_cond]
  split <;> omega

theorem carryByte_toNat (c : Bool) : (carryByte c).toNat = c.toNat := by cases c <;> rfl

theorem addResult_toNat (d r : Byte) (cin : Bool) :
    (addResult d r cin).toNat = (d.toNat + r.toNat + cin.toNat) % 256 := by
  rw [addResult, BitVec.toNat_add, BitVec.toNat_add, carryByte_toNat]
  omega

theorem subResult_toNat (d r : Byte) (cin : Bool) :
    (subResult d r cin).toNat = (d.toNat + 512 - r.toNat - cin.toNat) % 256 := by
  have hr := r.isLt
  have hc := cin.toNat_le
  rw [subResult, BitVec.toNat_sub, BitVec.toNat_sub, carryByte_toNat]
  omega

/-- The carry out of a digit of size 2h: two of the three top bits x, y and not-sum are set (41_alu.md R142, R145). -/
theorem carryOut_eq {h x y c res : Nat} (hx : x < 2 * h) (hy : y < 2 * h) (hc : c ≤ 1)
    (hres : res = (x + y + c) % (2 * h)) :
    ((decide (h ≤ x) && decide (h ≤ y)) || (decide (h ≤ y) && !decide (h ≤ res)) ||
      (!decide (h ≤ res) && decide (h ≤ x))) = decide (2 * h ≤ x + y + c) := by
  have hsum : res = x + y + c ∧ x + y + c < 2 * h ∨ res + 2 * h = x + y + c := by
    obtain hlt | hge := Nat.lt_or_ge (x + y + c) (2 * h)
    · exact .inl ⟨hres.trans (Nat.mod_eq_of_lt hlt), hlt⟩
    · rw [Nat.mod_eq_sub_mod hge, Nat.mod_eq_of_lt (by omega)] at hres
      exact .inr (by omega)
  rw [Bool.eq_iff_iff]
  simp only [Bool.or_eq_true, Bool.and_eq_true, Bool.not_eq_true', decide_eq_true_eq, decide_eq_false_iff_not]
  omega

/-- The borrow into a digit of size 2h: two of the three top bits not-x, y and difference are set (41_alu.md R143,
R145). -/
theorem borrowOut_eq {h x y c res : Nat} (hx : x < 2 * h) (hy : y < 2 * h) (hc : c ≤ 1)
    (hres : res < 2 * h) (hdiff : res + y + c = x ∨ res + y + c = x + 2 * h) :
    ((!decide (h ≤ x) && decide (h ≤ y)) || (decide (h ≤ y) && decide (h ≤ res)) ||
      (decide (h ≤ res) && !decide (h ≤ x))) = decide (x < y + c) := by
  rw [Bool.eq_iff_iff]
  simp only [Bool.or_eq_true, Bool.and_eq_true, Bool.not_eq_true', decide_eq_true_eq, decide_eq_false_iff_not]
  omega

/-! ### The flags as arithmetic (41_alu.md R145) -/

section FlagArithmetic

variable (rule : SRule) (d r : Byte) (cin zKeep : Bool)

theorem addFlags_c : (addFlags rule d r cin).c = decide (256 ≤ d.toNat + r.toNat + cin.toNat) := by
  simp only [addFlags, byte_bit7]
  exact carryOut_eq d.isLt r.isLt cin.toNat_le (addResult_toNat d r cin)

theorem addFlags_h : (addFlags rule d r cin).h = decide (16 ≤ d.toNat % 16 + r.toNat % 16 + cin.toNat) := by
  simp only [addFlags, byte_bit3]
  refine carryOut_eq (by omega) (by omega) cin.toNat_le ?_
  rw [addResult_toNat]
  omega

theorem addFlags_v_iff : (addFlags rule d r cin).v = true ↔
    d.toInt + r.toInt + cin.toNat < -128 ∨ 127 < d.toInt + r.toInt + cin.toNat := by
  have hd := byte_toInt_cases d
  have hr := byte_toInt_cases r
  have hc := cin.toNat_le
  simp only [addFlags, byte_bit7, addResult_toNat, Bool.or_eq_true, Bool.and_eq_true, Bool.not_eq_true',
    decide_eq_true_eq, decide_eq_false_iff_not]
  omega

theorem subFlags_c : (subFlags rule d r cin zKeep).c = decide (d.toNat < r.toNat + cin.toNat) := by
  have hd := d.isLt
  have hr := r.isLt
  have hc := cin.toNat_le
  have hres := subResult_toNat d r cin
  simp only [subFlags, byte_bit7]
  exact borrowOut_eq hd hr hc (BitVec.isLt _) (by omega)

theorem subFlags_h : (subFlags rule d r cin zKeep).h = decide (d.toNat % 16 < r.toNat % 16 + cin.toNat) := by
  have hr := r.isLt
  have hc := cin.toNat_le
  have hres := subResult_toNat d r cin
  simp only [subFlags, byte_bit3]
  exact borrowOut_eq (by omega) (by omega) hc (by omega) (by omega)

theorem subFlags_v_iff : (subFlags rule d r cin zKeep).v = true ↔
    d.toInt - r.toInt - cin.toNat < -128 ∨ 127 < d.toInt - r.toInt - cin.toNat := by
  have hd := byte_toInt_cases d
  have hr := byte_toInt_cases r
  have hc := cin.toNat_le
  simp only [subFlags, byte_bit7, subResult_toNat, Bool.or_eq_true, Bool.and_eq_true, Bool.not_eq_true',
    decide_eq_true_eq, decide_eq_false_iff_not]
  omega

end FlagArithmetic

/-! ### 16-bit values by bytes -/

theorem toNat_decide_cases (p : Prop) [Decidable p] : p ∧ (decide p).toNat = 1 ∨ ¬p ∧ (decide p).toNat = 0 := by
  by_cases h : p
  · exact .inl ⟨h, by rw [decide_eq_true h, Bool.toNat_true]⟩
  · exact .inr ⟨h, by rw [decide_eq_false h, Bool.toNat_false]⟩

theorem subResult_eq_zero_iff (d r : Byte) : subResult d r false = 0 ↔ d = r := by
  rw [subResult, show carryByte false = 0 from rfl, sub_zero, sub_eq_zero]

theorem joinBytes_inj {a b c d : Byte} : joinBytes a b = joinBytes c d ↔ a = c ∧ b = d := by
  constructor
  · intro h
    exact ⟨by simpa using congrArg highByte h, by simpa using congrArg lowByte h⟩
  · rintro ⟨rfl, rfl⟩
    rfl

/-- Equal low bytes leave no borrow, so the chained zero conditions are equality (41_alu.md R153). -/
theorem joinBytes_eq_iff_subResult (a b c d : Byte) :
    joinBytes a b = joinBytes c d ↔
      subResult a c (decide (b.toNat < d.toNat)) = 0 ∧ subResult b d false = 0 := by
  rw [joinBytes_inj, subResult_eq_zero_iff]
  refine and_congr_left fun hbd => ?_
  rw [hbd, decide_eq_false (Nat.lt_irrefl _), subResult_eq_zero_iff]

/-- Unsigned comparison by bytes: the high bytes less the borrow of the low ones. -/
theorem joinBytes_lt_iff (a b c d : Byte) :
    joinBytes a b < joinBytes c d ↔ a.toNat < c.toNat + (decide (b.toNat < d.toNat)).toNat := by
  have hb := b.isLt
  have hd := d.isLt
  have hborrow := toNat_decide_cases (b.toNat < d.toNat)
  rw [BitVec.lt_def, joinBytes_toNat, joinBytes_toNat]
  omega

/-- Addition by bytes: the low sum, and the high sum with the carry of the low one. -/
theorem joinBytes_addResult (a b c d : Byte) :
    joinBytes (addResult a c (decide (256 ≤ b.toNat + d.toNat))) (addResult b d false) =
      joinBytes a b + joinBytes c d := by
  have hcarry := toNat_decide_cases (256 ≤ b.toNat + d.toNat)
  apply BitVec.eq_of_toNat_eq
  rw [BitVec.toNat_add, joinBytes_toNat, joinBytes_toNat, joinBytes_toNat, addResult_toNat, addResult_toNat,
    Bool.toNat_false]
  omega

/-- The carry of a 16-bit addition is the carry of its high bytes. -/
theorem joinBytes_carry_iff (a b c d : Byte) :
    256 ≤ a.toNat + c.toNat + (decide (256 ≤ b.toNat + d.toNat)).toNat ↔
      0x10000 ≤ (joinBytes a b).toNat + (joinBytes c d).toNat := by
  have hcarry := toNat_decide_cases (256 ≤ b.toNat + d.toNat)
  rw [joinBytes_toNat, joinBytes_toNat]
  omega

/-! ### Two instructions one after the other -/

theorem State.compare_flagC (s : State) (d : Reg) (r : Byte) (cin zKeep : Bool) :
    (s.compare d r cin zKeep).flagC = decide ((s.reg d).toNat < r.toNat + cin.toNat) := by
  obtain ⟨hc, -⟩ := State.flags_of_sreg (s.aluCompare_sreg (subFlags s.cfg.sRule (s.reg d) r cin zKeep))
  rw [State.compare, hc, subFlags_c]

theorem State.compare_flagZ (s : State) (d : Reg) (r : Byte) (cin zKeep : Bool) :
    (s.compare d r cin zKeep).flagZ = (decide (subResult (s.reg d) r cin = 0) && zKeep) := by
  obtain ⟨-, hz, -⟩ := State.flags_of_sreg (s.aluCompare_sreg (subFlags s.cfg.sRule (s.reg d) r cin zKeep))
  exact hz

theorem State.compare_reg (s : State) (d : Reg) (r : Byte) (cin zKeep : Bool) (n : Reg) :
    (s.compare d r cin zKeep).reg n = s.reg n := s.aluCompare_reg _ n

theorem State.additive_flagC (s : State) (d : Reg) (r : Byte) (cin : Bool) :
    (s.additive d r cin).flagC = decide (256 ≤ (s.reg d).toNat + r.toNat + cin.toNat) := by
  obtain ⟨hc, -⟩ := State.flags_of_sreg (s.aluWrite_sreg d (addResult (s.reg d) r cin)
    (addFlags s.cfg.sRule (s.reg d) r cin))
  rw [State.additive, hc, addFlags_c]

end Sys2Proof.Machine

namespace Sys2Proof.Proofs

open Sys2Proof.Machine Sys2Proof.Safety

/-- Settles O22: both end as AddFlags' shared effect does, ADC with the old C. -/
theorem addAndAdcWriteRegisterAndFlags : Obligations.AddAndAdcWriteRegisterAndFlags := by
  refine fun s d r => ⟨hasRow rfl, ?add, hasRow rfl, ?adc⟩
  case add => exact ⟨_, rfl, s.additive_done d (s.reg r) false⟩
  case adc => exact ⟨_, rfl, s.additive_done d (s.reg r) s.flagC⟩

/-- Settles O23: all four end as SubFlags' shared effect does; `chain` is set for SBC and SBCI. -/
theorem subtractionsWriteRegisterAndFlags : Obligations.SubtractionsWriteRegisterAndFlags := by
  refine ⟨fun s d r => ⟨hasRow rfl, ?sub, hasRow rfl, ?sbc⟩,
    fun s d k => ⟨fun hd => ⟨hasRow hd, hasRow hd⟩, ?subi, ?sbci⟩⟩
  case sub => exact ⟨_, rfl, s.subtractive_done d (s.reg r) false false⟩
  case sbc => exact ⟨_, rfl, s.subtractive_done d (s.reg r) s.flagC true⟩
  case subi => exact ⟨_, rfl, s.subtractive_done d k false false⟩
  case sbci => exact ⟨_, rfl, s.subtractive_done d k s.flagC true⟩

/-- Settles O24: all three end as the compares' shared effect does; `chain` is set for CPC. -/
theorem comparesWriteFlagsOnly : Obligations.ComparesWriteFlagsOnly := by
  refine ⟨fun s d r => ⟨hasRow rfl, ?cp, hasRow rfl, ?cpc⟩, fun s d k => ⟨fun hd => hasRow hd, ?cpi⟩⟩
  case cp => exact ⟨_, rfl, s.compare_done d (s.reg r) false false⟩
  case cpc => exact ⟨_, rfl, s.compare_done d (s.reg r) s.flagC true⟩
  case cpi => exact ⟨_, rfl, s.compare_done d k false false⟩

/-- Settles O25: all four end as LogicFlags' shared effect does, C written with its old value. -/
theorem logicalInstructionsKeepCVH : Obligations.LogicalInstructionsKeepCVH := by
  refine ⟨fun s d r => ⟨hasRow rfl, ?and, hasRow rfl, ?or, hasRow rfl, ?eor⟩,
    fun s d k => ⟨fun hd => hasRow hd, ?ori⟩⟩
  case and => exact ⟨_, rfl, s.logical_done d (s.reg d &&& s.reg r) s.flagC⟩
  case or => exact ⟨_, rfl, s.logical_done d (s.reg d ||| s.reg r) s.flagC⟩
  case eor => exact ⟨_, rfl, s.logical_done d (s.reg d ^^^ s.reg r) s.flagC⟩
  case ori => exact ⟨_, rfl, s.logical_done d (s.reg d ||| k) s.flagC⟩

/-- Settles O26: 0xFF less a byte is its complement. -/
theorem comComplementsAndSetsC : Obligations.ComComplementsAndSetsC := by
  refine fun s d => ⟨hasRow rfl, ?_⟩
  rw [← BitVec.allOnes_sub_eq_not]
  exact ⟨_, rfl, s.logical_done d (0xFF - s.reg d) true⟩

/-- Settles O27: C and H are the carry, or the borrow, out of the byte and out of its low digit, and V compares the top
bits of two signed operands with the result's. -/
theorem flagsAsArithmetic : Obligations.FlagsAsArithmetic := by
  intro rule d r cin zKeep
  rw [addFlags_c, addFlags_h, subFlags_c, subFlags_h]
  exact ⟨⟨addResult_toNat d r cin, decide_eq_true_iff, decide_eq_true_iff, addFlags_v_iff rule d r cin⟩,
    subResult_toNat d r cin, decide_eq_true_iff, decide_eq_true_iff, subFlags_v_iff rule d r cin zKeep⟩

/-- Settles O28: the compare of the low bytes hands on their borrow and their equality. -/
theorem cpThenCpcComparesWords : Obligations.CpThenCpcComparesWords := by
  intro s dl rl dh rh
  refine ⟨_, rfl, _, rfl, ?zero, ?carry,
    frame_trans (s.aluCompare_frame _) (State.aluCompare_frame _ _) (List.Subset.refl _) (List.Subset.refl _)⟩
  case zero =>
    rw [State.compare_flagZ, State.compare_flagZ, State.compare_flagC, State.compare_reg, State.compare_reg,
      Bool.and_true, ← Bool.decide_and, decide_eq_decide]
    exact (joinBytes_eq_iff_subResult ..).symm
  case carry =>
    rw [State.compare_flagC, State.compare_flagC, State.compare_reg, State.compare_reg, decide_eq_decide]
    exact (joinBytes_lt_iff ..).symm

/-- Settles O29: the addition of the low bytes hands on its carry and leaves both high bytes alone. -/
theorem addThenAdcAddsWords : Obligations.AddThenAdcAddsWords := by
  intro s dl rl dh rh hdh hrh
  refine ⟨_, rfl, _, rfl, ?sum, ?carry,
    frame_trans (s.aluWrite_frame ..) (State.aluWrite_frame ..) (by simp) (by simp)⟩
  case sum =>
    rw [State.additive_reg_same, State.additive_reg_ne _ hdh.symm, State.additive_reg_same, State.additive_reg_ne _ hdh,
      State.additive_reg_ne _ hrh, State.additive_flagC]
    exact joinBytes_addResult ..
  case carry =>
    rw [State.additive_flagC, State.additive_flagC, State.additive_reg_ne _ hdh, State.additive_reg_ne _ hrh,
      decide_eq_decide]
    exact joinBytes_carry_iff ..

end Sys2Proof.Proofs
end

section
/-!
PROOFS. The control flow family (42_control_flow.md): relative targets as numbers, the second word past Flash, the call
frame's bytes, and PUSH and POP pairs, of which a nesting gives the stack back as it found it.
-/

namespace Sys2Proof.Machine

open Sys2Proof.Safety

/-! ### Transfers -/

theorem State.setPc_frame (s : State) (p : PcWord) : Frame s (s.setPc p) [] :=
  frame_of (fun _ _ => rfl) rfl rfl rfl rfl rfl rfl rfl rfl

theorem State.branchIf_frame (s : State) (taken : Bool) (k : BitVec 7) : Frame s (s.branchIf taken k) [] := by
  cases taken <;> exact s.setPc_frame _

/-- A relative target as a number (42_control_flow.md R201). -/
theorem relTarget_toNat {n : Nat} (s : State) (k : BitVec n) :
    ((relTarget s k).toNat : Int) = ((s.pc.toNat : Int) + 1 + k.toInt) % 2 ^ 22 := by
  rw [relTarget_eq_ofInt, BitVec.toNat_ofInt, Int.toNat_of_nonneg (Int.emod_nonneg _ (by decide))]
  rfl

/-! ### The second word past Flash -/

theorem step_of_fetch_error {s : State} {f : FetchFault} (hs : Running s) (hf : fetch s = .error f) :
    step s = .next (s.takeFault f.op f.raise) := by
  rw [Running] at hs
  simp only [step, hs, runOne, hf]

/-- A row of two-word instructions has two-word first words (30_encoding.md R115). -/
theorem twoWord_of_rowMatches {op w2 : Word} {i : Instr} (hmem : i ∈ rowInstrs op w2)
    (hrow : rowMatches op (rowOf i) = true) (hlen : (encode i).length = 2) : twoWord op = true := by
  by_contra htwo
  rw [encode_of_decode (decode_of_mem_rowInstrs hmem hrow), if_neg htwo] at hlen
  cases hlen

theorem secondWordTraps_of_twoWord {mask pat : Word} (h : ∀ op : Word, op &&& mask = pat → twoWord op = true) :
    SecondWordTraps mask pat := by
  intro s hs hpc hpc2 hop
  have hf : fetch s =
      .error { op := some (fetchedWord s), raise := { kind := .pcRange, info := (s.pc + 1).toNat } } := by
    rw [fetch_eq, if_pos hpc, ← fetchedWord, if_pos (h _ hop), if_neg (Nat.not_lt.2 hpc2)]
  exact ⟨_, step_of_fetch_error hs hf, s.takeFault_faulted _ _⟩

/-! ### The call frame -/

section CallFrame

variable (s : State) (ra : PcWord)

theorem State.framed_byteAt_low (h0 : s.inSram s.sp = true) :
    ((s.framed ra).byteAt s.sp.toNat).toNat = ra.toNat % 0x100 := by
  obtain ⟨h0, -⟩ := (s.inSram_iff _).1 h0
  rw [State.framed_byteAt, sphAddr, splAddr, if_neg (by omega), if_neg (by omega), if_neg (by bv_omega),
    if_neg (by bv_omega), if_pos rfl, BitVec.extractLsb'_toNat]
  rfl

theorem State.framed_byteAt_middle (h1 : s.inSram (s.sp - 1) = true) :
    ((s.framed ra).byteAt (s.sp - 1).toNat).toNat = ra.toNat / 0x100 % 0x100 := by
  obtain ⟨h1, -⟩ := (s.inSram_iff _).1 h1
  rw [State.framed_byteAt, sphAddr, splAddr, if_neg (by omega), if_neg (by omega), if_neg (by bv_omega), if_pos rfl,
    BitVec.extractLsb'_toNat, Nat.shiftRight_eq_div_pow]

theorem State.framed_byteAt_high (h2 : s.inSram (s.sp - 2) = true) :
    ((s.framed ra).byteAt (s.sp - 2).toNat).toNat = ra.toNat / 0x10000 := by
  obtain ⟨h2, -⟩ := (s.inSram_iff _).1 h2
  rw [State.framed_byteAt, sphAddr, splAddr, if_neg (by omega), if_neg (by omega), if_pos rfl,
    BitVec.toNat_setWidth, BitVec.extractLsb'_toNat, Nat.shiftRight_eq_div_pow]
  omega

theorem State.framed_byteAt_of_notMem {a : Nat}
    (ha : a ∉ [s.sp.toNat, (s.sp - 1).toNat, (s.sp - 2).toNat, 0x5D, 0x5E]) :
    (s.framed ra).byteAt a = s.byteAt a := by
  simp only [List.mem_cons, List.not_mem_nil, or_false, not_or] at ha
  obtain ⟨h0, h1, h2, hlow, hhigh⟩ := ha
  rw [State.framed_byteAt, sphAddr, splAddr, if_neg hhigh, if_neg hlow, if_neg h2, if_neg h1, if_neg h0]

end CallFrame

/-- The state CALL leaves (42_control_flow.md R206). -/
def State.called (s : State) (k : PcWord) : State := ((s.framed (s.pc + 2)).pushCall (s.pc + 2)).setPc k

theorem exec_call {s : State} (h0 : s.inSram s.sp = true) (h1 : s.inSram (s.sp - 1) = true)
    (h2 : s.inSram (s.sp - 2) = true) (k : PcWord) : exec (.call k) s = .next (s.called k) := by
  change s.finish _ = _
  rw [State.callTo_eq, if_pos h0, if_pos h1, if_pos h2, State.finish_ok, State.called]

theorem State.called_byteAt (s : State) (k : PcWord) (a : Nat) :
    (s.called k).byteAt a = (s.framed (s.pc + 2)).byteAt a := by
  rw [State.called, State.setPc_byteAt, State.pushCall_byteAt]

theorem State.called_sp (s : State) (k : PcWord) : (s.called k).sp = s.sp - 3 := by
  rw [State.sp, State.called_byteAt, State.called_byteAt, ← State.sp, State.framed_sp]

theorem State.called_frame (s : State) (k : PcWord) :
    FrameCalls s (s.called k) [s.sp.toNat, (s.sp - 1).toNat, (s.sp - 2).toNat, 0x5D, 0x5E]
      (s.callStack ++ [s.pc + 2]) where
  bytes a ha := by rw [State.called_byteAt, State.framed_byteAt_of_notMem _ _ ha]
  host := by constructor <;> simp [State.called]
  fault := by simp [State.called]
  instrCount := by simp [State.called]
  callStack := by simp [State.called]

/-- SP's two bytes lie above the registers and below SRAM. -/
theorem notMem_spBytes {a : Nat} (h : a < 0x20 ∨ 0x60 ≤ a) : a ∉ [0x5D, 0x5E] := by
  simp only [List.mem_cons, List.not_mem_nil, or_false]
  omega

theorem State.setSp_byteAt_of_notMem (s : State) (v : Word) {a : Nat} (ha : a ∉ [0x5D, 0x5E]) :
    (s.setSp v).byteAt a = s.byteAt a := by
  simp only [List.mem_cons, List.not_mem_nil, or_false, not_or] at ha
  obtain ⟨hlow, hhigh⟩ := ha
  rw [State.setSp_byteAt, sphAddr, splAddr, if_neg hhigh, if_neg hlow]

/-- The state RET leaves (42_control_flow.md R207). -/
def State.returned (s : State) : State :=
  ((s.setSp (s.sp + 3)).popCall).setPc
    ((s.byteAt (s.sp + 1).toNat).extractLsb' 0 6 ++ s.byteAt (s.sp + 2).toNat ++ s.byteAt (s.sp + 3).toNat)

theorem exec_ret {s : State} (h1 : s.inSram (s.sp + 1) = true) (h2 : s.inSram (s.sp + 2) = true)
    (h3 : s.inSram (s.sp + 3) = true) : exec .ret s = .next s.returned := by
  change s.finish _ = _
  rw [State.returnFrom_eq, if_pos h1, if_pos h2, if_pos h3, State.finish_ok, State.returned]

theorem State.returned_pc_toNat (s : State) :
    s.returned.pc.toNat = ((s.byteAt (s.sp + 1).toNat).toNat * 0x10000 + (s.byteAt (s.sp + 2).toNat).toNat * 0x100 +
      (s.byteAt (s.sp + 3).toNat).toNat) % 2 ^ 22 := by
  rw [State.returned, State.setPc_pc, frame_value, BitVec.toNat_ofNat]

theorem State.returned_byteAt (s : State) (a : Nat) : s.returned.byteAt a = (s.setSp (s.sp + 3)).byteAt a := by
  rw [State.returned, State.setPc_byteAt, State.popCall_byteAt]

theorem State.returned_sp (s : State) : s.returned.sp = s.sp + 3 := by
  rw [State.sp, State.returned_byteAt, State.returned_byteAt, ← State.sp, State.setSp_sp]

theorem State.returned_frame (s : State) : FrameCalls s s.returned [0x5D, 0x5E] s.callStack.dropLast where
  bytes a ha := by rw [State.returned_byteAt, State.setSp_byteAt_of_notMem _ _ ha]
  host := by constructor <;> simp [State.returned]
  fault := by simp [State.returned]
  instrCount := by simp [State.returned]
  callStack := by simp [State.returned]

/-! ### PUSH and POP inside SRAM -/

/-- The state PUSH leaves (42_control_flow.md R212). -/
def State.pushed (s : State) (r : Reg) : State := ((s.putByte s.sp.toNat (s.reg r)).setSp (s.sp - 1)).advance 1

/-- The state POP leaves (42_control_flow.md R213). -/
def State.popped (s : State) (d : Reg) : State :=
  ((s.setReg d (s.byteAt (s.sp + 1).toNat)).setSp (s.sp + 1)).advance 1

theorem exec_push {s : State} (h : s.inSram s.sp = true) (r : Reg) : exec (.push r) s = .next (s.pushed r) := by
  change s.finish _ = _
  rw [State.pushByte_eq, if_pos h, State.finish_ok, State.pushed]

theorem exec_pop {s : State} (h : s.inSram (s.sp + 1) = true) (d : Reg) : exec (.pop d) s = .next (s.popped d) := by
  change s.finish _ = _
  rw [State.popByte_eq, if_pos h, State.finish_ok, State.popped]

@[simp] theorem State.pushed_sp (s : State) (r : Reg) : (s.pushed r).sp = s.sp - 1 := State.setSp_sp ..

@[simp] theorem State.popped_sp (s : State) (d : Reg) : (s.popped d).sp = s.sp + 1 := State.setSp_sp ..

theorem State.pushed_byteAt_sp {s : State} (h : s.inSram s.sp = true) (r : Reg) :
    (s.pushed r).byteAt s.sp.toNat = s.reg r := by
  obtain ⟨h, -⟩ := (s.inSram_iff _).1 h
  rw [State.pushed, State.advance_byteAt, State.setSp_byteAt_of_notMem _ _ (notMem_spBytes (.inr h)),
    State.putByte_byteAt_same]

theorem State.popped_reg (s : State) (d : Reg) : (s.popped d).reg d = s.byteAt (s.sp + 1).toNat := by
  rw [State.reg, State.popped, State.advance_byteAt, State.setSp_byteAt_of_notMem _ _ (notMem_spBytes (.inl d.isLt)),
    State.setReg_byteAt, if_pos rfl]

/-- A byte and SP written, then the next pc: the frame PUSH and POP share. -/
theorem State.putByte_setSp_frame (s : State) (a : Nat) (v : Byte) (sp : Word) :
    Frame s (((s.putByte a v).setSp sp).advance 1) [a, 0x5D, 0x5E] := by
  refine frame_of (fun b hb => ?_) rfl rfl rfl rfl rfl rfl rfl rfl
  obtain ⟨hba, hsp⟩ := not_or.1 (mt List.mem_cons.2 hb)
  rw [State.advance_byteAt, State.setSp_byteAt_of_notMem _ _ hsp, State.putByte_byteAt_ne _ _ hba]

theorem State.pushed_frame (s : State) (r : Reg) : Frame s (s.pushed r) [s.sp.toNat, 0x5D, 0x5E] :=
  s.putByte_setSp_frame ..

theorem State.popped_frame (s : State) (d : Reg) : Frame s (s.popped d) [d.toNat, 0x5D, 0x5E] :=
  s.putByte_setSp_frame ..

theorem State.pushed_reg {s : State} (h : s.inSram s.sp = true) (r q : Reg) : (s.pushed r).reg q = s.reg q := by
  obtain ⟨h, -⟩ := (s.inSram_iff _).1 h
  have hq := q.isLt
  exact (s.pushed_frame r).bytes _
    (List.not_mem_cons_of_ne_of_not_mem (by omega) (notMem_spBytes (.inl hq)))

theorem State.popped_byteAt_of_le (s : State) (d : Reg) {a : Nat} (ha : 0x60 ≤ a) :
    (s.popped d).byteAt a = s.byteAt a := by
  have hd := d.isLt
  exact (s.popped_frame d).bytes _ (List.not_mem_cons_of_ne_of_not_mem (by omega) (notMem_spBytes (.inr ha)))

/-! ### The stack bytes below SP -/

/-- The address of the stack byte `k` below SP. -/
def State.stackByte (s : State) (k : Nat) : Nat := (s.sp - BitVec.ofNat 16 k).toNat

/-- The `d` stack bytes from SP down lie inside SRAM. -/
def StackRoom (s : State) (d : Nat) : Prop := ∀ k : Nat, k < d → s.inSram (s.sp - BitVec.ofNat 16 k) = true

theorem State.stackByte_zero (s : State) : s.stackByte 0 = s.sp.toNat := congrArg BitVec.toNat (sub_zero s.sp)

theorem sub_ofNat_succ (sp : Word) (k : Nat) : sp - 1 - BitVec.ofNat 16 k = sp - BitVec.ofNat 16 (k + 1) := by
  rw [sub_sub, Nat.add_comm, BitVec.ofNat_add]
  rfl

theorem State.stackByte_pushed (s : State) (r : Reg) (k : Nat) : (s.pushed r).stackByte k = s.stackByte (k + 1) := by
  rw [State.stackByte, State.pushed_sp, sub_ofNat_succ, State.stackByte]

theorem StackRoom.mono {s : State} {d e : Nat} (h : StackRoom s d) (he : e ≤ d) : StackRoom s e :=
  fun k hk => h k (Nat.lt_of_lt_of_le hk he)

theorem StackRoom.congr {s t : State} {d : Nat} (h : StackRoom s d) (hcfg : t.cfg = s.cfg) (hsp : t.sp = s.sp) :
    StackRoom t d := by
  intro k hk
  rw [State.inSram_congr hcfg, hsp]
  exact h k hk

theorem StackRoom.inSram_sp {s : State} {d : Nat} (h : StackRoom s (d + 1)) : s.inSram s.sp = true := by
  simpa using h 0 (Nat.succ_pos d)

theorem StackRoom.pushed {s : State} {d : Nat} (h : StackRoom s (d + 1)) (r : Reg) : StackRoom (s.pushed r) d := by
  intro k hk
  rw [State.inSram_congr (s.pushed_frame r).host.cfg, State.pushed_sp, sub_ofNat_succ]
  exact h (k + 1) (Nat.succ_lt_succ hk)

/-- Stack bytes that all lie inside SRAM do not wrap around. -/
theorem StackRoom.stackByte_add {s : State} {d k : Nat} (h : StackRoom s d) (hk : k < d) :
    0x60 ≤ s.stackByte k ∧ s.stackByte k + k = s.sp.toNat := by
  refine ⟨((s.inSram_iff _).1 (h k hk)).1, ?_⟩
  induction k with
  | zero => exact s.stackByte_zero
  | succ k ih =>
    have hprev := ih (Nat.lt_of_succ_lt hk)
    have hlow : 0x60 ≤ s.stackByte k := ((s.inSram_iff _).1 (h k (Nat.lt_of_succ_lt hk))).1
    have hsp := s.sp.isLt
    rw [State.stackByte, BitVec.toNat_sub, BitVec.toNat_ofNat]
    omega

theorem StackRoom.ne_of_lt {s : State} {d a k : Nat} (h : StackRoom s d) (hk : k < d) (ha : a < 0x60) :
    a ≠ s.stackByte k := by
  obtain ⟨hlow, -⟩ := h.stackByte_add hk
  omega

theorem StackRoom.stackByte_ne {s : State} {d j k : Nat} (h : StackRoom s d) (hj : j < k) (hk : k < d) :
    s.stackByte k ≠ s.stackByte j := by
  obtain ⟨-, hk'⟩ := h.stackByte_add hk
  obtain ⟨-, hj'⟩ := h.stackByte_add (hj.trans hk)
  omega

/-! ### Nestings -/

theorem execAll_cons {i : Instr} {s t : State} (h : exec i s = .next t) (is : List Instr) :
    execAll (i :: is) s = execAll is t := by rw [execAll, h]

/-- What a run of pairs one after another pushed last is what the later ones did, or else the first. -/
theorem nesting_lastPushed_pair (r : Reg) (inner rest : Nesting) (k : Nat) :
    (Nesting.pair r inner rest).lastPushed k =
      (rest.lastPushed k).or ((Nesting.pair r inner .empty).lastPushed k) := by
  cases k with
  | zero =>
    rw [nesting_lastPushed_zero, nesting_lastPushed_zero]
    cases rest.lastPushed 0 <;> rfl
  | succ j =>
    rw [nesting_lastPushed_succ, nesting_lastPushed_succ]
    rfl

/-- A nesting stores in each byte of its depth, and in no other. -/
theorem nesting_lastPushed_eq_none_iff (n : Nesting) (k : Nat) : n.lastPushed k = none ↔ n.depth ≤ k := by
  induction n generalizing k with
  | empty => exact iff_of_true rfl (Nat.zero_le k)
  | pair r inner rest ihInner ihRest =>
    rw [nesting_depth_pair]
    cases k with
    | zero =>
      rw [nesting_lastPushed_zero]
      simp
    | succ j =>
      rw [nesting_lastPushed_succ, Option.or_eq_none_iff, ihInner, ihRest]
      omega

theorem lt_depth_of_lastPushed {n : Nesting} {k : Nat} {r : Reg} (h : n.lastPushed k = some r) : k < n.depth := by
  rw [← Nat.not_le, ← nesting_lastPushed_eq_none_iff, h]
  nofun

theorem nesting_depth_enclose (r : Reg) (inner : Nesting) : (Nesting.pair r inner .empty).depth = inner.depth + 1 :=
  Nat.max_zero _

/-- From `s`, the nesting has run to `t` and given everything back: every DataSpace byte is as before but the stack
bytes of its depth, each of which holds what was last pushed there (42_control_flow.md R214). -/
structure Balanced (n : Nesting) (s t : State) : Prop where
  cfg : t.cfg = s.cfg
  fault : t.fault = s.fault
  stack : ∀ k r, n.lastPushed k = some r → t.byteAt (s.stackByte k) = s.reg r
  others : ∀ a, (∀ k : Nat, k < n.depth → a ≠ s.stackByte k) → t.byteAt a = s.byteAt a

/-- The registers and SP lie below SRAM. -/
theorem Balanced.byteAt_of_lt {n : Nesting} {s t : State} (h : Balanced n s t) (room : StackRoom s n.depth) {a : Nat}
    (ha : a < 0x60) : t.byteAt a = s.byteAt a :=
  h.others a fun _ hk => room.ne_of_lt hk ha

theorem Balanced.sp {n : Nesting} {s t : State} (h : Balanced n s t) (room : StackRoom s n.depth) : t.sp = s.sp := by
  rw [State.sp, h.byteAt_of_lt room (by decide), h.byteAt_of_lt room (by decide), State.sp]

theorem Balanced.reg {n : Nesting} {s t : State} (h : Balanced n s t) (room : StackRoom s n.depth) (r : Reg) :
    t.reg r = s.reg r :=
  h.byteAt_of_lt room (Nat.lt_trans r.isLt (by decide))

theorem balanced_empty (s : State) : Balanced .empty s s :=
  ⟨rfl, rfl, fun _ _ => nofun, fun _ _ => rfl⟩

theorem State.byteAt_splAddr (s : State) : s.byteAt splAddr = lowByte s.sp := (lowByte_joinBytes ..).symm

theorem State.byteAt_sphAddr (s : State) : s.byteAt sphAddr = highByte s.sp := (highByte_joinBytes ..).symm

/-- Between PUSH r and POP r a nesting leaves the byte pushed alone. -/
theorem Balanced.byteAt_pushed {r : Reg} {inner : Nesting} {s t : State} (h : Balanced inner (s.pushed r) t)
    (room : StackRoom s (inner.depth + 1)) : t.byteAt s.sp.toNat = s.reg r := by
  have hfree (k : Nat) (hk : k < inner.depth) : s.sp.toNat ≠ (s.pushed r).stackByte k := by
    rw [State.stackByte_pushed, ← s.stackByte_zero]
    exact (room.stackByte_ne (Nat.succ_pos k) (Nat.succ_lt_succ hk)).symm
  rw [h.others _ hfree, State.pushed_byteAt_sp room.inSram_sp]

/-- PUSH r, a nesting and POP r are balanced: the pop gives r and SP back. -/
theorem Balanced.enclose {r : Reg} {inner : Nesting} {s t : State} (h : Balanced inner (s.pushed r) t)
    (room : StackRoom s (inner.depth + 1)) : Balanced (.pair r inner .empty) s (t.popped r) := by
  have hpush := s.pushed_frame r
  have hpop := t.popped_frame r
  have hpushed := h.byteAt_pushed room
  have hsp : t.sp + 1 = s.sp := by rw [h.sp (room.pushed r), State.pushed_sp, sub_add_cancel]
  have hhigh (k : Nat) (hk : k < inner.depth + 1) : (t.popped r).byteAt (s.stackByte k) = t.byteAt (s.stackByte k) := by
    obtain ⟨hlow, -⟩ := room.stackByte_add hk
    exact t.popped_byteAt_of_le r hlow
  refine ⟨hpop.host.cfg.trans (h.cfg.trans hpush.host.cfg), hpop.fault.trans (h.fault.trans hpush.fault), ?stack,
    ?others⟩
  case stack =>
    intro k q hq
    cases k with
    | zero =>
      obtain rfl : r = q := by simpa [nesting_lastPushed_zero, Nesting.lastPushed] using hq
      rw [hhigh 0 (Nat.succ_pos _), s.stackByte_zero, hpushed]
    | succ j =>
      have hj : inner.lastPushed j = some q := by simpa [nesting_lastPushed_succ, Nesting.lastPushed] using hq
      have hlt := lt_depth_of_lastPushed hj
      rw [hhigh _ (Nat.succ_lt_succ hlt), ← State.stackByte_pushed s r, h.stack j q hj,
        State.pushed_reg room.inSram_sp]
  case others =>
    intro a ha
    rw [nesting_depth_enclose] at ha
    by_cases hlisted : a ∈ [r.toNat, splAddr, sphAddr]
    · simp only [List.mem_cons, List.not_mem_nil, or_false] at hlisted
      obtain rfl | rfl | rfl := hlisted
      · change (t.popped r).reg r = _
        rw [State.popped_reg, hsp, hpushed, State.reg]
      · rw [State.byteAt_splAddr, State.popped_sp, hsp, State.byteAt_splAddr]
      · rw [State.byteAt_sphAddr, State.popped_sp, hsp, State.byteAt_sphAddr]
    · have ha0 : a ≠ s.sp.toNat := s.stackByte_zero ▸ ha 0 (Nat.succ_pos _)
      have hsucc (k : Nat) (hk : k < inner.depth) : a ≠ (s.pushed r).stackByte k := by
        rw [State.stackByte_pushed]
        exact ha (k + 1) (Nat.succ_lt_succ hk)
      have hfree : a ∉ [s.sp.toNat, splAddr, sphAddr] :=
        List.not_mem_cons_of_ne_of_not_mem ha0 (List.not_mem_of_not_mem_cons hlisted)
      rw [hpop.bytes a hlisted, h.others a hsucc, hpush.bytes a hfree]

/-- Balanced runs one after another: the later one's stores prevail. -/
theorem Balanced.append {r : Reg} {inner rest : Nesting} {s t u : State} (h : Balanced (.pair r inner .empty) s t)
    (h' : Balanced rest t u) (room : StackRoom s (Nesting.pair r inner rest).depth) :
    Balanced (.pair r inner rest) s u := by
  have hfirstLe : (Nesting.pair r inner .empty).depth ≤ (Nesting.pair r inner rest).depth :=
    nesting_depth_enclose r inner ▸ Nat.le_max_left ..
  have hrestLe : rest.depth ≤ (Nesting.pair r inner rest).depth := Nat.le_max_right ..
  have hbyte (k : Nat) : t.stackByte k = s.stackByte k := by
    rw [State.stackByte, h.sp (room.mono hfirstLe), State.stackByte]
  refine ⟨h'.cfg.trans h.cfg, h'.fault.trans h.fault, ?stack, ?others⟩
  case stack =>
    intro k q hq
    rw [nesting_lastPushed_pair] at hq
    cases hk : rest.lastPushed k with
    | some q' =>
      obtain rfl : q' = q := by simpa [hk] using hq
      rw [← hbyte, h'.stack k q' hk, h.reg (room.mono hfirstLe)]
    | none =>
      have hfirst : (Nesting.pair r inner .empty).lastPushed k = some q := by simpa [hk] using hq
      have hfree (j : Nat) (hj : j < rest.depth) : s.stackByte k ≠ t.stackByte j := by
        rw [hbyte]
        exact room.stackByte_ne (hj.trans_le ((nesting_lastPushed_eq_none_iff rest k).1 hk))
          ((lt_depth_of_lastPushed hfirst).trans_le hfirstLe)
      rw [h'.others _ hfree, h.stack k q hfirst]
  case others =>
    intro a ha
    rw [h'.others a fun k hk => hbyte k ▸ ha k (hk.trans_le hrestLe),
      h.others a fun k hk => ha k (hk.trans_le hfirstLe)]

/-- Every nesting with room on the stack runs to its end, and balances. -/
theorem execAll_nesting (n : Nesting) {s : State} (room : StackRoom s n.depth) :
    ∃ t, execAll n.code s = .next t ∧ Balanced n s t := by
  induction n generalizing s with
  | empty => exact ⟨s, rfl, balanced_empty s⟩
  | pair r inner rest ihInner ihRest =>
    have hroom : StackRoom s (inner.depth + 1) := room.mono (Nat.le_max_left ..)
    obtain ⟨t, ht, hinner⟩ := ihInner (hroom.pushed r)
    have hpop : t.inSram (t.sp + 1) = true := by
      rw [hinner.sp (hroom.pushed r), State.pushed_sp, sub_add_cancel,
        State.inSram_congr (hinner.cfg.trans (s.pushed_frame r).host.cfg)]
      exact hroom.inSram_sp
    have hpair := hinner.enclose hroom
    have hsp := hpair.sp (nesting_depth_enclose r inner ▸ hroom)
    obtain ⟨u, hu, hrest⟩ := ihRest ((room.mono (Nat.le_max_right ..)).congr hpair.cfg hsp)
    refine ⟨u, ?_, hpair.append hrest room⟩
    calc execAll (Nesting.pair r inner rest).code s
      _ = execAll (inner.code ++ Instr.pop r :: rest.code) (s.pushed r) := execAll_cons (exec_push hroom.inSram_sp r) _
      _ = execAll (Instr.pop r :: rest.code) t := execAll_append _ _ _ _ ht
      _ = execAll rest.code (t.popped r) := execAll_cons (exec_pop hpop r) _
      _ = .next u := hu

/-! ### One block of pushes is a nesting -/

/-- PUSH each register in turn, then POP them in the reverse order. -/
def blockNesting (rs : List Reg) : Nesting :=
  match rs with
  | [] => .empty
  | r :: rest => .pair r (blockNesting rest) .empty

theorem blockNesting_code (rs : List Reg) :
    (blockNesting rs).code = rs.map Instr.push ++ rs.reverse.map Instr.pop := by
  induction rs with
  | nil => rfl
  | cons r rest ih =>
    rw [blockNesting, nesting_code_pair, ih]
    simp [Nesting.code]

theorem blockNesting_depth (rs : List Reg) : (blockNesting rs).depth = rs.length := by
  induction rs with
  | nil => rfl
  | cons r rest ih => rw [blockNesting, nesting_depth_enclose, ih, List.length_cons]

theorem blockNesting_lastPushed (rs : List Reg) (k : Nat) : (blockNesting rs).lastPushed k = rs[k]? := by
  induction rs generalizing k with
  | nil => rfl
  | cons r rest ih =>
    cases k with
    | zero => exact nesting_lastPushed_zero ..
    | succ j => exact (nesting_lastPushed_succ ..).trans (ih j)

end Sys2Proof.Machine

namespace Sys2Proof.Proofs

open Sys2Proof.Machine Sys2Proof.Safety

/-- Settles O30: the relative target as a number. -/
theorem rjmpAddsItsDisplacement : Obligations.RjmpAddsItsDisplacement :=
  fun s k => ⟨hasRow rfl, _, rfl, relTarget_toNat s k, s.setPc_frame _⟩

/-- Settles O31: JMP only sets the pc, and its first word is a two-word one. -/
theorem jmpGoesToItsTarget : Obligations.JmpGoesToItsTarget := by
  refine ⟨fun s k => ⟨hasRow rfl, _, rfl, rfl, s.setPc_frame k⟩, secondWordTraps_of_twoWord fun op h => ?_⟩
  exact twoWord_of_rowMatches (w2 := 0) (i := .jmp (fieldK22 op 0)) (by simp [rowInstrs]) ((rowMatches_iff ..).2 h) rfl

/-- Settles O32: the frame's three bytes are apart from each other and from SP, and the first outside SRAM faults. -/
theorem callPushesItsReturnAddress : Obligations.CallPushesItsReturnAddress := by
  refine ⟨fun s k => ⟨hasRow rfl, fun h0 h1 h2 => ?frame, fun h0 => ?low, fun h0 h1 => ?middle, fun h0 h1 h2 => ?high⟩,
    secondWordTraps_of_twoWord fun op h => ?second⟩
  case frame =>
    refine ⟨_, exec_call h0 h1 h2 k, rfl, s.called_sp k, ?_, ?_, ?_, s.called_frame k⟩
    · rw [State.called_byteAt, s.framed_byteAt_low _ h0]
    · rw [State.called_byteAt, s.framed_byteAt_middle _ h1]
    · rw [State.called_byteAt, s.framed_byteAt_high _ h2]
  case low => exact traps_of_finish rfl (by rw [State.callTo_eq, if_neg (Bool.eq_false_iff.1 h0)])
  case middle => exact traps_of_finish rfl (by rw [State.callTo_eq, if_pos h0, if_neg (Bool.eq_false_iff.1 h1)])
  case high =>
    exact traps_of_finish rfl (by rw [State.callTo_eq, if_pos h0, if_pos h1, if_neg (Bool.eq_false_iff.1 h2)])
  case second =>
    exact twoWord_of_rowMatches (w2 := 0) (i := .call (fieldK22 op 0)) (by simp [rowInstrs])
      ((rowMatches_iff ..).2 h) rfl

/-- Settles O33: the popped address is the three bytes' value, and the first byte outside SRAM faults. -/
theorem retPopsItsReturnAddress : Obligations.RetPopsItsReturnAddress := by
  refine fun s => ⟨hasRow rfl, fun h1 h2 h3 => ?frame, fun h1 => ?high, fun h1 h2 => ?middle, fun h1 h2 h3 => ?low⟩
  case frame => exact ⟨_, exec_ret h1 h2 h3, s.returned_pc_toNat, s.returned_sp, s.returned_frame⟩
  case high => exact traps_of_finish rfl (by rw [State.returnFrom_eq, if_neg (Bool.eq_false_iff.1 h1)])
  case middle => exact traps_of_finish rfl (by rw [State.returnFrom_eq, if_pos h1, if_neg (Bool.eq_false_iff.1 h2)])
  case low =>
    exact traps_of_finish rfl (by rw [State.returnFrom_eq, if_pos h1, if_pos h2, if_neg (Bool.eq_false_iff.1 h3)])

/-- Settles O34: the three cases of CPSE's test and of the fetch behind it. -/
theorem cpseSkipsWhenEqual : Obligations.CpseSkipsWhenEqual := by
  refine fun s d r => ⟨hasRow rfl, fun hne => ?unequal, fun heq hin => ?skipped, fun heq hout => ?outside⟩
  case unequal =>
    exact completes_of_finish (t := s.advance 1) rfl (by rw [State.skipIfEqual_eq, if_neg hne])
      ⟨rfl, s.setPc_frame _⟩
  case skipped =>
    exact completes_of_finish rfl (by rw [State.skipIfEqual_eq, if_pos heq, if_pos hin])
      ⟨add_one_skipWords .., s.setPc_frame _⟩
  case outside =>
    exact traps_of_finish rfl (by rw [State.skipIfEqual_eq, if_pos heq, if_neg (Nat.not_lt.2 hout)])

/-- Settles O36: BRBS and BRBC share one branch, on the bit and on its complement. -/
theorem conditionalBranchesTestOneBit : Obligations.ConditionalBranchesTestOneBit := by
  refine fun s b k => ⟨hasRow rfl, hasRow rfl, ⟨_, rfl, s.branchIf_frame _ k, ?_⟩, ⟨_, rfl, s.branchIf_frame _ k, ?_⟩⟩
  · rw [State.sregBit]
    cases s.sreg.getLsbD b.toNat with
    | true => exact relTarget_toNat s k
    | false => rfl
  · rw [State.sregBit]
    cases s.sreg.getLsbD b.toNat with
    | true => rfl
    | false => exact relTarget_toNat s k

/-- Settles O37, by the state PUSH leaves. -/
theorem pushStoresThenDecrements : Obligations.PushStoresThenDecrements := by
  refine fun s r => ⟨hasRow rfl, fun h => ?inside, fun h => ?outside⟩
  case inside => exact ⟨_, exec_push h r, State.pushed_byteAt_sp h r, s.pushed_sp r, rfl, s.pushed_frame r⟩
  case outside => exact traps_of_finish rfl (by rw [State.pushByte_eq, if_neg (Bool.eq_false_iff.1 h)])

/-- Settles O38, by the state POP leaves. -/
theorem popReadsAboveSp : Obligations.PopReadsAboveSp := by
  refine fun s d => ⟨hasRow rfl, fun h => ?inside, fun h => ?outside⟩
  case inside => exact ⟨_, exec_pop h d, s.popped_reg d, s.popped_sp d, rfl, s.popped_frame d⟩
  case outside => exact traps_of_finish rfl (by rw [State.popByte_eq, if_neg (Bool.eq_false_iff.1 h)])

/-- Settles O58, by induction on the nesting: what is enclosed by a pair leaves the pair's byte alone, and so does every
nesting all bytes but its own. -/
theorem anyNestingOfPushPopPairsRestores : Obligations.AnyNestingOfPushPopPairsRestores := by
  intro s n room
  obtain ⟨t, ht, hbal⟩ := execAll_nesting n room
  exact ⟨t, ht, hbal.fault, hbal.sp room, hbal.reg room, hbal.stack, hbal.others⟩

/-- Settles O39: a block of pushes and pops is a nesting. -/
theorem nestedPushPopRestores : Obligations.NestedPushPopRestores := by
  intro s rs room
  rw [← blockNesting_depth] at room
  obtain ⟨t, ht, hbal⟩ := execAll_nesting (blockNesting rs) room
  refine ⟨t, blockNesting_code rs ▸ ht, hbal.fault, hbal.sp room, hbal.reg room, fun k hk => ?_, fun a ha => ?_⟩
  · exact hbal.stack k _ (by rw [blockNesting_lastPushed, List.getElem?_eq_getElem hk])
  · exact hbal.others a (blockNesting_depth rs ▸ ha)

/-- Settles O40: RET reads back the three digits in base 256 that CALL wrote. -/
theorem callThenRetReturns : Obligations.CallThenRetReturns := by
  intro s k h0 h1 h2
  obtain ⟨hcalls, -⟩ := callPushesItsReturnAddress
  obtain ⟨-, hcompletes, -⟩ := hcalls s k
  obtain ⟨t, ht, -, htsp, hlow, hmiddle, hhigh, hframe⟩ := hcompletes h0 h1 h2
  refine ⟨t, ht, fun u hcfg husp ulow umiddle uhigh => ?_⟩
  have hsp : u.sp = s.sp - 3 := husp.trans htsp
  have hsp1 : u.sp + 1 = s.sp - 2 := by rw [hsp]; bv_omega
  have hsp2 : u.sp + 2 = s.sp - 1 := by rw [hsp]; bv_omega
  have hsp3 : u.sp + 3 = s.sp := by rw [hsp]; bv_omega
  have hsram := State.inSram_congr (hcfg.trans hframe.host.cfg)
  obtain ⟨-, hret, -⟩ := retPopsItsReturnAddress u
  rw [hsp1, hsp2, hsp3, hsram, hsram, hsram, ulow, umiddle, uhigh, hlow, hmiddle, hhigh] at hret
  obtain ⟨v, hv, hpc, hvsp, -⟩ := hret h2 h1 h0
  refine ⟨v, hv, BitVec.eq_of_toNat_eq ?_, hvsp⟩
  have hra := (s.pc + 2).isLt
  omega

end Sys2Proof.Proofs
end

section
/-!
PROOFS. The load, store and I/O family (43_load_store_io.md): frames carried through the updates an instruction is made
of, then the states a load, a store and a program-memory read leave in each addressing mode, with and without the
overlaps of R244.
-/

namespace Sys2Proof.Machine

open Sys2Proof.Safety

/-! ### Frames, update by update -/

theorem frame_refl (s : State) (w : List Nat) : Frame s s w :=
  frame_of (fun _ _ => rfl) rfl rfl rfl rfl rfl rfl rfl rfl

section FrameUpdates

variable {s t : State} {w : List Nat} (h : Frame s t w)

include h

theorem frame_mono {x : List Nat} (hw : w ⊆ x) : Frame s t x :=
  frame_trans h (frame_refl t w) hw hw

theorem frame_advance (n : PcWord) : Frame s (t.advance n) w :=
  frame_trans h (t.setPc_frame _) (List.Subset.refl w) (List.nil_subset w)

theorem frame_tick (n : Nat) : Frame s (t.tick n) w :=
  frame_of h.bytes h.host.cfg h.host.flash h.host.loads h.host.breakpoints h.host.delayedCycles h.fault h.instrCount
    h.callStack

theorem frame_putByte {a : Nat} (ha : a ∈ w) (v : Byte) : Frame s (t.putByte a v) w :=
  frame_of (fun b hb => (t.putByte_byteAt_ne v (ne_of_mem_of_not_mem ha hb).symm).trans (h.bytes b hb)) h.host.cfg
    h.host.flash h.host.loads h.host.breakpoints h.host.delayedCycles h.fault h.instrCount h.callStack

theorem frame_setReg {d : Reg} (hd : d.toNat ∈ w) (v : Byte) : Frame s (t.setReg d v) w := frame_putByte h hd v

theorem frame_setPtr {p : Ptr} (hp : ptrAddrs p ⊆ w) (v : Word) : Frame s (t.setPtr p v) w := by
  rw [ptrAddrs_eq] at hp
  exact frame_setReg (frame_setReg h (hp (by simp)) _) (hp (by simp)) _

theorem frame_drawPtr {p : Ptr} (hp : ptrAddrs p ⊆ w) : Frame s (t.drawPtr p) w := by
  rw [ptrAddrs_eq] at hp
  exact frame_tick (frame_setReg (frame_setReg h (hp (by simp)) _) (hp (by simp)) _) 2

theorem frame_setRampzZ (hz : ptrAddrs .z ⊆ w) (hr : rampzAddr ∈ w) (v : BitVec 24) : Frame s (t.setRampzZ v) w :=
  frame_setPtr (frame_putByte h hr _) hz _

theorem frame_drawRampzZ (hz : ptrAddrs .z ⊆ w) (hr : rampzAddr ∈ w) : Frame s t.drawRampzZ w :=
  frame_tick (frame_putByte (frame_drawPtr h hz) hr _) 1

end FrameUpdates

/-! ### A byte written, a pointer drawn, a byte and a pointer written -/

theorem State.putByte_advance_frame (s : State) (a : Nat) (v : Byte) (n : PcWord) :
    Frame s ((s.putByte a v).advance n) [a] :=
  frame_advance (frame_putByte (frame_refl s _) List.mem_cons_self v) n

theorem State.setReg_advance_frame (s : State) (d : Reg) (v : Byte) (n : PcWord) :
    Frame s ((s.setReg d v).advance n) [d.toNat] := s.putByte_advance_frame ..

theorem State.setReg_advance_reg (s : State) (d : Reg) (v : Byte) (n : PcWord) :
    ((s.setReg d v).advance n).reg d = v := s.putByte_byteAt_same ..

theorem State.drawPtr_advance_frame (s : State) (p : Ptr) : Frame s ((s.drawPtr p).advance 1) (ptrAddrs p) :=
  frame_advance (frame_drawPtr (frame_refl s _) (List.Subset.refl _)) 1

/-- A pointer's write-back leaves every byte but its own two alone. -/
theorem State.setPtr_byteAt_of_notMem (s : State) {p : Ptr} (v : Word) {a : Nat} (ha : a ∉ ptrAddrs p) :
    (s.setPtr p v).byteAt a = s.byteAt a :=
  (frame_setPtr (frame_refl s _) (List.Subset.refl _) v).bytes a ha

/-- The end of an access that writes the pointer back (43_load_store_io.md R243): the byte `b` at `a`, in a register or
in memory, and `v` in the pointer. -/
def WrittenBack (a : Nat) (b : Byte) (p : Ptr) (v : Word) (s t : State) : Prop :=
  t.byteAt a = b ∧ t.ptr p = v ∧ t.pc = s.pc + 1 ∧ Frame s t (a :: ptrAddrs p)

theorem State.putByte_setPtr_writtenBack {s t : State} (ht : Frame s t []) (hpc : t.pc = s.pc) {a : Nat} {p : Ptr}
    (ha : a ∉ ptrAddrs p) (b : Byte) (v : Word) :
    WrittenBack a b p v s (((t.putByte a b).setPtr p v).advance 1) := by
  refine ⟨?byte, State.setPtr_ptr .., congrArg (· + 1) hpc, ?frame⟩
  case byte => rw [State.advance_byteAt, State.setPtr_byteAt_of_notMem _ _ ha, State.putByte_byteAt_same]
  case frame =>
    have hbyte := frame_putByte (frame_mono ht (List.nil_subset (a :: ptrAddrs p))) List.mem_cons_self b
    exact frame_advance (frame_setPtr hbyte (List.subset_cons_self ..) v) 1

theorem State.setReg_setPtr_writtenBack (s : State) {d : Reg} {p : Ptr} (hd : d.toNat ∉ ptrAddrs p) (b : Byte)
    (v : Word) : WrittenBack d.toNat b p v s (((s.setReg d b).setPtr p v).advance 1) :=
  State.putByte_setPtr_writtenBack (frame_refl s _) rfl hd b v

/-! ### The nine LD forms -/

theorem hasRow_ldForm (p : Ptr) (m : PtrMode) (d : Reg) : HasRow (ldForm p m d) 0xFE0F (ldPattern p m) 1 := by
  cases p <;> cases m <;> exact hasRow rfl

section LoadForms

variable {s : State} {p : Ptr} {m : PtrMode} {d : Reg}

theorem completes_ldForm {P : State → Prop} (hea : (effAddr m (s.ptr p)).toNat < s.cfg.dsSize)
    (hp : P (s.loaded p m d)) : Completes (ldForm p m d) s P :=
  completes_of_finish (exec_ldForm s p m d) (by rw [State.loadIndirect_eq, if_pos hea]) hp

theorem traps_ldForm (hea : s.cfg.dsSize ≤ (effAddr m (s.ptr p)).toNat) :
    Traps (ldForm p m d) s .dataRange (effAddr m (s.ptr p)).toNat :=
  traps_of_finish (exec_ldForm s p m d) (by rw [State.loadIndirect_eq, if_neg (Nat.not_lt.2 hea)])

theorem completes_ldForm_writesBack (hm : writesBack m = true) (hd : d.toNat ∉ ptrAddrs p)
    (hea : (effAddr m (s.ptr p)).toNat < s.cfg.dsSize) :
    Completes (ldForm p m d) s
      (WrittenBack d.toNat (s.byteAt (effAddr m (s.ptr p)).toNat) p (nextPtr m (s.ptr p)) s) := by
  refine completes_ldForm hea ?_
  rw [State.loaded, if_pos hm, if_neg (mt (ptrHas_iff p d).1 hd)]
  exact s.setReg_setPtr_writtenBack hd _ _

/-- With Rd of the pointer (43_load_store_io.md R244). -/
theorem completes_ldForm_overlap (hm : writesBack m = true) (hd : d.toNat ∈ ptrAddrs p)
    (hea : (effAddr m (s.ptr p)).toNat < s.cfg.dsSize) :
    Completes (ldForm p m d) s fun t => t.pc = s.pc + 1 ∧ Frame s t (ptrAddrs p) := by
  refine completes_ldForm hea ⟨State.loaded_pc .., ?_⟩
  rw [State.loaded, if_pos hm, if_pos ((ptrHas_iff p d).2 hd)]
  exact s.drawPtr_advance_frame p

end LoadForms

/-! ### The nine ST forms -/

theorem hasRow_stForm (p : Ptr) (m : PtrMode) (r : Reg) : HasRow (stForm p m r) 0xFE0F (stPattern p m) 1 := by
  cases p <;> cases m <;> exact hasRow rfl

theorem writesBack_of_ne_plain {m : PtrMode} (h : m ≠ .plain) : writesBack m = true := by
  cases m with
  | plain => exact absurd rfl h
  | postInc | preDec => rfl

section StoreForms

variable {s : State} {p : Ptr} {m : PtrMode} {r : Reg}

theorem completes_stForm {P : State → Prop} (hea : (effAddr m (s.ptr p)).toNat < s.cfg.dsSize)
    (hp : P (s.stored p m r)) : Completes (stForm p m r) s P :=
  completes_of_finish (exec_stForm s p m r) (by rw [State.storeIndirect_eq, if_pos hea]) hp

theorem traps_stForm (hea : s.cfg.dsSize ≤ (effAddr m (s.ptr p)).toNat) :
    Traps (stForm p m r) s .dataRange (effAddr m (s.ptr p)).toNat :=
  traps_of_finish (exec_stForm s p m r) (by rw [State.storeIndirect_eq, if_neg (Nat.not_lt.2 hea)])

theorem storedByte_frame (w : List Nat) : Frame s (s.storedByte p m r).2 w := by
  rw [State.storedByte]
  split_ifs
  · exact frame_tick (frame_refl s w) 1
  · exact frame_refl s w

theorem storedByte_of_notMem (hr : r.toNat ∉ ptrAddrs p) : (s.storedByte p m r).1 = s.reg r := by
  rw [State.storedByte, if_neg fun h => hr ((ptrHas_iff p r).1 (Bool.and_elim_right h))]

/-- With EA not of the pointer, whatever the byte stored (43_load_store_io.md R243, R244). -/
theorem completes_stForm_writesBack (hm : writesBack m = true) (ha : (effAddr m (s.ptr p)).toNat ∉ ptrAddrs p)
    (hea : (effAddr m (s.ptr p)).toNat < s.cfg.dsSize) :
    Completes (stForm p m r) s
      (WrittenBack (effAddr m (s.ptr p)).toNat (s.storedByte p m r).1 p (nextPtr m (s.ptr p)) s) := by
  refine completes_stForm hea ?_
  rw [State.stored, if_pos hm, if_neg (mt (ptrHasAddr_iff p _).1 ha)]
  exact State.putByte_setPtr_writtenBack (storedByte_frame _) (State.storedByte_pc ..) ha _ _

/-- With EA of the pointer (43_load_store_io.md R244). -/
theorem completes_stForm_overlap (hm : writesBack m = true) (ha : (effAddr m (s.ptr p)).toNat ∈ ptrAddrs p)
    (hea : (effAddr m (s.ptr p)).toNat < s.cfg.dsSize) :
    Completes (stForm p m r) s fun t => t.pc = s.pc + 1 ∧ Frame s t (ptrAddrs p) := by
  refine completes_stForm hea ⟨State.stored_pc .., ?_⟩
  rw [State.stored, if_pos hm, if_pos ((ptrHasAddr_iff p _).2 ha)]
  exact frame_advance (frame_drawPtr (frame_putByte (storedByte_frame _) ha _) (List.Subset.refl _)) 1

end StoreForms

/-! ### Program memory -/

/-- The registers of Z by name (10_state.md R33). -/
theorem mem_ptrAddrs_z_iff (d : Reg) : d.toNat ∈ ptrAddrs .z ↔ d = 30 ∨ d = 31 := by
  rw [← ptrHas_iff, ptrHas, Bool.or_eq_true, beq_iff_eq, beq_iff_eq]
  rfl

/-- RAMPZ:Z reads back as written (43_load_store_io.md R266). -/
theorem State.setRampzZ_rampzZ (s : State) (v : BitVec 24) : (s.setRampzZ v).rampzZ = v := by
  have hptr : (s.setRampzZ v).ptr .z = v.extractLsb' 0 16 := State.setPtr_ptr ..
  have hrampz : (s.setRampzZ v).rampz = v.extractLsb' 16 8 := by
    rw [State.rampz, State.setRampzZ_byteAt]
    rfl
  rw [State.rampzZ, hptr, hrampz]
  exact (BitVec.extractLsb'_append_extractLsb'_eq_extractLsb' rfl).trans BitVec.extractLsb'_eq_self

section ProgramMemory

variable {s : State} {d : Reg}

theorem loadProgram_plain (h : (s.ptr .z).toNat < 2 * s.cfg.flashWords) :
    s.loadProgram false d = .ok ((s.setReg d (Memory.readFlash s.flash s.loads (s.ptr .z).toNat)).advance 1) := by
  rw [State.loadProgram_eq, if_pos h, if_neg Bool.false_ne_true]

theorem loadProgram_writesBack (h : (s.ptr .z).toNat < 2 * s.cfg.flashWords) (hd : d.toNat ∉ ptrAddrs .z) :
    s.loadProgram true d =
      .ok (((s.setReg d (Memory.readFlash s.flash s.loads (s.ptr .z).toNat)).setPtr .z (s.ptr .z + 1)).advance 1) := by
  rw [State.loadProgram_eq, if_pos h, if_pos rfl, if_neg (mt (ptrHas_iff .z d).1 hd)]

theorem loadProgram_overlap (h : (s.ptr .z).toNat < 2 * s.cfg.flashWords) (hd : d.toNat ∈ ptrAddrs .z) :
    s.loadProgram true d = .ok ((s.drawPtr .z).advance 1) := by
  rw [State.loadProgram_eq, if_pos h, if_pos rfl, if_pos ((ptrHas_iff .z d).2 hd)]

theorem loadProgram_outside (h : 2 * s.cfg.flashWords ≤ (s.ptr .z).toNat) (inc : Bool) :
    s.loadProgram inc d = .error { kind := .flashRange, info := (s.ptr .z).toNat } := by
  rw [State.loadProgram_eq, if_neg (Nat.not_lt.2 h)]

theorem loadProgramExt_plain (h : s.rampzZ.toNat < 2 * s.cfg.flashWords) :
    s.loadProgramExt false d = .ok ((s.setReg d (Memory.readFlash s.flash s.loads s.rampzZ.toNat)).advance 1) := by
  rw [State.loadProgramExt_eq, if_pos h, if_neg Bool.false_ne_true]

theorem loadProgramExt_writesBack (h : s.rampzZ.toNat < 2 * s.cfg.flashWords) (hd : d.toNat ∉ ptrAddrs .z) :
    s.loadProgramExt true d =
      .ok (((s.setReg d (Memory.readFlash s.flash s.loads s.rampzZ.toNat)).setRampzZ (s.rampzZ + 1)).advance 1) := by
  rw [State.loadProgramExt_eq, if_pos h, if_pos rfl, if_neg (mt (ptrHas_iff .z d).1 hd)]

theorem loadProgramExt_overlap (h : s.rampzZ.toNat < 2 * s.cfg.flashWords) (hd : d.toNat ∈ ptrAddrs .z) :
    s.loadProgramExt true d = .ok (s.drawRampzZ.advance 1) := by
  rw [State.loadProgramExt_eq, if_pos h, if_pos rfl, if_pos ((ptrHas_iff .z d).2 hd)]

theorem loadProgramExt_outside (h : 2 * s.cfg.flashWords ≤ s.rampzZ.toNat) (inc : Bool) :
    s.loadProgramExt inc d = .error { kind := .flashRange, info := s.rampzZ.toNat } := by
  rw [State.loadProgramExt_eq, if_neg (Nat.not_lt.2 h)]

end ProgramMemory

/-- ELPM's write-back leaves every byte but Z's two and RAMPZ alone. -/
theorem State.setRampzZ_byteAt_of_notMem (s : State) (v : BitVec 24) {a : Nat} (ha : a ∉ [30, 31, rampzAddr]) :
    (s.setRampzZ v).byteAt a = s.byteAt a :=
  (frame_setRampzZ (frame_refl s _) (List.subset_append_left [30, 31] [rampzAddr]) (by simp) v).bytes a ha

theorem State.setReg_setRampzZ_reg (s : State) {d : Reg} (hd : d.toNat ∉ ptrAddrs .z) (b : Byte) (v : BitVec 24) :
    (((s.setReg d b).setRampzZ v).advance 1).reg d = b := by
  have hlt := d.isLt
  have hfree : d.toNat ∉ [30, 31, rampzAddr] := by
    simp only [ptrAddrs, rampzAddr, List.mem_cons, List.not_mem_nil, or_false] at hd ⊢
    omega
  exact ((s.setReg d b).setRampzZ_byteAt_of_notMem v hfree).trans (s.putByte_byteAt_same ..)

theorem State.setReg_setRampzZ_frame (s : State) (d : Reg) (b : Byte) (v : BitVec 24) :
    Frame s (((s.setReg d b).setRampzZ v).advance 1) [d.toNat, 30, 31, rampzAddr] := by
  have hz : ptrAddrs .z ⊆ [d.toNat, 30, 31, rampzAddr] :=
    List.subset_cons_of_subset _ (List.subset_append_left [30, 31] [rampzAddr])
  exact frame_advance (frame_setRampzZ (frame_setReg (frame_refl s _) List.mem_cons_self b) hz (by simp) v) 1

theorem State.drawRampzZ_advance_frame (s : State) : Frame s (s.drawRampzZ.advance 1) [30, 31, rampzAddr] :=
  frame_advance (frame_drawRampzZ (frame_refl s _) (List.subset_append_left [30, 31] [rampzAddr]) (by simp)) 1

end Sys2Proof.Machine

namespace Sys2Proof.Proofs

open Sys2Proof.Machine Sys2Proof.Safety

/-- Settles O41: LDI writes one register and moves on. -/
theorem ldiLoadsItsImmediate : Obligations.LdiLoadsItsImmediate :=
  fun s d k => ⟨fun h => hasRow h, _, rfl, s.setReg_advance_reg d k 1, rfl, s.setReg_advance_frame d k 1⟩

/-- Settles O42, by whether k is inside DataSpace. -/
theorem ldsLoadsDirect : Obligations.LdsLoadsDirect := by
  refine ⟨fun s d k => ⟨hasRow rfl, fun h => ?inside, fun h => ?outside⟩,
    secondWordTraps_of_twoWord fun op h => ?second⟩
  case inside => exact completes_lds h ⟨s.setReg_advance_reg d _ 2, rfl, s.setReg_advance_frame d _ 2⟩
  case outside => exact traps_of_finish rfl (by rw [State.loadDirect_eq, if_neg (Nat.not_lt.2 h)])
  case second =>
    exact twoWord_of_rowMatches (w2 := 0) (i := .lds (fieldD5 op) 0) (by simp [rowInstrs])
      ((rowMatches_iff ..).2 h) rfl

/-- Settles O43, by whether k is inside DataSpace. -/
theorem stsStoresDirect : Obligations.StsStoresDirect := by
  refine ⟨fun s k r => ⟨hasRow rfl, fun h => ?inside, fun h => ?outside⟩,
    secondWordTraps_of_twoWord fun op h => ?second⟩
  case inside => exact completes_sts h ⟨s.putByte_byteAt_same .., rfl, s.putByte_advance_frame ..⟩
  case outside => exact traps_of_finish rfl (by rw [State.storeDirect_eq, if_neg (Nat.not_lt.2 h)])
  case second =>
    exact twoWord_of_rowMatches (w2 := 0) (i := .sts 0 (fieldD5 op)) (by simp [rowInstrs])
      ((rowMatches_iff ..).2 h) rfl

/-- Settles O46: one argument for both modes that write the pointer back, by whether Rd is of the pointer. -/
theorem ldFormsLoadAndWriteBack : Obligations.LdFormsLoadAndWriteBack := by
  refine fun s p d => ⟨fun m => hasRow_ldForm p m d, fun h => ?plain, fun hd h => ?postInc, fun hd h => ?preDec,
    fun hd h => ?postIncOverlap, fun hd h => ?preDecOverlap, fun h => ⟨?plainOut, ?postIncOut⟩, fun h => ?preDecOut⟩
  case plain => exact completes_ldForm h ⟨s.setReg_advance_reg d _ 1, rfl, s.setReg_advance_frame d _ 1⟩
  case postInc => exact completes_ldForm_writesBack (m := .postInc) rfl hd h
  case preDec => exact completes_ldForm_writesBack (m := .preDec) rfl hd h
  case postIncOverlap => exact completes_ldForm_overlap rfl hd h
  case preDecOverlap => exact completes_ldForm_overlap rfl hd h
  case plainOut => exact traps_ldForm (m := .plain) h
  case postIncOut => exact traps_ldForm (m := .postInc) h
  case preDecOut => exact traps_ldForm (m := .preDec) h

/-- Settles O47: one argument for both modes that write the pointer back, by whether EA is of the pointer; Rr of the
pointer changes the byte stored alone. -/
theorem stFormsStoreAndWriteBack : Obligations.StFormsStoreAndWriteBack := by
  refine fun s p r => ⟨fun m => hasRow_stForm p m r, fun h => ?plain, fun hr ha h => ?postInc, fun hr ha h => ?preDec,
    fun h => ⟨?plainOut, ?postIncOut⟩, fun h => ?preDecOut, fun m hm h => ⟨fun _ ha => ?drawnByte, fun ha => ?overlap⟩⟩
  case plain => exact completes_stForm h ⟨s.putByte_byteAt_same .., rfl, s.putByte_advance_frame ..⟩
  case postInc => exact storedByte_of_notMem hr ▸ completes_stForm_writesBack (m := .postInc) rfl ha h
  case preDec => exact storedByte_of_notMem hr ▸ completes_stForm_writesBack (m := .preDec) rfl ha h
  case plainOut => exact traps_stForm (m := .plain) h
  case postIncOut => exact traps_stForm (m := .postInc) h
  case preDecOut => exact traps_stForm (m := .preDec) h
  case drawnByte =>
    obtain ⟨t, ht, -, hptr, hpc, hframe⟩ := completes_stForm_writesBack (writesBack_of_ne_plain hm) ha h
    exact ⟨t, ht, hpc, hptr, hframe⟩
  case overlap => exact completes_stForm_overlap (writesBack_of_ne_plain hm) ha h

/-- Settles O48, by whether Z is inside Flash and, with post-increment, whether Rd is of Z. -/
theorem lpmReadsFlash : Obligations.LpmReadsFlash := by
  intro s d
  rw [flashByteAt_eq]
  refine ⟨hasRow rfl, hasRow rfl, fun h => ⟨?plain, fun h30 h31 => ?postInc, fun hd => ?overlap⟩,
    fun h => ⟨traps_of_finish rfl (loadProgram_outside h _), traps_of_finish rfl (loadProgram_outside h _)⟩⟩
  case plain =>
    exact completes_of_finish rfl (loadProgram_plain h)
      ⟨congrArg _ (s.setReg_advance_reg d _ 1), rfl, s.setReg_advance_frame d _ 1⟩
  case postInc =>
    have hd : d.toNat ∉ ptrAddrs .z := mt (mem_ptrAddrs_z_iff d).1 (not_or.2 ⟨h30, h31⟩)
    obtain ⟨hb, hptr, hpc, hframe⟩ := s.setReg_setPtr_writtenBack hd _ _
    exact completes_of_finish rfl (loadProgram_writesBack h hd) ⟨congrArg _ hb, hptr, hpc, hframe⟩
  case overlap =>
    exact completes_of_finish rfl (loadProgram_overlap h ((mem_ptrAddrs_z_iff d).2 hd))
      ⟨rfl, s.drawPtr_advance_frame .z⟩

/-- Settles O49: RAMPZ:Z is one 24-bit number, read and written back whole. -/
theorem elpmReadsExtendedFlash : Obligations.ElpmReadsExtendedFlash := by
  intro s d
  simp only [flashByteAt_eq, ← State.rampzZ_toNat]
  refine ⟨hasRow rfl, hasRow rfl, fun h => ⟨?plain, fun h30 h31 => ?postInc, fun hd => ?overlap⟩,
    fun h => ⟨traps_of_finish rfl (loadProgramExt_outside h _), traps_of_finish rfl (loadProgramExt_outside h _)⟩⟩
  case plain =>
    exact completes_of_finish rfl (loadProgramExt_plain h)
      ⟨congrArg _ (s.setReg_advance_reg d _ 1), rfl, s.setReg_advance_frame d _ 1⟩
  case postInc =>
    have hd : d.toNat ∉ ptrAddrs .z := mt (mem_ptrAddrs_z_iff d).1 (not_or.2 ⟨h30, h31⟩)
    have hnext (t : State) : (t.setRampzZ (s.rampzZ + 1)).rampzZ.toNat = (s.rampzZ.toNat + 1) % 2 ^ 24 := by
      rw [State.setRampzZ_rampzZ]
      rfl
    exact completes_of_finish rfl (loadProgramExt_writesBack h hd)
      ⟨congrArg _ (s.setReg_setRampzZ_reg hd _ _), hnext _, rfl, s.setReg_setRampzZ_frame d _ _⟩
  case overlap =>
    exact completes_of_finish rfl (loadProgramExt_overlap h ((mem_ptrAddrs_z_iff d).2 hd))
      ⟨rfl, s.drawRampzZ_advance_frame⟩

/-- Settles O50: IN writes one register and moves on. -/
theorem inReadsAnIoByte : Obligations.InReadsAnIoByte :=
  fun s d _ => ⟨hasRow rfl, _, rfl, s.setReg_advance_reg d _ 1, rfl, s.setReg_advance_frame d _ 1⟩

/-- Settles O51: SREG and RAMPZ are the bytes at I/O addresses 0x3F and 0x3B. -/
theorem outWritesAnIoByte : Obligations.OutWritesAnIoByte := by
  intro s a r
  have hbyte : ((s.putByte (ioAddr a) (s.reg r)).advance 1).byteAt (ioAddr a) = s.reg r := s.putByte_byteAt_same ..
  refine ⟨hasRow rfl, _, rfl, hbyte, ?_, ?_, rfl, s.putByte_advance_frame ..⟩
  · rintro rfl
    exact hbyte
  · rintro rfl
    exact hbyte

end Sys2Proof.Proofs
end

section
/-!
PROOFS. The exceptions family (60_exceptions.md): how an instruction and a step fault, what the host's step returns, and
the host's operations built on it: run, simulate, the program load and the breakpoints.
-/

namespace Sys2Proof.Machine

open Sys2Proof.Safety

/-! ### The kind of fault an effect raises -/

/-- The effect completes or raises the kind `k`. -/
inductive RaisesOnly (k : FaultKind) : Except Raise State → Prop where
  | ok (t : State) : RaisesOnly k (.ok t)
  | error (x : Nat) : RaisesOnly k (.error { kind := k, info := x })

theorem RaisesOnly.ite {k : FaultKind} {c : Prop} [Decidable c] {e e' : Except Raise State} (h : RaisesOnly k e)
    (h' : RaisesOnly k e') : RaisesOnly k (if c then e else e') := by
  split_ifs
  · exact h
  · exact h'

namespace State

variable (s : State)

theorem skipIfEqual_raises (d r : Reg) : RaisesOnly .pcRange (s.skipIfEqual d r) := by
  rw [skipIfEqual_eq]
  exact .ite (.ite (.ok _) (.error _)) (.ok _)

theorem callTo_raises (k : PcWord) : RaisesOnly .stackRange (s.callTo k) := by
  rw [callTo_eq]
  exact .ite (.ite (.ite (.ok _) (.error _)) (.error _))
    (.error _)

theorem returnFrom_raises : RaisesOnly .stackRange s.returnFrom := by
  rw [returnFrom_eq]
  exact .ite (.ite (.ite (.ok _) (.error _)) (.error _))
    (.error _)

theorem pushByte_raises (v : Byte) : RaisesOnly .stackRange (s.pushByte v) := by
  rw [pushByte_eq]
  exact .ite (.ok _) (.error _)

theorem popByte_raises (d : Reg) : RaisesOnly .stackRange (s.popByte d) := by
  rw [popByte_eq]
  exact .ite (.ok _) (.error _)

theorem loadDirect_raises (d : Reg) (k : Word) : RaisesOnly .dataRange (s.loadDirect d k) := by
  rw [loadDirect_eq]
  exact .ite (.ok _) (.error _)

theorem storeDirect_raises (k : Word) (r : Reg) : RaisesOnly .dataRange (s.storeDirect k r) := by
  rw [storeDirect_eq]
  exact .ite (.ok _) (.error _)

theorem loadIndirect_raises (p : Ptr) (m : PtrMode) (d : Reg) : RaisesOnly .dataRange (s.loadIndirect p m d) := by
  rw [loadIndirect_eq]
  exact .ite (.ok _) (.error _)

theorem storeIndirect_raises (p : Ptr) (m : PtrMode) (r : Reg) : RaisesOnly .dataRange (s.storeIndirect p m r) := by
  rw [storeIndirect_eq]
  exact .ite (.ok _) (.error _)

theorem loadProgram_raises (inc : Bool) (d : Reg) : RaisesOnly .flashRange (s.loadProgram inc d) := by
  rw [loadProgram_eq]
  exact .ite (.ok _) (.error _)

theorem loadProgramExt_raises (inc : Bool) (d : Reg) : RaisesOnly .flashRange (s.loadProgramExt inc d) := by
  rw [loadProgramExt_eq]
  exact .ite (.ok _) (.error _)

end State

/-- Completing leaves a running core running. -/
theorem Completed.running {i : Instr} {s t : State} (h : Completed i s t) (hs : Running s) : Running t :=
  h.updates.fault.trans hs

theorem canRaise_of_finish {i : Instr} {s t : State} {e : Except Raise State} {k : FaultKind} {f : FaultRecord}
    (hs : Running s) (hf : t.fault = some f) (he : RaisesOnly k e) (hi : ∀ j, canRaise i j = (j == k))
    (hok : e = .ok t → Completed i s t) (h : s.finish e = .next t) : canRaise i f.kind = true := by
  cases he with
  | ok u =>
    cases h
    cases ((hok rfl).running hs).symm.trans hf
  | error x =>
    cases h
    cases hf
    rw [hi]
    exact beq_self_eq_true k

/-- A record an instruction leaves is of a kind listed for it (60_exceptions.md R302 to R305). -/
theorem canRaise_of_exec {i : Instr} {s t : State} {f : FaultRecord} (hs : Running s) (h : exec i s = .next t)
    (hf : t.fault = some f) : canRaise i f.kind = true := by
  cases i with
  | add | adc | sub | sbc | cp | cpc | and | or | eor | subi | sbci | cpi | ori | com
  | ldi | inIo | outIo | rjmp | jmp =>
    cases h
    cases hs.symm.trans hf
  | brbs b k =>
    cases h
    cases ((completed_brbs b k).running hs).symm.trans hf
  | brbc b k =>
    cases h
    cases ((completed_brbc b k).running hs).symm.trans hf
  | cpse => exact canRaise_of_finish hs hf (s.skipIfEqual_raises ..) (fun _ => rfl) completed_skipIfEqual h
  | call => exact canRaise_of_finish hs hf (s.callTo_raises _) (fun _ => rfl) completed_callTo h
  | ret => exact canRaise_of_finish hs hf s.returnFrom_raises (fun _ => rfl) completed_returnFrom h
  | push => exact canRaise_of_finish hs hf (s.pushByte_raises _) (fun _ => rfl) completed_pushByte h
  | pop => exact canRaise_of_finish hs hf (s.popByte_raises _) (fun _ => rfl) completed_popByte h
  | lds => exact canRaise_of_finish hs hf (s.loadDirect_raises ..) (fun _ => rfl) completed_loadDirect h
  | sts => exact canRaise_of_finish hs hf (s.storeDirect_raises ..) (fun _ => rfl) completed_storeDirect h
  | ldX | ldXInc | ldDecX | ldY | ldYInc | ldDecY | ldZ | ldZInc | ldDecZ =>
    exact canRaise_of_finish hs hf (s.loadIndirect_raises ..) (fun _ => rfl) (completed_loadIndirect rfl rfl) h
  | stX | stXInc | stDecX | stY | stYInc | stDecY | stZ | stZInc | stDecZ =>
    exact canRaise_of_finish hs hf (s.storeIndirect_raises ..) (fun _ => rfl) (completed_storeIndirect rfl rfl rfl) h
  | lpmZ | lpmZInc =>
    exact canRaise_of_finish hs hf (s.loadProgram_raises ..) (fun _ => rfl) (completed_loadProgram rfl rfl) h
  | elpmZ | elpmZInc =>
    exact canRaise_of_finish hs hf (s.loadProgramExt_raises ..) (fun _ => rfl) (completed_loadProgramExt rfl rfl) h

theorem cpse_of_canRaise_pcRange {i : Instr} (h : canRaise i .pcRange = true) : ∃ d r, i = .cpse d r := by
  cases i with
  | cpse d r => exact ⟨d, r, rfl⟩
  | _ => cases h

/-! ### What fetch raises -/

/-- A first fetch past Flash: there is no word to record (10_state.md R52). -/
theorem fetch_outside {s : State} (hpc : s.cfg.flashWords ≤ s.pc.toNat) :
    fetch s = .error { op := none, raise := { kind := .pcRange, info := s.pc.toNat } } := by
  rw [fetch_eq, if_neg (Nat.not_lt.2 hpc)]

theorem decode_of_no_row {op : Word} (w2 : Word) (h : ∀ row ∈ tableRows, rowMatches op row = false) :
    decode op w2 = .error (.illegalInstruction op) := by
  obtain ⟨-, -, hillegal⟩ := Proofs.admittedWordsAreTheTable op w2
  exact hillegal h

/-- No word without a row asks for a second word (30_encoding.md R115). -/
theorem twoWord_of_no_row {op : Word} (h : ∀ row ∈ tableRows, rowMatches op row = false) : twoWord op = false := by
  rw [Bool.eq_false_iff]
  intro htwo
  obtain ⟨-, htwoWord⟩ := Proofs.twoWordIsLdsStsJmpCall op
  obtain ⟨w2, i, hread, -⟩ := htwoWord.1 htwo
  cases hread.symm.trans (decode_of_no_row w2 h)

theorem fetch_illegal {s : State} (hpc : s.pc.toNat < s.cfg.flashWords)
    (h : ∀ row ∈ tableRows, rowMatches (fetchedWord s) row = false) :
    fetch s = .error
      { op := some (fetchedWord s), raise := { kind := .illegalInstruction, info := (fetchedWord s).toNat } } := by
  rw [fetch_eq, if_pos hpc, ← fetchedWord, if_neg (Bool.eq_false_iff.1 (twoWord_of_no_row h)), dispatchWords,
    decode_of_no_row _ h]

/-! ### How a step ends -/

/-- No update counts the instruction: the step does (60_exceptions.md R311). -/
theorem Updates.instrCount {i : Instr} {s t : State} (u : Updates i s t) : t.instrCount = s.instrCount := by
  induction u with
  | refl => rfl
  | setPc _ _ ih | tick _ _ ih | pushCall _ _ ih | popCall _ ih | putByte _ _ _ ih => exact ih

/-- A step completes the instruction fetched and counts it, or takes a fault, from the state before it. -/
theorem step_ended {s t : State} (h : step s = .next t) :
    (∃ i, fetch s = .ok i ∧ t.fault = none ∧ t.instrCount = s.instrCount + 1) ∨ ∃ op r, t = s.takeFault op r := by
  obtain ⟨hs, ⟨i, u, hi, he, rfl⟩ | ⟨f, -, rfl⟩⟩ := step_cases h
  · obtain hc | ⟨r, rfl⟩ := exec_ended he
    · have hu : u.fault = none := hc.running hs
      have hcount : u.retire = u.count := by rw [State.retire, hu]; rfl
      refine .inl ⟨i, hi, ?_, ?_⟩
      · rw [hcount, State.count_fault, hu]
      · rw [hcount, State.count_instrCount, hc.updates.instrCount]
    · exact .inr ⟨_, r, rfl⟩
  · exact .inr ⟨_, _, rfl⟩

/-- A running core always steps to a next state. -/
theorem step_next {s : State} (hs : Running s) : ∃ t, step s = .next t := by
  cases hf : fetch s with
  | error f => exact ⟨_, step_of_fetch_error hs hf⟩
  | ok i =>
    obtain ⟨t, ht⟩ := exec_next i s
    exact ⟨_, step_of_fetch hs hf ht⟩

theorem step_halted {s : State} {f : FaultRecord} (hf : s.fault = some f) : step s = .fault (.halted f) := by
  rw [step, hf]

/-! ### The host's step -/

theorem hostStep_of_step {s t : State} (h : step s = .next t) :
    hostStep s = (t, if t.fault.isSome then 0 else cyclesHere s) := by rw [hostStep, h]

theorem hostStep_of_fault {s t : State} (h : step s = .next t) (ht : t.fault ≠ none) : hostStep s = (t, 0) := by
  rw [hostStep_of_step h, if_pos (Option.isSome_iff_ne_none.2 ht)]

theorem hostStep_halted {s : State} {f : FaultRecord} (hf : s.fault = some f) : hostStep s = (s, 0) := by
  rw [hostStep, step_halted hf]

/-- A count of CYCLES is at least 1 (60_exceptions.md R311). -/
theorem countAt_pos {s : State} (hw : s.cfg.wf = true) (row : Nat) : 0 < countAt s row := by
  simp only [Params.wf, Bool.and_eq_true, List.all_eq_true, decide_eq_true_eq] at hw
  obtain ⟨-, hcycles⟩ := hw
  rw [countAt]
  by_cases hrow : row < s.cfg.cycles.length
  · rw [List.getD_eq_getElem _ _ hrow]
    exact hcycles _ (List.getElem_mem hrow)
  · rw [List.getD_eq_default _ _ (Nat.not_lt.1 hrow)]
    exact Nat.one_pos

theorem cycleCount_pos {s : State} (hw : s.cfg.wf = true) (i : Instr) : 0 < cycleCount i s := by
  unfold cycleCount
  split
  · split_ifs
    · exact Nat.succ_pos 2
    · exact Nat.succ_pos 1
    · exact countAt_pos hw _
  · exact countAt_pos hw _
  · exact countAt_pos hw _
  · exact countAt_pos hw _

/-- A host step that returns cycles has completed an instruction. -/
theorem hostStep_completes {s : State} (h : (hostStep s).2 ≠ 0) :
    Running s ∧ Running (hostStep s).1 ∧ step s = .next (hostStep s).1 := by
  cases hf : s.fault with
  | some f => simp [hostStep_halted hf] at h
  | none =>
    obtain ⟨t, ht⟩ := step_next hf
    by_cases hft : t.fault = none
    · rw [hostStep_of_step ht]
      exact ⟨hf, hft, ht⟩
    · simp [hostStep_of_fault ht hft] at h

/-- A host step that returns 0 ends, its counts being at least 1, with a fault recorded (60_exceptions.md R311). -/
theorem hostStep_fault {s : State} (hw : s.cfg.wf = true) (h : (hostStep s).2 = 0) : (hostStep s).1.fault ≠ none := by
  cases hf : s.fault with
  | some f => simp [hostStep_halted hf, hf]
  | none =>
    obtain ⟨t, ht⟩ := step_next hf
    rw [hostStep_of_step ht] at h ⊢
    obtain ⟨i, hi, hft, -⟩ | ⟨op, r, rfl⟩ := step_ended ht
    · have hpos := cycleCount_pos hw i
      simp only [hft, cyclesHere, hi, Option.isSome_none, Bool.false_eq_true, if_false] at h
      omega
    · exact Option.some_ne_none _

theorem hostStep_instrCount {s : State} (h : (hostStep s).2 ≠ 0) :
    (hostStep s).1.instrCount = s.instrCount + 1 := by
  obtain ⟨-, hrun, hstep⟩ := hostStep_completes h
  obtain ⟨i, -, -, hcount⟩ | ⟨op, r, ht⟩ := step_ended hstep
  · exact hcount
  · rw [Running, ht] at hrun
    cases hrun

theorem hostStep_host {s : State} (h : (hostStep s).2 ≠ 0) : HostPartKept s (hostStep s).1 := by
  obtain ⟨-, -, hstep⟩ := hostStep_completes h
  exact step_hostPartKept hstep

/-! ### The host's run -/

/-- Where the host's run that began in `s` with `total` stands with no fault recorded (60_exceptions.md R313). -/
structure AtBreakpoint (s t : State) (total total' : Nat) : Prop where
  pc : t.pc ∈ s.breakpoints
  breakpoints : t.breakpoints = s.breakpoints
  instrCount : s.instrCount < t.instrCount
  total : total < total'

theorem hostRun_atBreakpoint {fuel total total' : Nat} {s t : State} (hw : s.cfg.wf = true)
    (h : hostRun fuel s total = some (t, total')) (ht : t.fault = none) : AtBreakpoint s t total total' := by
  induction fuel generalizing s total with
  | zero => cases h
  | succ k ih =>
    rw [hostRun] at h
    split_ifs at h with hzero hbreak
    · cases h
      exact absurd ht (hostStep_fault hw hzero)
    · cases h
      have hhost := hostStep_host hzero
      refine ⟨hhost.breakpoints ▸ hbreak, hhost.breakpoints, ?_, by omega⟩
      rw [hostStep_instrCount hzero]
      exact Nat.lt_succ_self _
    · have hhost := hostStep_host hzero
      have hcount := hostStep_instrCount hzero
      obtain ⟨hpc, hbreaks, hinstr, htotal⟩ := ih (hhost.cfg ▸ hw) h
      rw [hhost.breakpoints] at hpc hbreaks
      exact ⟨hpc, hbreaks, by omega, by omega⟩

/-! ### Completing host steps one after another -/

/-- The first of several completing steps. -/
theorem hostSteps_succ_iff {s u : State} {j c : Nat} :
    hostSteps (j + 1) s = some (u, c) ↔
      (hostStep s).2 ≠ 0 ∧ ∃ e, hostSteps j (hostStep s).1 = some (u, e) ∧ c = (hostStep s).2 + e := by
  constructor
  · intro h
    rw [hostSteps] at h
    split_ifs at h with hzero
    cases hrest : hostSteps j (hostStep s).1 with
    | none => simp [hrest] at h
    | some r =>
      simp only [hrest, Option.some.injEq, Prod.mk.injEq] at h
      obtain ⟨rfl, rfl⟩ := h
      exact ⟨hzero, r.2, rfl, rfl⟩
  · rintro ⟨hc, e, he, rfl⟩
    exact hostSteps_succ hc he

/-- Completing steps keep the parameters and record no fault. -/
theorem hostSteps_keeps {k c : Nat} {s u : State} (h : hostSteps k s = some (u, c)) :
    u.cfg = s.cfg ∧ u.fault = s.fault := by
  induction k generalizing s c with
  | zero =>
    cases h
    exact ⟨rfl, rfl⟩
  | succ j ih =>
    obtain ⟨hc, e, he, -⟩ := hostSteps_succ_iff.1 h
    obtain ⟨hs, ht, -⟩ := hostStep_completes hc
    obtain ⟨hcfg, hfault⟩ := ih he
    exact ⟨hcfg.trans (hostStep_host hc).cfg, hfault.trans (ht.trans hs.symm)⟩

/-! ### The host's simulate -/

/-- `t` is where the loop of `simulate` begun in `s` has spent its budget: after completing steps, each begun while the
cycles of those before it were below the budget (60_exceptions.md R312). -/
def BudgetSpent (s t : State) (budget : Int) : Prop :=
  ∃ k u c, hostSteps k s = some (u, c) ∧ t = { u with delayedCycles := budget - c } ∧ budget - c ≤ 0 ∧
    ∀ j v e, j < k → hostSteps j s = some (v, e) → (e : Int) < budget

/-- `t` is where the loop of `simulate` begun in `s` has met a step that returns 0, within its budget (60_exceptions.md
R312). -/
def StepFailed (s t : State) (budget : Int) : Prop :=
  ∃ k u c, hostSteps k s = some (u, c) ∧ (c : Int) < budget ∧ (hostStep u).2 = 0 ∧
    t = { (hostStep u).1 with delayedCycles := 0 }

section Loop

variable {s t : State} {budget : Int}

theorem simulateLoop_nonpos (fuel : Nat) (h : budget ≤ 0) :
    simulateLoop fuel s budget = ({ s with delayedCycles := budget }, true) := by
  rw [simulateLoop.eq_def, if_pos h]

theorem simulateLoop_pos (fuel : Nat) (h : 0 < budget) :
    simulateLoop (fuel + 1) s budget =
      if (hostStep s).2 = 0 then ({ (hostStep s).1 with delayedCycles := 0 }, false)
      else simulateLoop fuel (hostStep s).1 (budget - (hostStep s).2) := by
  rw [simulateLoop.eq_def, if_neg (Int.not_le.2 h)]

theorem budgetSpent_nonpos (h : budget ≤ 0) : BudgetSpent s { s with delayedCycles := budget } budget := by
  refine ⟨0, s, 0, rfl, ?_, ?_, nofun⟩
  · rw [Nat.cast_zero, Int.sub_zero]
  · rwa [Nat.cast_zero, Int.sub_zero]

theorem BudgetSpent.of_rest (hc : (hostStep s).2 ≠ 0) (hb : 0 < budget)
    (h : BudgetSpent (hostStep s).1 t (budget - (hostStep s).2)) : BudgetSpent s t budget := by
  obtain ⟨k, u, c, hsteps, ht, hspent, hbelow⟩ := h
  refine ⟨k + 1, u, (hostStep s).2 + c, hostSteps_succ hc hsteps, ?_, by omega, fun j v e hj hjs => ?_⟩
  · rw [ht, Int.sub_sub, Nat.cast_add]
  · cases j with
    | zero =>
      cases hjs
      exact hb
    | succ i =>
      obtain ⟨-, e', he', rfl⟩ := hostSteps_succ_iff.1 hjs
      have hlt := hbelow i v e' (Nat.lt_of_succ_lt_succ hj) he'
      omega

theorem StepFailed.of_rest (hc : (hostStep s).2 ≠ 0) (h : StepFailed (hostStep s).1 t (budget - (hostStep s).2)) :
    StepFailed s t budget := by
  obtain ⟨k, u, c, hsteps, hlt, hzero, ht⟩ := h
  exact ⟨k + 1, u, (hostStep s).2 + c, hostSteps_succ hc hsteps, by omega, hzero, ht⟩

/-- With as many turns as the budget has cycles the loop never runs out of them: a turn takes at least one cycle. -/
theorem simulateLoop_ends {fuel : Nat} (hfuel : budget ≤ fuel) :
    (simulateLoop fuel s budget = (t, true) → BudgetSpent s t budget) ∧
      (simulateLoop fuel s budget = (t, false) → StepFailed s t budget) := by
  induction fuel generalizing s budget with
  | zero =>
    rw [simulateLoop_nonpos 0 hfuel]
    exact ⟨fun h => (Prod.mk.inj h).1 ▸ budgetSpent_nonpos hfuel, nofun⟩
  | succ k ih =>
    obtain hb | hb := le_or_gt budget 0
    · rw [simulateLoop_nonpos _ hb]
      exact ⟨fun h => (Prod.mk.inj h).1 ▸ budgetSpent_nonpos hb, nofun⟩
    · rw [simulateLoop_pos k hb]
      by_cases hzero : (hostStep s).2 = 0
      · rw [if_pos hzero]
        exact ⟨nofun, fun h => ⟨0, s, 0, rfl, hb, hzero, (Prod.mk.inj h).1.symm⟩⟩
      · rw [if_neg hzero]
        obtain ⟨hspent, hfailed⟩ := ih (s := (hostStep s).1) (budget := budget - (hostStep s).2) (by omega)
        exact ⟨fun h => (hspent h).of_rest hzero hb, fun h => (hfailed h).of_rest hzero⟩

end Loop

/-! ### The host's load -/

theorem hostLoadProgram_ok {s t : State} {image : List Char} (h : hostLoadProgram s image = .ok t) :
    ∃ rs, parseRecords image.length image = .ok rs ∧
      placeRecords (s.beginLoad fun w => rs.any fun r => recordCovers r w) rs = .ok t := by
  rw [hostLoadProgram] at h
  split_ifs at h
  cases hp : parseRecords image.length image with
  | error e => simp [hp] at h
  | ok rs => exact ⟨rs, rfl, by simpa [hp] using h⟩

/-- A load changes Flash alone, and counts itself (60_exceptions.md R315). -/
theorem hostLoadProgram_changes {s t : State} {image : List Char} (h : hostLoadProgram s image = .ok t) :
    t = { s with flash := t.flash, loads := s.loads + 1 } := by
  obtain ⟨rs, -, hplace⟩ := hostLoadProgram_ok h
  exact (placeRecords_ok hplace).1

theorem hostLoadProgram_inv {s t : State} {image : List Char} (h : hostLoadProgram s image = .ok t)
    (hinv : MachineInv s) : MachineInv t := by
  obtain ⟨rs, -, hplace⟩ := hostLoadProgram_ok h
  obtain ⟨hcfg, hds, hflash, hbreak, hcarry⟩ := hinv
  obtain ⟨-, -, hwf⟩ := placeRecords_ok hplace
  rw [hostLoadProgram_changes h]
  refine ⟨hcfg, hds, hwf ?_, hbreak, hcarry⟩
  rw [State.beginLoad_flash]
  exact Memory.wf_restrict hflash _

/-- What a load leaves placed: the image's bytes, else what it held in the words the image covers. -/
theorem placeRecords_beginLoad_get {s t : State} {rs : List DataRecord}
    (h : placeRecords (s.beginLoad fun w => rs.any fun r => recordCovers r w) rs = .ok t) (b : Nat) :
    Memory.get t.flash b =
      (imageByte rs b).or
        (if imageByte rs (2 * (b / 2)) = none ∧ imageByte rs (2 * (b / 2) + 1) = none then none
          else Memory.get s.flash b) := by
  obtain ⟨-, hget, -⟩ := placeRecords_ok h
  rw [hget, State.beginLoad_flash, Memory.get_restrict]
  have hcover := no_record_covers_iff rs (b / 2)
  cases imageByte rs b with
  | some v => rfl
  | none =>
    cases hany : rs.any fun r => recordCovers r (b / 2) with
    | true =>
      rw [hany] at hcover
      simp [← hcover]
    | false => simp [hcover.1 hany]

/-- A placed byte reads as it is (20_memory.md R74). -/
theorem flashByteAt_of_get {s : State} {b : Nat} {v : Byte} (h : Memory.get s.flash b = some v) :
    flashByteAt s b = v.toNat := by rw [flashByteAt_eq, Memory.readFlash, h, Option.getD_some]

theorem flashByteAt_congr {s t : State} {b : Nat} (hloads : t.loads = s.loads)
    (h : Memory.get t.flash b = Memory.get s.flash b) : flashByteAt t b = flashByteAt s b := by
  rw [flashByteAt_eq, flashByteAt_eq, Memory.readFlash, Memory.readFlash, hloads, h]

/-! ### Breakpoints -/

theorem risingPcs_iff (bs : List PcWord) : risingPcs bs = true ↔ bs.Pairwise (· < ·) := by
  induction bs with
  | nil => simp [risingPcs]
  | cons b rest ih =>
    rw [← List.isChain_iff_pairwise] at ih ⊢
    cases rest with
    | nil => simp [risingPcs]
    | cons c rest => rw [risingPcs, Bool.and_eq_true, decide_eq_true_eq, ih, List.isChain_cons_cons]

theorem mem_insertRising (p q : PcWord) (bs : List PcWord) : q ∈ insertRising p bs ↔ q = p ∨ q ∈ bs := by
  induction bs with
  | nil => simp [insertRising]
  | cons b rest ih =>
    rw [insertRising]
    split_ifs with hlt heq
    · exact List.mem_cons
    · rw [heq, List.mem_cons, ← or_assoc, or_self]
    · rw [List.mem_cons, ih, List.mem_cons, or_left_comm]

theorem pairwise_insertRising {p : PcWord} {bs : List PcWord} (h : bs.Pairwise (· < ·)) :
    (insertRising p bs).Pairwise (· < ·) := by
  induction bs with
  | nil => exact List.pairwise_singleton ..
  | cons b rest ih =>
    obtain ⟨hb, hrest⟩ := List.pairwise_cons.1 h
    rw [insertRising]
    split_ifs with hlt heq
    · exact List.pairwise_cons.2 ⟨List.forall_mem_cons.2 ⟨hlt, fun q hq => BitVec.lt_trans hlt (hb q hq)⟩, h⟩
    · exact h
    · refine List.pairwise_cons.2 ⟨fun q hq => ?_, ih hrest⟩
      obtain rfl | hq := (mem_insertRising p q rest).1 hq
      · bv_omega
      · exact hb q hq

/-- The invariant where BreakpointSet alone is changed. -/
theorem machineInv_breakpoints {s : State} {bs : List PcWord} (h : MachineInv s)
    (hbs : s.breakpoints.Pairwise (· < ·) → bs.Pairwise (· < ·)) : MachineInv { s with breakpoints := bs } := by
  obtain ⟨hcfg, hds, hflash, hbreak, hcarry⟩ := h
  exact ⟨hcfg, hds, hflash, (risingPcs_iff bs).2 (hbs ((risingPcs_iff _).1 hbreak)), hcarry⟩

end Sys2Proof.Machine

namespace Sys2Proof.Proofs

open Sys2Proof.Machine Sys2Proof.Safety

/-- Settles O7: the decoder answers illegal, and no second word is fetched before it does. -/
theorem illegalWordTraps : Obligations.IllegalWordTraps := by
  intro s hs hpc hrow
  have hstep := step_of_fetch_error hs (fetch_illegal hpc hrow)
  exact ⟨⟨_, hstep, s.takeFault_faulted _ _⟩, by rw [hostStep_of_fault hstep (Option.some_ne_none _)]⟩

/-- Settles O8: the fetches at the pc, of a second word and of CPSE's next word, and the list of the kinds each
instruction raises. -/
theorem pcRangeIsRaisedByFetchesOnly : Obligations.PcRangeIsRaisedByFetchesOnly := by
  refine ⟨fun s hs hpc => ?first, fun s hs hpc hpc2 htwo => ?second, fun s d r heq hout => ?skipped,
    fun s t i f hs h hf hk => ?execution⟩
  case first => exact ⟨_, step_of_fetch_error hs (fetch_outside hpc), s.takeFault_faulted _ _⟩
  case second =>
    have htraps : SecondWordTraps (BitVec.allOnes 16) (fetchedWord s) :=
      secondWordTraps_of_twoWord fun op hop => by rwa [← hop, BitVec.and_allOnes] at htwo
    exact htraps s hs hpc hpc2 BitVec.and_allOnes
  case skipped =>
    obtain ⟨-, -, -, houtside⟩ := cpseSkipsWhenEqual s d r
    exact houtside heq hout
  case execution => exact cpse_of_canRaise_pcRange (hk ▸ canRaise_of_exec hs h hf)

/-- Settles O9: a halted step changes nothing and returns 0, which ends `run` and, where it takes a step, `simulate`. -/
theorem faultedCoreStays : Obligations.FaultedCoreStays := by
  intro s f hf
  have hstep := hostStep_halted hf
  refine ⟨step_halted hf, hstep, fun fuel total => ?run, fun n hn => ?positive, fun n hn => ?spent, rfl,
    fun image t h => ?load⟩
  case run => rw [hostRun, hstep, if_pos rfl]
  case positive =>
    obtain ⟨k, hk⟩ := Nat.exists_eq_succ_of_ne_zero (Nat.pos_iff_ne_zero.1 (Int.lt_toNat.2 hn))
    rw [hostSimulate, hk, simulateLoop_pos k hn, hstep, if_pos rfl]
  case spent => exact simulateLoop_nonpos _ hn
  case load => rw [hostLoadProgram_changes h, hf]

/-- Settles O10: no instruction stops, and a record it leaves is of a kind listed for it. -/
theorem everyInstructionCompletesOrTraps : Obligations.EveryInstructionCompletesOrTraps := by
  intro i s hs
  obtain ⟨t, ht⟩ := exec_next i s
  refine ⟨t, ht, ?_⟩
  obtain hc | ⟨r, rfl⟩ := exec_ended ht
  · exact .inl (hc.running hs)
  · exact .inr ⟨r.kind, r.info, canRaise_of_exec hs ht rfl, s.takeFault_faulted _ r⟩

/-- Settles O11: a step that leaves a record has taken its fault from the state before it. -/
theorem faultsArePrecise : Obligations.FaultsArePrecise := by
  intro s t f h hf
  have hzero : (hostStep s).2 = 0 := by rw [hostStep_of_fault h (by simp [hf])]
  obtain ⟨i, -, hnone, -⟩ | ⟨op, r, rfl⟩ := step_ended h
  · cases hnone.symm.trans hf
  · cases hf
    exact ⟨rfl, rfl, rfl, rfl, hzero⟩

/-- Settles O16, by how the step ends. -/
theorem completedInstructionsAreCounted : Obligations.CompletedInstructionsAreCounted := by
  intro s t h
  obtain ⟨i, -, hnone, hcount⟩ | ⟨op, r, rfl⟩ := step_ended h
  · exact ⟨fun _ => hcount, fun hsome => absurd hnone hsome⟩
  · exact ⟨nofun, fun _ => rfl⟩

/-- Settles O53, by induction on the bound of the run. -/
theorem runStopsAtABreakpoint : Obligations.RunStopsAtABreakpoint := by
  intro fuel total total' s t hw h ht
  obtain ⟨hpc, hbreakpoints, hcount, htotal⟩ := hostRun_atBreakpoint hw h ht
  exact ⟨hpc, hbreakpoints, hcount, htotal⟩

/-- Settles O54, by the two ends of the loop; a step that returns 0 has recorded a fault. -/
theorem simulateCarriesTheOvershoot : Obligations.SimulateCarriesTheOvershoot := by
  intro s t n hw
  obtain ⟨hspent, hfailed⟩ := simulateLoop_ends (s := s) (t := t) (Int.self_le_toNat (n + s.delayedCycles))
  refine ⟨fun h => ?_, fun h => ?_⟩
  · obtain ⟨k, u, c, hsteps, rfl, hcarry, hbelow⟩ := hspent h
    exact ⟨hcarry, (hostSteps_keeps hsteps).2, k, u, c, hsteps, rfl, hbelow⟩
  · obtain ⟨k, u, c, hsteps, hlt, hzero, rfl⟩ := hfailed h
    obtain ⟨hcfg, -⟩ := hostSteps_keeps hsteps
    exact ⟨rfl, hostStep_fault (hcfg ▸ hw) hzero, k, u, c, hsteps, hlt, hzero, rfl⟩

/-- Settles O55, by which of the record's bytes, if any, Flash holds at an address. -/
theorem placedBytesReadBack : Obligations.PlacedBytesReadBack := by
  intro bytes s t b h
  obtain ⟨hrest, hget, -⟩ := placeBytes_ok h
  refine ⟨fun k hk => flashByteAt_of_get ?_, fun a ha => flashByteAt_congr (by rw [hrest]) ?_, hrest⟩
  · rw [hget, if_pos (Nat.le_add_right b k), Nat.add_sub_cancel_left, List.getElem?_eq_getElem hk]
  · have hnone : (if b ≤ a then bytes[a - b]? else none) = none := by
      split_ifs
      · exact List.getElem?_eq_none (by omega)
      · rfl
    rw [hget, hnone]

/-- Settles O56: placing writes Flash alone, inside its capacity. -/
theorem loadChangesOnlyFlash : Obligations.LoadChangesOnlyFlash :=
  ⟨fun _ _ _ h => ⟨hostLoadProgram_changes h, hostLoadProgram_inv h⟩, fun _ => rfl⟩

/-- Settles O57: insertion into a rising list and filtering keep it rising. -/
theorem breakpointsAreASet : Obligations.BreakpointsAreASet := by
  intro s p q
  refine ⟨mem_insertRising p q _, ?_, rfl, rfl, fun h => ?_, rfl, fun image t h => by rw [hostLoadProgram_changes h]⟩
  · rw [hostRemoveBreakpoint, List.mem_filter, decide_eq_true_eq, and_comm]
  · exact ⟨machineInv_breakpoints h pairwise_insertRising, machineInv_breakpoints h (List.Pairwise.filter _)⟩

/-- Settles O59, by what a load leaves placed at each byte address. -/
theorem loadedImageReadsBack : Obligations.LoadedImageReadsBack := by
  intro s t image h
  obtain ⟨rs, hparse, hplace⟩ := hostLoadProgram_ok h
  refine ⟨rs, hparse, by rw [hostLoadProgram_changes h], fun b v hv => flashByteAt_of_get ?_, fun b hb => ?_⟩
  · rw [placeRecords_beginLoad_get hplace, hv, Option.some_or]
  · rw [placeRecords_beginLoad_get hplace, hb, Option.none_or]

end Sys2Proof.Proofs
end

section
/-!
PROOFS. The reset and hazards family (70_reset_and_hazards.md): the bytes after a reset, the cycles the host's step
returns, and SP written by two OUTs.
-/

namespace Sys2Proof.Machine

open Sys2Proof.Safety

/-! ### Reset -/

/-- Reset zeroes DataSpace (70_reset_and_hazards.md R350). -/
@[simp] theorem State.hostReset_byteAt (s : State) (a : Nat) : s.hostReset.byteAt a = 0 := rfl

/-! ### Cycles -/

theorem twoWord_eq_false_of_decode {op w2 : Word} {i : Instr} (h : decode op w2 = .ok i)
    (hlen : (encode i).length = 1) : twoWord op = false := by
  rw [Bool.eq_false_iff]
  intro htwo
  rw [encode_of_decode h, if_pos htwo] at hlen
  cases hlen

/-- A one-word instruction is fetched without a look at the word after it. -/
theorem fetch_of_decode_oneWord {s : State} {i : Instr} (hpc : s.pc.toNat < s.cfg.flashWords)
    (hlen : (encode i).length = 1) (h : decode (fetchedWord s) 0 = .ok i) : fetch s = .ok i := by
  have hone : ¬twoWord (fetchedWord s) = true := Bool.eq_false_iff.1 (twoWord_eq_false_of_decode h hlen)
  exact fetch_of_decode hpc (fun htwo => absurd htwo hone) (by rwa [if_neg hone])

/-- The host's step returns the count of the instruction fetched when it completes (60_exceptions.md R311). -/
theorem hostStep_cycles_of_fetch {s t : State} {i : Instr} (hs : Running s) (hf : fetch s = .ok i)
    (he : exec i s = .next t) (ht : Running t) : (hostStep s).2 = cycleCount i s := by
  have hretire : t.retire.fault = none := by
    rw [State.retire, ht]
    exact ht
  rw [hostStep_of_step (step_of_fetch hs hf he), hretire, cyclesHere, hf]
  rfl

/-- CPSE's cycles with equal registers (70_reset_and_hazards.md R363). -/
theorem cycleCount_cpse_of_eq {s : State} {d r : Reg} (heq : s.reg d = s.reg r) :
    cycleCount (.cpse d r) s = if twoWord (s.flashWord (s.pc + 1).toNat) then 3 else 2 := if_pos heq

/-! ### Two OUTs -/

/-- Two OUTs to different I/O addresses: no register is an I/O byte, so the first changes nothing the second stores. -/
theorem completes_outIo_outIo (s : State) {a b : BitVec 6} (hab : a ≠ b) (q r : Reg) :
    Completes (.outIo a q) s fun t => Completes (.outIo b r) t fun u =>
      u.byteAt (0x20 + a.toNat) = s.reg q ∧ u.byteAt (0x20 + b.toNat) = s.reg r ∧
        Frame s u [0x20 + a.toNat, 0x20 + b.toNat] := by
  obtain ⟨-, t, ht, hfirst, -, -, -, hst⟩ := Proofs.outWritesAnIoByte s a q
  obtain ⟨-, u, hu, hsecond, -, -, -, htu⟩ := Proofs.outWritesAnIoByte t b r
  have hkept : 0x20 + a.toNat ∉ [0x20 + b.toNat] := by simpa [BitVec.toNat_inj] using hab
  have hreg : r.toNat ∉ [0x20 + a.toNat] := by
    have hr := r.isLt
    simp only [List.mem_singleton]
    omega
  exact ⟨t, ht, u, hu, (htu.bytes _ hkept).trans hfirst, hsecond.trans (hst.bytes _ hreg),
    frame_trans hst htu (by simp) (by simp)⟩

end Sys2Proof.Machine

namespace Sys2Proof.Proofs

open Sys2Proof.Machine Sys2Proof.Safety

/-- Settles O35: CPSE is of one word, so it is fetched without the word it skips, and it completes where that word is
inside Flash. -/
theorem cpseSkipCycles : Obligations.CpseSkipCycles := by
  intro s d r hs hpc hpc2 hdec heq
  obtain ⟨-, -, hskips, -⟩ := cpseSkipsWhenEqual s d r
  obtain ⟨t, ht, -, hframe⟩ := hskips heq hpc2
  calc (hostStep s).2
    _ = cycleCount (.cpse d r) s :=
      hostStep_cycles_of_fetch hs (fetch_of_decode_oneWord hpc rfl hdec) ht (hframe.fault.trans hs)
    _ = if twoWord (s.flashWord (s.pc + 1).toNat) then 3 else 2 := cycleCount_cpse_of_eq heq

/-- Settles O52: SPL and SPH are the bytes at I/O addresses 0x3D and 0x3E, two different ones. -/
theorem twoOutsSetSp : Obligations.TwoOutsSetSp := by
  refine fun s rl rh => ⟨?lowFirst, ?highFirst⟩
  case lowFirst =>
    obtain ⟨t, ht, u, hu, hlow, hhigh, hframe⟩ := completes_outIo_outIo s (a := 0x3D) (b := 0x3E) (by decide) rl rh
    exact ⟨t, ht, u, hu, congrArg₂ joinBytes hhigh hlow, hframe⟩
  case highFirst =>
    obtain ⟨t, ht, u, hu, hhigh, hlow, hframe⟩ := completes_outIo_outIo s (a := 0x3E) (b := 0x3D) (by decide) rh rl
    exact ⟨t, ht, u, hu, congrArg₂ joinBytes hhigh hlow, frame_mono hframe (List.Perm.swap ..).subset⟩

/-- Settles O14: every view is of bytes that are 0, and reset writes no other part than R350 lists. -/
theorem resetClearsTheCore : Obligations.ResetClearsTheCore := by
  intro s
  have hbyte := s.hostReset_byteAt
  have hword : joinBytes 0 0 = 0 := by decide
  refine ⟨hbyte, fun n => hbyte _, fun p => ?ptr, hbyte _, ?sp, hbyte _, rfl, rfl, rfl, ⟨rfl, rfl, rfl, rfl, rfl⟩, rfl,
    rfl⟩
  case ptr => rw [State.ptr, State.reg, State.reg, hbyte, hbyte, hword]
  case sp => rw [State.sp, hbyte, hbyte, hword]

end Sys2Proof.Proofs
end

section
/-!
PROOFS. The worked examples' words (95_test_vectors.md), decoded by evaluation.
-/

namespace Sys2Proof.Proofs

/-- Settles O5: the words are closed, so the decoder computes each one's instruction. -/
theorem workedExampleWordsDecode : Obligations.WorkedExampleWordsDecode := by
  unfold Obligations.WorkedExampleWordsDecode
  decide

end Sys2Proof.Proofs
end
